-- ==== Sys2Proof/Word.lean ====
section
/-! DEFINITION. The word types of ASC-1: the 32-bit word of lanes, memory and registers (00_scope.md R8, R9; 20_memory.md R90)
and the byte the host port numbers (20_memory.md R97). -/

namespace Sys2Proof

/-- A 32-bit word: one lane, one data-memory word, one command word, one control register. -/
abbrev Word := BitVec 32

/-- A byte of the host port (20_memory.md R97). -/
abbrev Byte := BitVec 8

/-- A vector register number, V0 to V15 (30_encoding.md R122: every value of the field is legal). -/
abbrev VReg := BitVec 4

/-- An envelope context number, 0 to 63 (30_encoding.md R127: every value of the field is legal). -/
abbrev Ctx := BitVec 6

end Sys2Proof
end

