-- ==== Sys2Proof/Config.lean ====
section
/-! DEFINITION. What is fixed for the machine and what the spec leaves open: the implementation parameters of
00_scope.md R6 with their ASC-1 values, the named f32 constants of R14, the type of a FastMath configuration
(41_fastmath.md R181), and the free values, which have no body. -/

namespace Sys2Proof

namespace Config

/-! ## Implementation parameters (00_scope.md R6)

Every parameter of R6 stands here once and the machine reads it from here. The word type of Word.lean, the register-number
types and the addresses of the memory and register maps are those of the ASC-1 values, for which 10_state.md, 20_memory.md
and 30_encoding.md are written (92_eei_decisions.md D60). -/

/-- W: lanes per vector. -/
abbrev lanes : Nat := 4
/-- LANE_BITS: bits per lane. -/
abbrev laneBits : Nat := 32
/-- NVREG: vector registers. -/
abbrev nVreg : Nat := 16
/-- MAX_VV: virtual voices. -/
abbrev maxVV : Nat := 10
/-- MAX_OVERTONES: overtone slots of one virtual voice. -/
abbrev maxOvertones : Nat := 600
/-- N_MAX: maximum frames of a buffer. -/
abbrev nMax : Nat := 1024
/-- N_EG: envelope contexts. -/
abbrev nEg : Nat := 64
/-- CMD_WORDS: command-RAM words. -/
abbrev cmdWords : Nat := 1024
/-- DMEM_WORDS: data-memory words. -/
abbrev dmemWords : Nat := 65536
/-- CR_SPACE: control-register numbers. -/
abbrev crSpace : Nat := 4096

/-- The lane width is that of a word. -/
theorem word_width : Word = BitVec laneBits := rfl

/-- EPS_FM, the FastMath accuracy bound (41_fastmath.md R182 to R184). -/
def epsFm : ℚ := 1 / 1000000
/-- TRIG_DOMAIN, the bound of the sine and cosine contract (41_fastmath.md R182). -/
def trigDomain : ℚ := 8192

/-- LOG_SENTINEL: fm_log of every x ≤ 0. -/
abbrev logSentinel : Word := 0xC2AEAC50#32
/-- EXP_HI: upper input bound of fm_exp. -/
abbrev expHi : Word := 0x42B17218#32
/-- EXP_FLUSH_X: below it fm_exp gives EXP_UNDER. -/
abbrev expFlushX : Word := 0xC2AEAC50#32
/-- EXP_OVER: fm_exp above EXP_HI. -/
abbrev expOver : Word := 0x7F7FFFFF#32
/-- EXP_UNDER: fm_exp below EXP_FLUSH_X. -/
abbrev expUnder : Word := 0x00800000#32
/-- ZERO_POW: shaping exponent of the envelope's Zero segment. -/
abbrev zeroPow : Word := 0x3F800000#32

/-- IMPL_ID (10_state.md R38). -/
abbrev implId : Word := 0x41534301#32
/-- IMPL_PARAMS (10_state.md R38): N_EG, MAX_VV, NVREG and W, from the top byte down. -/
abbrev implParams : Word := BitVec.ofNat 8 nEg ++ BitVec.ofNat 8 maxVV ++ BitVec.ofNat 8 nVreg ++ BitVec.ofNat 8 lanes
/-- IMPL_PARAMS2 (10_state.md R38): N_MAX and MAX_OVERTONES. -/
abbrev implParams2 : Word := BitVec.ofNat 16 nMax ++ BitVec.ofNat 16 maxOvertones

end Config

/-! ## FMCOEF: the FastMath polynomial constants (00_scope.md R6), the reference set of 41_fastmath.md R195 -/

namespace Config.FmCoef

abbrev fopi : Word := 0x3FA2F983#32
abbrev dp1 : Word := 0xBF490000#32
abbrev dp2 : Word := 0xB97DA000#32
abbrev dp3 : Word := 0xB3222169#32
abbrev s0 : Word := 0xB94CA1F9#32
abbrev s1 : Word := 0x3C08839E#32
abbrev s2 : Word := 0xBE2AAAA3#32
abbrev c0 : Word := 0x37CCF5CE#32
abbrev c1 : Word := 0xBAB6061A#32
abbrev c2 : Word := 0x3D2AAAA5#32
abbrev sqrthf : Word := 0x3F3504F3#32
abbrev lp0 : Word := 0x3D9021BB#32
/-- LP1 to LP8. -/
abbrev lpRest : List Word := [0xBDEBD1B8#32, 0x3DEF251A#32, 0xBDFE5D4F#32, 0x3E11E9BF#32,
  0xBE2AAE50#32, 0x3E4CCEAC#32, 0xBE7FFFFC#32, 0x3EAAAAAA#32]
abbrev q1 : Word := 0xB95E8083#32
abbrev q2 : Word := 0x3F318000#32
abbrev log2ef : Word := 0x3FB8AA3B#32
abbrev ep0 : Word := 0x39506967#32
/-- EP1 to EP5. -/
abbrev epRest : List Word := [0x3AB743CE#32, 0x3C088908#32, 0x3D2AA9C1#32, 0x3E2AAAAA#32, 0x3F000000#32]

end Config.FmCoef

/-! ## Named f32 constants (00_scope.md R14, and the literals the rules use) -/

namespace Const

abbrev twoPi : Word := 0x40C90FDB#32
abbrev pi : Word := 0x40490FDB#32
abbrev half : Word := 0x3F000000#32
abbrev one : Word := 0x3F800000#32
abbrev twelve : Word := 0x41400000#32
abbrev a440 : Word := 0x43DC0000#32
abbrev ln10Over20 : Word := 0x3DEBC8E3#32
abbrev posInf : Word := 0x7F800000#32
abbrev fltMin : Word := 0x00800000#32
abbrev fltMax : Word := 0x7F7FFFFF#32
/-- +0.0 -/
abbrev zero : Word := 0x00000000#32
/-- 2.0 -/
abbrev two : Word := 0x40000000#32
/-- 5.0 -/
abbrev five : Word := 0x40A00000#32
/-- −5.0 -/
abbrev minusFive : Word := 0xC0A00000#32
/-- −1.0 -/
abbrev minusOne : Word := 0xBF800000#32
/-- 2^24, the bound of the parity test of fm_pow (41_fastmath.md R188). -/
abbrev two24 : Word := 0x4B800000#32

end Const

/-- A FastMath configuration (41_fastmath.md R181): four total functions from 32 bits to 32 bits. -/
structure FM where
  sin : Word → Word
  cos : Word → Word
  log : Word → Word
  exp : Word → Word

/-- The four rounding operations of 00_scope.md R11, named for the free NaN below. -/
inductive ArithOp where
  | add
  | sub
  | mul
  | div
  deriving DecidableEq, Repr

namespace Config

/-! ## Free values: nothing in Lean can evaluate them -/

/-- V_INIT (70_reset_and_hazards.md R371; 92_eei_decisions.md D59): what lane `l` of register `r` holds after the reset
numbered `epoch`. Log 1. -/
opaque vInit : (epoch r l : Nat) → Word

/-- DMEM_INIT (70_reset_and_hazards.md R372; D59): what data-memory word `a` holds after the reset numbered `epoch`,
where R372 states no value. Log 2. -/
opaque dmemInit : (epoch a : Nat) → Word

/-- CMD_INIT (70_reset_and_hazards.md R372; D59): what command-RAM word `k` holds after the reset numbered `epoch`. Log 2. -/
opaque cmdInit : (epoch k : Nat) → Word

/-- The bits of the NaN that an operation delivers when a NaN other than the default one comes in: no rule states them. Log 4. -/
opaque nanBits : ArithOp → Word → Word → Word

end Config

end Sys2Proof
end

