-- ==== Sys2Proof/Syntax.lean ====
section
/-! DEFINITION. The commands of ASC-1, one constructor per row of spec/opcode_table.json (30_encoding.md R130), with the
operands of the assembler's operand table (R133) as the fields of the command word (R122 to R129). -/

namespace Sys2Proof

inductive Instr where
  /-- NOP (R151). -/
  | nop
  /-- END (R152). -/
  | endList
  /-- VLIH vd, imm16 (R153). -/
  | vlih (d : VReg) (imm : BitVec 16)
  /-- VLIL vd, imm16 (R154). -/
  | vlil (d : VReg) (imm : BitVec 16)
  /-- VMOV vd, vs (R155). -/
  | vmov (d s1 : VReg)
  /-- VBCAST vd, vs, lane (R156); `lane` is the whole s2 field, legal below 4 (R129). -/
  | vbcast (d s1 : VReg) (lane : BitVec 4)
  /-- LDV vd, addr (R157). -/
  | ldv (d : VReg) (addr : BitVec 16)
  /-- STV vs, addr (R158). -/
  | stv (src : VReg) (addr : BitVec 16)
  /-- CRR vd, cr (R159). -/
  | crr (d : VReg) (cr : BitVec 12)
  /-- CRW cr, vs (R160). -/
  | crw (cr : BitVec 12) (src : VReg)
  /-- FSIN vd, vs (R190). -/
  | fsin (d s1 : VReg)
  /-- FCOS vd, vs (R191). -/
  | fcos (d s1 : VReg)
  /-- FLOG vd, vs (R192). -/
  | flog (d s1 : VReg)
  /-- FEXP vd, vs (R193). -/
  | fexp (d s1 : VReg)
  /-- FPOW vd, vbase, vexp (R194). -/
  | fpow (d base expo : VReg)
  /-- FSEL vd, vmask, va, vb (R203). -/
  | fsel (d mask a b : VReg)
  /-- FFLOOR vd, vs (R204). -/
  | ffloor (d s1 : VReg)
  /-- FFREXPM vd, vs (R205). -/
  | ffrexpm (d s1 : VReg)
  /-- FFREXPE vd, vs (R206). -/
  | ffrexpe (d s1 : VReg)
  /-- FLDEXP vd, vx, vn (R207). -/
  | fldexp (d x n : VReg)
  /-- EGTRIG ctx, vtime, vanticlick (R246). -/
  | egtrig (ctx : Ctx) (time anticlick : VReg)
  /-- EGOFF ctx, vtime (R251). -/
  | egoff (ctx : Ctx) (time : VReg)
  /-- EGEVAL vd, ctx, vtime (R252). -/
  | egeval (d : VReg) (ctx : Ctx) (time : VReg)
  /-- KCLR (R280). -/
  | kclr
  /-- KRENDER vv (R281). -/
  | krender (vv : BitVec 4)
  deriving DecidableEq, Repr

end Sys2Proof
end

