-- ==== Sys2Proof/WellFormed.lean ====
section
/-! DEFINITION. Which terms of Instr a command word stands for (30_encoding.md R129), and the operand ranges an assembler
checks before it builds one (R134: it rejects an operand that does not fit and never truncates). -/

namespace Sys2Proof

/-- A lane number of VBCAST is at most 3 (30_encoding.md R129, R134). Every other field takes all the values of its type. -/
def Instr.wf : Instr → Bool
  | .nop => true
  | .endList => true
  | .vlih _ _ => true
  | .vlil _ _ => true
  | .vmov _ _ => true
  | .vbcast _ _ lane => lane.toNat < Config.lanes
  | .ldv _ _ => true
  | .stv _ _ => true
  | .crr _ _ => true
  | .crw _ _ => true
  | .fsin _ _ => true
  | .fcos _ _ => true
  | .flog _ _ => true
  | .fexp _ _ => true
  | .fpow _ _ _ => true
  | .fsel _ _ _ _ => true
  | .ffloor _ _ => true
  | .ffrexpm _ _ => true
  | .ffrexpe _ _ => true
  | .fldexp _ _ _ => true
  | .egtrig _ _ _ => true
  | .egoff _ _ => true
  | .egeval _ _ _ => true
  | .kclr => true
  | .krender _ => true

namespace Operand

/-! The assembler's checks of an operand written as a number (30_encoding.md R134). -/

/-- A register number is at most 15. -/
def vreg (n : Nat) : Option VReg := if n < Config.nVreg then some (BitVec.ofNat 4 n) else none
/-- A 16-bit immediate is at most 0xFFFF. -/
def imm16 (n : Nat) : Option (BitVec 16) := if n ≤ 0xFFFF then some (BitVec.ofNat 16 n) else none
/-- A control-register number is at most 0xFFF. -/
def cr (n : Nat) : Option (BitVec 12) := if n < Config.crSpace then some (BitVec.ofNat 12 n) else none
/-- A context number is at most 63. -/
def ctx (n : Nat) : Option Ctx := if n < Config.nEg then some (BitVec.ofNat 6 n) else none
/-- A lane number is at most 3. -/
def lane (n : Nat) : Option (BitVec 4) := if n < Config.lanes then some (BitVec.ofNat 4 n) else none
/-- A virtual-voice number is at most 15; 10 to 15 assemble and raise BAD_INDEX when they run (R128). -/
def vv (n : Nat) : Option (BitVec 4) := if n ≤ 15 then some (BitVec.ofNat 4 n) else none

end Operand

end Sys2Proof
end

