-- ==== Sys2Proof/Decode.lean ====
section
/-! DEFINITION. Command encoding (30_encoding.md): the field positions of R122 to R128, the opcode table of R130 as a list
of rows, the total decoder of R131, and after it the encoder written from the same table. -/

namespace Sys2Proof

/-! ## Fields (R121, R122, R125 to R128) -/

/-- Bits 31:26, the opcode. -/
def fieldOp (w : Word) : BitVec 6 := w.extractLsb' 26 6
/-- Bits 25:22. -/
def fieldD (w : Word) : BitVec 4 := w.extractLsb' 22 4
/-- Bits 21:18. -/
def fieldS1 (w : Word) : BitVec 4 := w.extractLsb' 18 4
/-- Bits 17:14. -/
def fieldS2 (w : Word) : BitVec 4 := w.extractLsb' 14 4
/-- Bits 13:10. -/
def fieldS3 (w : Word) : BitVec 4 := w.extractLsb' 10 4
/-- Bits 15:0. -/
def fieldImm (w : Word) : BitVec 16 := w.extractLsb' 0 16
/-- Bits 11:0. -/
def fieldCr (w : Word) : BitVec 12 := w.extractLsb' 0 12
/-- Bits 13:8. -/
def fieldCtx (w : Word) : BitVec 6 := w.extractLsb' 8 6

/-! ## The opcode table (R130) -/

/-- A row of R130: the opcode, the mnemonic, the word with every operand field 0, the bits that must equal it, and the
command its fields stand for. -/
structure OpRow where
  op : BitVec 6
  mnemonic : String
  pattern : Word
  mask : Word
  build : Word → Instr

/-- NOP to CRW (40_control_and_data_movement.md). -/
def opRowsMove : List OpRow := [
  ⟨0x01#6, "NOP", 0x04000000#32, 0xFFFFFFFF#32, fun _ => .nop⟩,
  ⟨0x02#6, "END", 0x08000000#32, 0xFFFFFFFF#32, fun _ => .endList⟩,
  ⟨0x04#6, "VLIH", 0x10000000#32, 0xFC3F0000#32, fun w => .vlih (fieldD w) (fieldImm w)⟩,
  ⟨0x05#6, "VLIL", 0x14000000#32, 0xFC3F0000#32, fun w => .vlil (fieldD w) (fieldImm w)⟩,
  ⟨0x06#6, "VMOV", 0x18000000#32, 0xFC03FFFF#32, fun w => .vmov (fieldD w) (fieldS1 w)⟩,
  ⟨0x07#6, "VBCAST", 0x1C000000#32, 0xFC033FFF#32, fun w => .vbcast (fieldD w) (fieldS1 w) (fieldS2 w)⟩,
  ⟨0x08#6, "LDV", 0x20000000#32, 0xFC3F0000#32, fun w => .ldv (fieldD w) (fieldImm w)⟩,
  ⟨0x09#6, "STV", 0x24000000#32, 0xFC3F0000#32, fun w => .stv (fieldD w) (fieldImm w)⟩,
  ⟨0x0A#6, "CRR", 0x28000000#32, 0xFC3FF000#32, fun w => .crr (fieldD w) (fieldCr w)⟩,
  ⟨0x0B#6, "CRW", 0x2C000000#32, 0xFC3FF000#32, fun w => .crw (fieldCr w) (fieldD w)⟩]

/-- FSIN to FLDEXP (41_fastmath.md). -/
def opRowsFmu : List OpRow := [
  ⟨0x10#6, "FSIN", 0x40000000#32, 0xFC03FFFF#32, fun w => .fsin (fieldD w) (fieldS1 w)⟩,
  ⟨0x11#6, "FCOS", 0x44000000#32, 0xFC03FFFF#32, fun w => .fcos (fieldD w) (fieldS1 w)⟩,
  ⟨0x12#6, "FLOG", 0x48000000#32, 0xFC03FFFF#32, fun w => .flog (fieldD w) (fieldS1 w)⟩,
  ⟨0x13#6, "FEXP", 0x4C000000#32, 0xFC03FFFF#32, fun w => .fexp (fieldD w) (fieldS1 w)⟩,
  ⟨0x14#6, "FPOW", 0x50000000#32, 0xFC003FFF#32, fun w => .fpow (fieldD w) (fieldS1 w) (fieldS2 w)⟩,
  ⟨0x15#6, "FSEL", 0x54000000#32, 0xFC0003FF#32, fun w => .fsel (fieldD w) (fieldS1 w) (fieldS2 w) (fieldS3 w)⟩,
  ⟨0x16#6, "FFLOOR", 0x58000000#32, 0xFC03FFFF#32, fun w => .ffloor (fieldD w) (fieldS1 w)⟩,
  ⟨0x17#6, "FFREXPM", 0x5C000000#32, 0xFC03FFFF#32, fun w => .ffrexpm (fieldD w) (fieldS1 w)⟩,
  ⟨0x18#6, "FFREXPE", 0x60000000#32, 0xFC03FFFF#32, fun w => .ffrexpe (fieldD w) (fieldS1 w)⟩,
  ⟨0x19#6, "FLDEXP", 0x64000000#32, 0xFC003FFF#32, fun w => .fldexp (fieldD w) (fieldS1 w) (fieldS2 w)⟩]

/-- EGTRIG to KRENDER (42_envelope.md, 43_synthesis_kernel.md). -/
def opRowsUnits : List OpRow := [
  ⟨0x20#6, "EGTRIG", 0x80000000#32, 0xFFC000FF#32, fun w => .egtrig (fieldCtx w) (fieldS1 w) (fieldS2 w)⟩,
  ⟨0x21#6, "EGOFF", 0x84000000#32, 0xFFC3C0FF#32, fun w => .egoff (fieldCtx w) (fieldS1 w)⟩,
  ⟨0x22#6, "EGEVAL", 0x88000000#32, 0xFC03C0FF#32, fun w => .egeval (fieldD w) (fieldCtx w) (fieldS1 w)⟩,
  ⟨0x28#6, "KCLR", 0xA0000000#32, 0xFFFFFFFF#32, fun _ => .kclr⟩,
  ⟨0x29#6, "KRENDER", 0xA4000000#32, 0xFC3FFFFF#32, fun w => .krender (fieldD w)⟩]

/-- The 25 rows of R130. -/
def opTable : List OpRow := opRowsMove ++ opRowsFmu ++ opRowsUnits

/-- The row of an opcode; none for the illegal opcodes of R130. -/
def rowOf (op : BitVec 6) : Option OpRow := opTable.find? (fun r => r.op == op)

/-! ## Decoding (R131) -/

/-- How decoding rejects a word (60_exceptions.md R330, causes 0x01 and 0x02). -/
inductive DecodeError where
  /-- Bits 31:26 are not one of the 25 opcodes. -/
  | illegalOpcode
  /-- A must-be-zero bit is 1; `bits` are the offending bits. -/
  | reservedField (bits : Word)
  deriving DecidableEq, Repr

/-- The must-be-zero bits of `w` that are 1, in the row of a command (R131). -/
def offendingBits (r : OpRow) (w : Word) : Word := w &&& r.mask &&& ~~~ r.pattern

/-- decode(w) of R131, total over all words. -/
def decode (w : Word) : Except DecodeError Instr :=
  match rowOf (fieldOp w) with
  | none => .error .illegalOpcode
  | some r => if w &&& r.mask = r.pattern then .ok (r.build w) else .error (.reservedField (offendingBits r w))

/-! ## Encoding -/

def putD (r : BitVec 4) : Word := r.setWidth 32 <<< 22
def putS1 (r : BitVec 4) : Word := r.setWidth 32 <<< 18
def putS2 (r : BitVec 4) : Word := r.setWidth 32 <<< 14
def putS3 (r : BitVec 4) : Word := r.setWidth 32 <<< 10
def putImm (v : BitVec 16) : Word := v.setWidth 32
def putCr (v : BitVec 12) : Word := v.setWidth 32
def putCtx (c : BitVec 6) : Word := c.setWidth 32 <<< 8

/-- The opcode of a command (R130). -/
def Instr.op : Instr → BitVec 6
  | .nop => 0x01#6
  | .endList => 0x02#6
  | .vlih _ _ => 0x04#6
  | .vlil _ _ => 0x05#6
  | .vmov _ _ => 0x06#6
  | .vbcast _ _ _ => 0x07#6
  | .ldv _ _ => 0x08#6
  | .stv _ _ => 0x09#6
  | .crr _ _ => 0x0A#6
  | .crw _ _ => 0x0B#6
  | .fsin _ _ => 0x10#6
  | .fcos _ _ => 0x11#6
  | .flog _ _ => 0x12#6
  | .fexp _ _ => 0x13#6
  | .fpow _ _ _ => 0x14#6
  | .fsel _ _ _ _ => 0x15#6
  | .ffloor _ _ => 0x16#6
  | .ffrexpm _ _ => 0x17#6
  | .ffrexpe _ _ => 0x18#6
  | .fldexp _ _ _ => 0x19#6
  | .egtrig _ _ _ => 0x20#6
  | .egoff _ _ => 0x21#6
  | .egeval _ _ _ => 0x22#6
  | .kclr => 0x28#6
  | .krender _ => 0x29#6

/-- The operand fields of a command at their places (R122 to R129, R133). -/
def operandBits : Instr → Word
  | .nop => 0#32
  | .endList => 0#32
  | .vlih d imm => putD d ||| putImm imm
  | .vlil d imm => putD d ||| putImm imm
  | .vmov d s1 => putD d ||| putS1 s1
  | .vbcast d s1 lane => putD d ||| putS1 s1 ||| putS2 lane
  | .ldv d addr => putD d ||| putImm addr
  | .stv src addr => putD src ||| putImm addr
  | .crr d cr => putD d ||| putCr cr
  | .crw cr src => putD src ||| putCr cr
  | .fsin d s1 => putD d ||| putS1 s1
  | .fcos d s1 => putD d ||| putS1 s1
  | .flog d s1 => putD d ||| putS1 s1
  | .fexp d s1 => putD d ||| putS1 s1
  | .fpow d base expo => putD d ||| putS1 base ||| putS2 expo
  | .fsel d mask a b => putD d ||| putS1 mask ||| putS2 a ||| putS3 b
  | .ffloor d s1 => putD d ||| putS1 s1
  | .ffrexpm d s1 => putD d ||| putS1 s1
  | .ffrexpe d s1 => putD d ||| putS1 s1
  | .fldexp d x n => putD d ||| putS1 x ||| putS2 n
  | .egtrig ctx time ac => putS1 time ||| putS2 ac ||| putCtx ctx
  | .egoff ctx time => putS1 time ||| putCtx ctx
  | .egeval d ctx time => putD d ||| putS1 time ||| putCtx ctx
  | .kclr => 0#32
  | .krender vv => putD vv

/-- The command word of an instruction: its opcode in bits 31:26 and its operand fields (R121 to R129). -/
def encode (i : Instr) : Word := i.op.setWidth 32 <<< 26 ||| operandBits i

/-- The decoder on a word given as the opcode table numbers its bits; ASC-1 has one length, 32 bits (R120). -/
def decodeTableWord (nbits w : Nat) : Option Instr := (decode (BitVec.ofNat 32 (w % 2 ^ nbits))).toOption

end Sys2Proof
end

