-- ==== Sys2Proof/Machine/State.lean ====
section
/-! DEFINITION. The state of ASC-1 as plain data (10_state.md, 20_memory.md R90 to R94), its value after reset
(70_reset_and_hazards.md R370 to R376), and the two ways a step of the model can stop. -/

namespace Sys2Proof.Machine

/-! ## Sequencer -/

/-- The fault causes that can be raised (60_exceptions.md R330); 0x0B and 0x0C to 0xFF are never raised. -/
inductive FaultCause where
  | illegalOpcode
  | reservedField
  | badAddress
  | misaligned
  | badCr
  | roWrite
  | badValue
  | badIndex
  | bufsizeUnset
  | cpOverrun
  deriving DecidableEq, Repr

/-- The run state of the sequencer (10_state.md R31); FAULTED carries the cause that STATUS.CAUSE shows (R36). -/
inductive RunState where
  | idle
  | running
  | faulted (cause : FaultCause)
  deriving DecidableEq, Repr

/-! ## Registers -/

/-- The four lanes of a vector register (10_state.md R33). -/
structure Lanes where
  l0 : Word
  l1 : Word
  l2 : Word
  l3 : Word
  deriving DecidableEq, Repr

/-- The kernel parameter registers (10_state.md R43), CR 0x020 to 0x02E in this order. -/
structure KernelParams where
  overtoneCount : Word
  sumStart : Word
  ampPowBase : Word
  ampIdxMul : Word
  hsIdxMul : Word
  hsOffset : Word
  hsExp : Word
  boostCenter : Word
  boostSharp : Word
  boostExp : Word
  boostDb : Word
  rmRate : Word
  rmDepth : Word
  rmPhaseOfs : Word
  stereoWidth : Word
  deriving DecidableEq, Repr

/-- The parameters of an envelope context (10_state.md R46), k = 0 to 7 in this order. -/
structure EgParams where
  attackLevel : Word
  attackSecs : Word
  attackPow : Word
  sustainLevel : Word
  decaySecs : Word
  decayPow : Word
  releaseSecs : Word
  releasePow : Word
  deriving DecidableEq, Repr

/-- The EnvelopeState registers of a context (10_state.md R48), k = 9 to 16 in this order, with TRIGGERED (R47). -/
structure EgState where
  triggered : Bool
  tTrigger : Word
  tZeroEnd : Word
  tAttackEnd : Word
  tDecayEnd : Word
  tRelease : Word
  tOffEnd : Word
  onLevel : Word
  offLevel : Word
  deriving DecidableEq, Repr

/-- An envelope context (10_state.md R45 to R48). -/
structure EgContext where
  params : EgParams
  autoRelease : Bool
  state : EgState
  deriving DecidableEq, Repr

/-! ## Memory -/

/-- A memory as bytes in the host port's numbering of its window (20_memory.md R97), addresses rising, nothing listed
that reads the same unlisted. Log 15. -/
abbrev Memory := List Host.Cell

/-! ## The host's moves (60_exceptions.md R350 to R352). Log 6. -/

/-- One move of the host, or its turn passed to the sequencer. -/
inductive HostMove where
  /-- The host does nothing: the sequencer has this step. -/
  | pass
  /-- RESET is asserted (70_reset_and_hazards.md R370). -/
  | reset
  /-- A read of `width` bytes at a port byte address. -/
  | read (addr : BitVec 19) (width : Nat)
  /-- A write of `width` bytes at a port byte address; `value` holds the 32 bits of a 4-byte write. -/
  | write (addr : BitVec 19) (width : Nat) (value : Word)
  deriving DecidableEq, Repr

/-! ## The machine -/

/-- Everything the spec gives ASC-1, and below it three fields of the model's own. -/
structure State where
  /-- 10_state.md R31; STATUS.RUN, STATUS.FAULT and STATUS.CAUSE (R36) are read off it. -/
  runState : RunState
  /-- STATUS.DONE (R36). -/
  done : Bool
  /-- The command pointer (R32). -/
  cp : BitVec 10
  /-- FAULT_CP (R37). -/
  faultCp : Word
  /-- FAULT_WORD (R37). -/
  faultWord : Word
  /-- FAULT_INFO (R37). -/
  faultInfo : Word
  /-- V0 to V15 (R33). -/
  vregs : Vector Lanes Config.nVreg
  /-- OVT_ITER_COUNT (R40). -/
  ovtIterCount : Word
  /-- RENDER_COUNT (R40). -/
  renderCount : Word
  /-- FASTPATH_COUNT (R40). -/
  fastpathCount : Word
  /-- SAMPLE_RATE (R41). -/
  sampleRate : Word
  /-- BUFSIZE (R42). -/
  bufSize : Word
  /-- The kernel parameters (R43). -/
  kernel : KernelParams
  /-- NOTE_FREQ[0..9] (R44). -/
  noteFreq : Vector Word Config.maxVV
  /-- The envelope contexts (R45). -/
  eg : Vector EgContext Config.nEg
  /-- Data memory (20_memory.md R90 to R94). -/
  dmem : Memory
  /-- Command RAM (20_memory.md R90). -/
  cmd : Memory
  /-- Model: how many resets came before; it selects the free contents after a reset. Log 8. -/
  epoch : Nat
  /-- Model: the host's moves still to come, oldest first. Log 6. -/
  inputs : List HostMove
  /-- Model: what the last host read returned. Log 7. -/
  portData : Word
  deriving DecidableEq, Repr

/-! ## How a step of the model can stop -/

/-- No step of ASC-1 stops with a fault of the model: the machine's own faults are next states (60_exceptions.md R333), and
every command has an effect for every operand (R330, R332). The type has no constructor. -/
inductive Fault where
  deriving DecidableEq, Repr

inductive Refusal where
  /-- Raised by an arm of exec that has no meaning yet; none has. Safe. -/
  | notModelled (mnemonic : String)
  /-- Raised by a host move: it reads or writes the DMEM, CMD or CR window while RUNNING, a breach of a host duty whose
  effect the spec leaves unspecified and which "a model gives ... no move, that is, refuses" (60_exceptions.md R356). Safe. -/
  | hostAccessWhileRunning
  /-- Raised by a host move: a port access that is not 32 bits wide at a multiple of 4 (20_memory.md R98, 60 R356). Safe. -/
  | hostAccessNotAligned32
  deriving DecidableEq, Repr

/-- What a step or a meaning answers. -/
abbrev Result := Host.Outcome State Fault Refusal

/-! ## Reset (70_reset_and_hazards.md R370 to R376) -/

/-- R43 and R373. -/
def KernelParams.reset : KernelParams where
  overtoneCount := 0x00000000#32
  sumStart := 0x00000001#32
  ampPowBase := 0x3F800000#32
  ampIdxMul := 0x3F800000#32
  hsIdxMul := 0x3F800000#32
  hsOffset := 0x00000000#32
  hsExp := 0x00000000#32
  boostCenter := 0x00000000#32
  boostSharp := 0x00000000#32
  boostExp := 0x3F800000#32
  boostDb := 0x00000000#32
  rmRate := 0x3F800000#32
  rmDepth := 0x00000000#32
  rmPhaseOfs := 0x00000000#32
  stereoWidth := 0x00000000#32

/-- R46. -/
def EgParams.reset : EgParams where
  attackLevel := 0x3F800000#32
  attackSecs := 0x00000000#32
  attackPow := 0x3F800000#32
  sustainLevel := 0x3F800000#32
  decaySecs := 0x00000000#32
  decayPow := 0x3F800000#32
  releaseSecs := 0x00000000#32
  releasePow := 0x3F800000#32

/-- R47, R48, R375. -/
def EgState.reset : EgState where
  triggered := false
  tTrigger := 0x00000000#32
  tZeroEnd := 0x00000000#32
  tAttackEnd := 0x00000000#32
  tDecayEnd := 0x00000000#32
  tRelease := 0x00000000#32
  tOffEnd := 0x00000000#32
  onLevel := 0x00000000#32
  offLevel := 0x00000000#32

/-- R46 to R48. -/
def EgContext.reset : EgContext where
  params := EgParams.reset
  autoRelease := false
  state := EgState.reset

/-- A vector register after the reset numbered `epoch`: the parameter V_INIT (R371, D59). Log 1. -/
def Lanes.init (epoch r : Nat) : Lanes where
  l0 := Config.vInit epoch r 0
  l1 := Config.vInit epoch r 1
  l2 := Config.vInit epoch r 2
  l3 := Config.vInit epoch r 3

/-- The state after the reset numbered `epoch`. -/
def State.resetAt (epoch : Nat) : State where
  runState := .idle
  done := false
  cp := 0#10
  faultCp := 0#32
  faultWord := 0#32
  faultInfo := 0#32
  vregs := #v[Lanes.init epoch 0, Lanes.init epoch 1, Lanes.init epoch 2, Lanes.init epoch 3,
    Lanes.init epoch 4, Lanes.init epoch 5, Lanes.init epoch 6, Lanes.init epoch 7,
    Lanes.init epoch 8, Lanes.init epoch 9, Lanes.init epoch 10, Lanes.init epoch 11,
    Lanes.init epoch 12, Lanes.init epoch 13, Lanes.init epoch 14, Lanes.init epoch 15]
  ovtIterCount := 0#32
  renderCount := 0#32
  fastpathCount := 0#32
  sampleRate := 0x472C4400#32
  bufSize := 0#32
  kernel := KernelParams.reset
  noteFreq := Vector.replicate Config.maxVV 0#32
  eg := Vector.replicate Config.nEg EgContext.reset
  dmem := []
  cmd := []
  epoch := epoch
  inputs := []
  portData := 0#32

/-- The machine right after reset (R370 to R376). -/
def State.reset : State := State.resetAt 0

end Sys2Proof.Machine
end

