-- ==== Sys2Proof/Machine/Ops.lean ====
section
/-! DEFINITION. The named operations every meaning goes through: the two memories and the words in them (20_memory.md), the
vector registers and envelope contexts (10_state.md), taking a fault (60_exceptions.md R333) and completing a command
(40_control_and_data_movement.md R150). ASC-1 has no return from a fault (60 R336): beside taking it stands reset alone. -/

namespace Sys2Proof.Machine

/-! ## The data-memory map (20_memory.md R91 to R94) -/

/-- The two memories: data memory and command RAM (R90). -/
inductive Space where
  | dmem
  | cmd
  deriving DecidableEq, Repr

/-- Word `a` of data memory lies in a reserved range: 0x1800 to 0x1FFF, the last quarter of a curve block, and 0xEEE0
upward (R91, R93). -/
def dmemReserved (a : Nat) : Bool :=
  (0x1800 ≤ a && a < 0x2000) || (0x2000 ≤ a && a < 0xC000 && 0xC00 ≤ a % 0x1000) || 0xEEE0 ≤ a

/-- Word `a` is an overtone-state word (R94). -/
def dmemIsOts (a : Nat) : Bool := 0xC000 ≤ a && a < 0xEEE0

/-- Word address of OUT[k] (R92): OUT[2n] is the left and OUT[2n+1] the right sample of frame n. -/
def outAddr (k : Nat) : Nat := 0x1000 + k
/-- Word address of BEND[v][n] (R93). -/
def bendAddr (v n : Nat) : Nat := 0x2000 + 0x1000 * v + n
/-- Word address of FCTL[v][n] (R93). -/
def fctlAddr (v n : Nat) : Nat := 0x2000 + 0x1000 * v + 0x400 + n
/-- Word address of VOL[v][n] (R93). -/
def volAddr (v n : Nat) : Nat := 0x2000 + 0x1000 * v + 0x800 + n
/-- Word address of OTS[v][i].ph (R94). -/
def phAddr (v i : Nat) : Nat := 0xC000 + 2 * (Config.maxOvertones * v + i)
/-- Word address of OTS[v][i].rm (R94). -/
def rmAddr (v i : Nat) : Nat := 0xC000 + 2 * (Config.maxOvertones * v + i) + 1

/-! ## Bytes -/

/-- What an unlisted byte reads as: the reset contents where the spec states them (OTS words are 0, 70 R372), and no value
of its own elsewhere, where the word keeps its free reset contents (log 2). -/
def Space.unlisted : Space → Nat → Option Byte
  | .dmem, a => if dmemIsOts (a / 4) then some 0#8 else none
  | .cmd, _ => none

/-- Byte `a` belongs to a word that is storage: outside the reserved ranges and inside the space (R90, R91). -/
def Space.holds : Space → Nat → Bool
  | .dmem, a => a / 4 < Config.dmemWords && !dmemReserved (a / 4)
  | .cmd, a => a / 4 < Config.cmdWords

/-- The byte listed at an address. -/
def Memory.listed : Memory → Nat → Option Byte
  | [], _ => none
  | (k, b) :: m, a => if k = a then some b else Memory.listed m a

/-- Lists a byte at its place in rising order, in place of an earlier one. -/
def Memory.enlist : Memory → Nat → Byte → Memory
  | [], a, b => [(a, b)]
  | (k, c) :: m, a, b =>
    if a < k then (a, b) :: (k, c) :: m
    else if a = k then (a, b) :: m
    else (k, c) :: Memory.enlist m a b

/-- Takes the entry of an address off the list. -/
def Memory.delist (m : Memory) (a : Nat) : Memory := m.filter (fun c => c.1 != a)

/-- What byte `a` reads as: the listed byte, else the unlisted value. -/
def Memory.read (sp : Space) (m : Memory) (a : Nat) : Option Byte :=
  match m.listed a with
  | some b => some b
  | none => sp.unlisted a

/-- Stores a byte, keeping the canonical form: a byte equal to the unlisted value is not listed. -/
def Memory.write (sp : Space) (m : Memory) (a : Nat) (b : Byte) : Memory :=
  if sp.unlisted a = some b then m.delist a else m.enlist a b

/-- The canonical form: addresses strictly rising, no entry equal to what its address reads as unlisted, every entry in
storage. -/
def Memory.wf (sp : Space) : Memory → Bool
  | [] => true
  | (k, b) :: m => m.all (fun c => k < c.1) && sp.unlisted k != some b && sp.holds k && Memory.wf sp m

/-! ## Words, little-endian in the port's byte numbering (R97) -/

/-- Byte `b` of a word: bits 8b+7 to 8b. -/
def byteOf (w : Word) (b : Nat) : Byte := w.extractLsb' (8 * b) 8

/-- The word of four bytes, byte 0 first. -/
def wordOf (b0 b1 b2 b3 : Byte) : Word := b3 ++ b2 ++ b1 ++ b0

/-- Stores word `a`. -/
def Memory.writeWord (sp : Space) (m : Memory) (a : Nat) (w : Word) : Memory :=
  Memory.write sp (Memory.write sp (Memory.write sp (Memory.write sp m (4 * a) (byteOf w 0))
    (4 * a + 1) (byteOf w 1)) (4 * a + 2) (byteOf w 2)) (4 * a + 3) (byteOf w 3)

/-- Byte `a` of data memory; a byte nothing has stored since reset is a byte of DMEM_INIT (70 R372). -/
def State.dmemByte (s : State) (a : Nat) : Byte :=
  match Memory.read .dmem s.dmem a with
  | some b => b
  | none => byteOf (Config.dmemInit s.epoch (a / 4)) (a % 4)

/-- Byte `a` of command RAM; a byte nothing has stored since reset is a byte of CMD_INIT (70 R372). -/
def State.cmdByte (s : State) (a : Nat) : Byte :=
  match Memory.read .cmd s.cmd a with
  | some b => b
  | none => byteOf (Config.cmdInit s.epoch (a / 4)) (a % 4)

/-- Word `a` of data memory. -/
def State.dmemWord (s : State) (a : Nat) : Word :=
  wordOf (s.dmemByte (4 * a)) (s.dmemByte (4 * a + 1)) (s.dmemByte (4 * a + 2)) (s.dmemByte (4 * a + 3))

/-- CMD[k] (00_scope.md R10). -/
def State.cmdWord (s : State) (k : Nat) : Word :=
  wordOf (s.cmdByte (4 * k)) (s.cmdByte (4 * k + 1)) (s.cmdByte (4 * k + 2)) (s.cmdByte (4 * k + 3))

/-- Stores word `a` of data memory. -/
def State.writeDmem (s : State) (a : Nat) (w : Word) : State := { s with dmem := Memory.writeWord .dmem s.dmem a w }

/-- Stores word `k` of command RAM; only the host can (20_memory.md R108). -/
def State.writeCmd (s : State) (k : Nat) (w : Word) : State := { s with cmd := Memory.writeWord .cmd s.cmd k w }

/-- MemRead(a, 4) (00_scope.md R10; 20_memory.md R96): lane l is the word at a + l. -/
def State.readVec (s : State) (a : Nat) : Lanes :=
  ⟨s.dmemWord a, s.dmemWord (a + 1), s.dmemWord (a + 2), s.dmemWord (a + 3)⟩

/-- MemWrite(a, 4, v) (00_scope.md R10; 20_memory.md R96). -/
def State.writeVec (s : State) (a : Nat) (v : Lanes) : State :=
  (((s.writeDmem a v.l0).writeDmem (a + 1) v.l1).writeDmem (a + 2) v.l2).writeDmem (a + 3) v.l3

/-! ## Vector registers (10_state.md R33) -/

theorem vreg_lt (r : VReg) : r.toNat < Config.nVreg := r.isLt
theorem ctx_lt (c : Ctx) : c.toNat < Config.nEg := c.isLt

/-- V[r]. -/
def State.getV (s : State) (r : VReg) : Lanes := s.vregs[r.toNat]'(vreg_lt r)

/-- V[r] <- v. -/
def State.setV (s : State) (r : VReg) (v : Lanes) : State := { s with vregs := s.vregs.set r.toNat v (vreg_lt r) }

/-- One word in every lane. -/
def Lanes.splat (w : Word) : Lanes := ⟨w, w, w, w⟩

/-- Lane l. -/
def Lanes.get (v : Lanes) (l : Fin Config.lanes) : Word :=
  match l with
  | 0 => v.l0
  | 1 => v.l1
  | 2 => v.l2
  | 3 => v.l3

/-- A function of one lane on every lane (41_fastmath.md R180: no cross-lane interaction). -/
def Lanes.map (f : Word → Word) (v : Lanes) : Lanes := ⟨f v.l0, f v.l1, f v.l2, f v.l3⟩

/-- A function of two lanes, lane by lane. -/
def Lanes.map2 (f : Word → Word → Word) (u v : Lanes) : Lanes :=
  ⟨f u.l0 v.l0, f u.l1 v.l1, f u.l2 v.l2, f u.l3 v.l3⟩

/-- A function of three lanes, lane by lane. -/
def Lanes.map3 (f : Word → Word → Word → Word) (u v w : Lanes) : Lanes :=
  ⟨f u.l0 v.l0 w.l0, f u.l1 v.l1 w.l1, f u.l2 v.l2 w.l2, f u.l3 v.l3 w.l3⟩

/-! ## Envelope contexts (10_state.md R45) -/

/-- The registers of context c. -/
def State.getEg (s : State) (c : Ctx) : EgContext := s.eg[c.toNat]'(ctx_lt c)

/-- Replaces the registers of context c. -/
def State.setEg (s : State) (c : Ctx) (e : EgContext) : State := { s with eg := s.eg.set c.toNat e (ctx_lt c) }

/-! ## Taking a fault, completing a command -/

/-- Fault entry (60_exceptions.md R333): the fault registers, STATUS and the run state; cp and DONE stay. -/
def State.takeFault (s : State) (cause : FaultCause) (w info : Word) : State :=
  { s with
    faultCp := s.cp.setWidth 32
    faultWord := w
    faultInfo := info
    runState := .faulted cause }

/-- The end of a command other than END (R150): cp moves on, and past index 1023 CP_OVERRUN is taken (60 R331). -/
def State.complete (s : State) : State :=
  if s.cp.toNat = Config.cmdWords - 1 then s.takeFault .cpOverrun 0#32 (BitVec.ofNat 32 Config.cmdWords)
  else { s with cp := s.cp + 1#10 }

/-- The fetch of R150: CMD[cp]. -/
def fetchWord (s : State) : Word := s.cmdWord s.cp.toNat

/-- The fault of a word that decoding rejects (30_encoding.md R131): FAULT_INFO is the word, or its offending bits. -/
def rejectWord (s : State) (w : Word) : DecodeError → State
  | .illegalOpcode => s.takeFault .illegalOpcode w w
  | .reservedField bits => s.takeFault .reservedField w bits

/-- A command that ran: its effect, then the end of the command. -/
def finish (s : State) : Result := .next s.complete

/-- raise Fault(cause, info) inside the command `i` (00_scope.md R10): nothing else of the command happens (60 R332). The
command word is the one word that decodes to `i` (log 9). -/
def raise (i : Instr) (s : State) (cause : FaultCause) (info : Word) : Result :=
  .next (s.takeFault cause (encode i) info)

end Sys2Proof.Machine
end

