-- ==== Sys2Proof/Machine/Flags.lean ====
section
/-! DEFINITION. ASC-1 has no condition flags (10_state.md R34). Its only flags are the fields of STATUS (R36) and the output
IRQ_OUT (60_exceptions.md R338), computed here. -/

namespace Sys2Proof.Machine

/-- The cause code of a fault (60_exceptions.md R330). -/
def FaultCause.code : FaultCause → BitVec 8
  | .illegalOpcode => 0x01#8
  | .reservedField => 0x02#8
  | .badAddress => 0x03#8
  | .misaligned => 0x04#8
  | .badCr => 0x05#8
  | .roWrite => 0x06#8
  | .badValue => 0x07#8
  | .badIndex => 0x08#8
  | .bufsizeUnset => 0x09#8
  | .cpOverrun => 0x0A#8

/-- STATUS.RUN. -/
def State.statusRun (s : State) : Bool := s.runState == .running

/-- STATUS.FAULT. -/
def State.statusFault (s : State) : Bool :=
  match s.runState with
  | .idle => false
  | .running => false
  | .faulted _ => true

/-- STATUS.CAUSE, 0 while FAULT = 0. -/
def State.statusCause (s : State) : BitVec 8 :=
  match s.runState with
  | .idle => 0#8
  | .running => 0#8
  | .faulted c => c.code

/-- The value of CR STATUS (10_state.md R36). -/
def State.status (s : State) : Word :=
  0#16 ++ s.statusCause ++ 0#5 ++ BitVec.ofBool s.statusFault ++ BitVec.ofBool s.done ++ BitVec.ofBool s.statusRun

/-- IRQ_OUT = STATUS.DONE OR STATUS.FAULT (60_exceptions.md R338). -/
def State.irqOut (s : State) : Bool := s.done || s.statusFault

end Sys2Proof.Machine
end

