-- ==== Sys2Proof/Machine/Operands.lean ====
section
/-! DEFINITION. The operand forms: immediates and lanes (30_encoding.md R129), the checked data-memory address of LDV and
STV (40_control_and_data_movement.md R157, R158), and the control-register map with its access types, reads and writes
(10_state.md R35 to R48). -/

namespace Sys2Proof.Machine

/-! ## Immediates and lanes (30_encoding.md R129) -/

/-- imm16 ‖ 0x0000 -/
def immHigh (imm : BitVec 16) : Word := imm ++ 0#16

/-- imm16 in bits 15:0 of a lane, bits 31:16 kept. -/
def immLow (imm : BitVec 16) (lane : Word) : Word := lane.extractLsb' 16 16 ++ imm

/-- The lane of a vector that a 4-bit field names, for a field of at most 3. -/
def laneOf (v : Lanes) (f : BitVec 4) : Word := v.get (Fin.ofNat Config.lanes f.toNat)

/-! ## Data-memory operands -/

/-- The fault of an LDV or STV word address, MISALIGNED before BAD_ADDRESS (R157, R158; 60_exceptions.md R334). -/
def addressFault (a : Nat) : Option FaultCause :=
  if a % Config.lanes ≠ 0 then some .misaligned
  else if dmemReserved a then some .badAddress
  else none

/-! ## Control registers (10_state.md R35 to R48) -/

/-- The control registers by name. -/
inductive CrName where
  | status
  | faultCp
  | faultWord
  | faultInfo
  | ovtIterCount
  | renderCount
  | fastpathCount
  | cpReg
  | implId
  | implParams
  | implParams2
  | sampleRate
  | bufSize
  /-- R43, in its order: 0 is OVERTONE_COUNT, 14 is STEREO_WIDTH. -/
  | kernel (k : Fin 15)
  | noteFreq (v : Fin Config.maxVV)
  /-- R46, k = 0 to 7. -/
  | egParam (c : Ctx) (k : Fin 8)
  | egFlags (c : Ctx)
  /-- R48, k = 9 to 16 counted from 0. -/
  | egState (c : Ctx) (k : Fin 8)
  deriving DecidableEq, Repr

/-- The registers below 0x020. -/
def crLow : Nat → Option CrName
  | 0x000 => some .status
  | 0x001 => some .faultCp
  | 0x002 => some .faultWord
  | 0x003 => some .faultInfo
  | 0x004 => some .ovtIterCount
  | 0x005 => some .renderCount
  | 0x006 => some .fastpathCount
  | 0x007 => some .cpReg
  | 0x008 => some .implId
  | 0x009 => some .implParams
  | 0x00A => some .implParams2
  | 0x010 => some .sampleRate
  | 0x011 => some .bufSize
  | _ => none

/-- Register k of envelope context c (R45 to R48). -/
def crEg (c : Ctx) (k : Nat) : Option CrName :=
  if h : k < 8 then some (.egParam c ⟨k, h⟩)
  else if k = 8 then some (.egFlags c)
  else if h : k - 9 < 8 then some (.egState c ⟨k - 9, h⟩)
  else none

/-- The register a CR number names; none for a reserved number (R35). -/
def crOf (n : BitVec 12) : Option CrName :=
  if n.toNat < 0x020 then crLow n.toNat
  else if h : n.toNat - 0x020 < 15 then some (.kernel ⟨n.toNat - 0x020, h⟩)
  else if n.toNat < 0x040 then none
  else if h : n.toNat - 0x040 < Config.maxVV then some (.noteFreq ⟨n.toNat - 0x040, h⟩)
  else if 0x100 ≤ n.toNat && n.toNat < 0x100 + 32 * Config.nEg then
    crEg (BitVec.ofNat 6 ((n.toNat - 0x100) / 32)) ((n.toNat - 0x100) % 32)
  else none

/-- The access types of R35 other than reserved. -/
inductive Access where
  | rw
  | ro
  | warl
  | legalOnly
  deriving DecidableEq, Repr

/-- The access type of a register (R36 to R48). -/
def CrName.access : CrName → Access
  | .status => .ro
  | .faultCp => .ro
  | .faultWord => .ro
  | .faultInfo => .ro
  | .ovtIterCount => .ro
  | .renderCount => .ro
  | .fastpathCount => .ro
  | .cpReg => .ro
  | .implId => .ro
  | .implParams => .ro
  | .implParams2 => .ro
  | .sampleRate => .rw
  | .bufSize => .legalOnly
  | .kernel _ => .rw
  | .noteFreq _ => .rw
  | .egParam _ _ => .rw
  | .egFlags _ => .warl
  | .egState _ _ => .ro

/-- Kernel parameter k (R43). -/
def kernelGet (p : KernelParams) (k : Fin 15) : Word :=
  match k with
  | 0 => p.overtoneCount
  | 1 => p.sumStart
  | 2 => p.ampPowBase
  | 3 => p.ampIdxMul
  | 4 => p.hsIdxMul
  | 5 => p.hsOffset
  | 6 => p.hsExp
  | 7 => p.boostCenter
  | 8 => p.boostSharp
  | 9 => p.boostExp
  | 10 => p.boostDb
  | 11 => p.rmRate
  | 12 => p.rmDepth
  | 13 => p.rmPhaseOfs
  | 14 => p.stereoWidth

/-- Stores kernel parameter k (R43). -/
def kernelSet (p : KernelParams) (k : Fin 15) (v : Word) : KernelParams :=
  match k with
  | 0 => { p with overtoneCount := v }
  | 1 => { p with sumStart := v }
  | 2 => { p with ampPowBase := v }
  | 3 => { p with ampIdxMul := v }
  | 4 => { p with hsIdxMul := v }
  | 5 => { p with hsOffset := v }
  | 6 => { p with hsExp := v }
  | 7 => { p with boostCenter := v }
  | 8 => { p with boostSharp := v }
  | 9 => { p with boostExp := v }
  | 10 => { p with boostDb := v }
  | 11 => { p with rmRate := v }
  | 12 => { p with rmDepth := v }
  | 13 => { p with rmPhaseOfs := v }
  | 14 => { p with stereoWidth := v }

/-- Envelope parameter k (R46). -/
def egParamGet (p : EgParams) (k : Fin 8) : Word :=
  match k with
  | 0 => p.attackLevel
  | 1 => p.attackSecs
  | 2 => p.attackPow
  | 3 => p.sustainLevel
  | 4 => p.decaySecs
  | 5 => p.decayPow
  | 6 => p.releaseSecs
  | 7 => p.releasePow

/-- Stores envelope parameter k (R46). -/
def egParamSet (p : EgParams) (k : Fin 8) (v : Word) : EgParams :=
  match k with
  | 0 => { p with attackLevel := v }
  | 1 => { p with attackSecs := v }
  | 2 => { p with attackPow := v }
  | 3 => { p with sustainLevel := v }
  | 4 => { p with decaySecs := v }
  | 5 => { p with decayPow := v }
  | 6 => { p with releaseSecs := v }
  | 7 => { p with releasePow := v }

/-- EnvelopeState register k, counted from k = 9 (R48). -/
def egStateGet (e : EgState) (k : Fin 8) : Word :=
  match k with
  | 0 => e.tTrigger
  | 1 => e.tZeroEnd
  | 2 => e.tAttackEnd
  | 3 => e.tDecayEnd
  | 4 => e.tRelease
  | 5 => e.tOffEnd
  | 6 => e.onLevel
  | 7 => e.offLevel

/-- EG_FLAGS (R47): AUTO_RELEASE in bit 0, TRIGGERED in bit 1, the rest 0. -/
def egFlagsWord (e : EgContext) : Word := 0#30 ++ BitVec.ofBool e.state.triggered ++ BitVec.ofBool e.autoRelease

/-- CR[n] of a named register. -/
def State.readCr (s : State) : CrName → Word
  | .status => s.status
  | .faultCp => s.faultCp
  | .faultWord => s.faultWord
  | .faultInfo => s.faultInfo
  | .ovtIterCount => s.ovtIterCount
  | .renderCount => s.renderCount
  | .fastpathCount => s.fastpathCount
  | .cpReg => s.cp.setWidth 32
  | .implId => Config.implId
  | .implParams => Config.implParams
  | .implParams2 => Config.implParams2
  | .sampleRate => s.sampleRate
  | .bufSize => s.bufSize
  | .kernel k => kernelGet s.kernel k
  | .noteFreq v => s.noteFreq[v.val]'(v.isLt)
  | .egParam c k => egParamGet (s.getEg c).params k
  | .egFlags c => egFlagsWord (s.getEg c)
  | .egState c k => egStateGet (s.getEg c).state k

/-- The legal values of BUFSIZE: the multiples of W from W to N_MAX (R42). -/
def bufSizeLegal (v : Word) : Bool := v.toNat % Config.lanes == 0 && Config.lanes ≤ v.toNat && v.toNat ≤ Config.nMax

/-- The store of a writable register: the value verbatim, but bit 0 alone into EG_FLAGS (R47, R160). A read-only
register keeps its value. -/
def State.storeCr (s : State) (r : CrName) (v : Word) : State :=
  match r with
  | .status => s
  | .faultCp => s
  | .faultWord => s
  | .faultInfo => s
  | .ovtIterCount => s
  | .renderCount => s
  | .fastpathCount => s
  | .cpReg => s
  | .implId => s
  | .implParams => s
  | .implParams2 => s
  | .sampleRate => { s with sampleRate := v }
  | .bufSize => { s with bufSize := v }
  | .kernel k => { s with kernel := kernelSet s.kernel k v }
  | .noteFreq i => { s with noteFreq := s.noteFreq.set i.val v i.isLt }
  | .egParam c k => s.setEg c { s.getEg c with params := egParamSet (s.getEg c).params k v }
  | .egFlags c => s.setEg c { s.getEg c with autoRelease := v.getLsbD 0 }
  | .egState _ _ => s

/-- The fault of a CRW of value v to register number n, if it raises one: the cause and FAULT_INFO, BAD_CR before RO_WRITE
before BAD_VALUE (R160; 60_exceptions.md R334). -/
def crwFault (n : BitVec 12) (v : Word) : Option (FaultCause × Word) :=
  match crOf n with
  | none => some (.badCr, n.setWidth 32)
  | some r =>
    match r.access with
    | .ro => some (.roWrite, n.setWidth 32)
    | .legalOnly => if bufSizeLegal v then none else some (.badValue, v)
    | .warl => none
    | .rw => none

end Sys2Proof.Machine
end

