-- ==== Sys2Proof/Machine/Control.lean ====
section
/-! DEFINITION. The sequencing commands NOP and END (40_control_and_data_movement.md R151, R152). -/

namespace Sys2Proof.Machine

/-- NOP (R151): no operation. -/
def execNop (s : State) : Result := finish s

/-- END (R152): RUNNING becomes IDLE, DONE is set, cp keeps the index of this END. -/
def execEnd (s : State) : Result := .next { s with runState := .idle, done := true }

end Sys2Proof.Machine
end

