-- ==== Sys2Proof/Machine/Float.lean ====
section
/-! DEFINITION. Binary32 arithmetic on raw words, as 00_scope.md R9 and R11 to R13 give it: every finite value is a whole
number of units of 2^-149, so each operation is computed exactly on integers and rounded once, to nearest with ties to even. -/

namespace Sys2Proof.Machine

/-! ## Fields of a lane read as f32 (R9) -/

/-- Bits 30:0, the magnitude bits. -/
def magBits (x : Word) : Nat := x.toNat % 2 ^ 31
/-- Bit 31. -/
def signBit (x : Word) : Bool := x.toNat / 2 ^ 31 == 1
/-- Bits 30:23, the biased exponent. -/
def expBits (x : Word) : Nat := magBits x / 2 ^ 23
def isNaN (x : Word) : Bool := 0x7F800000 < magBits x
def isInf (x : Word) : Bool := magBits x == 0x7F800000
def isFinite (x : Word) : Bool := magBits x < 0x7F800000
/-- A positive or negative zero. -/
def isZero (x : Word) : Bool := magBits x == 0

/-- A word from its sign and magnitude bits. -/
def packWord (sign : Bool) (m : Nat) : Word := BitVec.ofNat 32 (if sign then m + 2 ^ 31 else m)

/-- abs clears bit 31 (R13). -/
def fAbs (x : Word) : Word := x &&& 0x7FFFFFFF#32
/-- neg inverts bit 31 (R13). -/
def fNeg (x : Word) : Word := x ^^^ 0x80000000#32

/-! ## Exact value and rounding (R11) -/

/-- |x| in units of 2^-149, for a finite x. -/
def units (x : Word) : Nat :=
  if expBits x = 0 then magBits x % 2 ^ 23 else (2 ^ 23 + magBits x % 2 ^ 23) * 2 ^ (expBits x - 1)

/-- x in units of 2^-149, for a finite x. -/
def signedUnits (x : Word) : Int := if signBit x then -(units x : Int) else (units x : Int)

/-- How many low bits a quotient of units loses: its significand keeps 24 bits. -/
def roundShift (q : Nat) : Nat := Nat.log2 q - 23

/-- The quotient rounded to nearest, ties to even. -/
def divNearestEven (n d : Nat) : Nat :=
  if 2 * (n % d) > d || (2 * (n % d) == d && n / d % 2 == 1) then n / d + 1 else n / d

/-- The magnitude bits of num/den units of 2^-149, rounded once; a magnitude beyond the largest finite value gives infinity.
A significand of 24 bits and its exponent lie one above the other, so a carry out of the significand steps the exponent. -/
def roundUnits (num den : Nat) : Nat :=
  min (roundShift (num / den) * 2 ^ 23 + divNearestEven num (den * 2 ^ roundShift (num / den))) 0x7F800000

/-! ## NaN results: the bits are the model's reading, logs 3 and 4 -/

/-- What an operation with no NaN operand delivers where it is invalid (95_test_vectors.md 2.1 and 2.2: FSIN and FCOS of
+∞). DEDUCED, log 3. -/
def defaultNaN : Word := 0xFFC00000#32

/-- A NaN came in. If every NaN operand is the default one the result is the default one (FCOS of +∞ adds 1.0 to it;
DEDUCED, log 3); otherwise its bits are free, but for being those of a NaN (log 4). -/
def nanResult (op : ArithOp) (a b : Word) : Word :=
  if (isNaN a → a = defaultNaN) ∧ (isNaN b → b = defaultNaN) then defaultNaN
  else if isNaN (Config.nanBits op a b) then Config.nanBits op a b else defaultNaN

/-! ## The four operations (R11) -/

/-- The sum of two finite values; an exact zero is +0 unless both operands are −0. -/
def addFinite (a b : Word) : Word :=
  if signedUnits a + signedUnits b = 0 then packWord (signBit a && signBit b) 0
  else packWord (signedUnits a + signedUnits b < 0) (roundUnits (signedUnits a + signedUnits b).natAbs 1)

/-- The sum of two values that are not NaNs. -/
def addNumbers (a b : Word) : Word :=
  if isInf a then (if isInf b && signBit a != signBit b then defaultNaN else a)
  else if isInf b then b else addFinite a b

def fAdd (a b : Word) : Word :=
  if isNaN a || isNaN b then nanResult .add a b else addNumbers a b

def fSub (a b : Word) : Word :=
  if isNaN a || isNaN b then nanResult .sub a b else addNumbers a (fNeg b)

def fMul (a b : Word) : Word :=
  if isNaN a || isNaN b then nanResult .mul a b
  else if isInf a || isInf b then
    (if isZero a || isZero b then defaultNaN else packWord (signBit a != signBit b) 0x7F800000)
  else packWord (signBit a != signBit b) (roundUnits (units a * units b) (2 ^ 149))

def fDiv (a b : Word) : Word :=
  if isNaN a || isNaN b then nanResult .div a b
  else if isInf a then (if isInf b then defaultNaN else packWord (signBit a != signBit b) 0x7F800000)
  else if isInf b then packWord (signBit a != signBit b) 0
  else if isZero b then
    (if isZero a then defaultNaN else packWord (signBit a != signBit b) 0x7F800000)
  else packWord (signBit a != signBit b) (roundUnits (units a * 2 ^ 149) (units b))

/-! ## Comparison and selection (R12) -/

/-- The order of the values of two words that are not NaNs: the magnitude bits with the sign. -/
def orderKey (x : Word) : Int := if signBit x then -(magBits x : Int) else (magBits x : Int)

def fLt (a b : Word) : Bool := !isNaN a && !isNaN b && decide (orderKey a < orderKey b)
def fLe (a b : Word) : Bool := !isNaN a && !isNaN b && decide (orderKey a ≤ orderKey b)
def fGt (a b : Word) : Bool := fLt b a
def fGe (a b : Word) : Bool := fLe b a
def fEq (a b : Word) : Bool := !isNaN a && !isNaN b && decide (orderKey a = orderKey b)

/-- min(a, b) = (a < b) ? a : b -/
def fMin (a b : Word) : Word := if fLt a b then a else b
/-- max(a, b) = (a > b) ? a : b -/
def fMax (a b : Word) : Word := if fGt a b then a else b
/-- clamp(x, lo, hi) = min(max(x, lo), hi) -/
def fClamp (x lo hi : Word) : Word := fMin (fMax x lo) hi

/-! ## Conversions (R13, 41_fastmath.md R200) -/

/-- f32(i): the nearest binary32 value, ties to even; 0 gives +0. -/
def fOfInt (i : Int) : Word := packWord (i < 0) (roundUnits (i.natAbs * 2 ^ 149) 1)

/-- The integer part of a finite value, toward zero. -/
def truncInt (x : Word) : Int :=
  if signBit x then -((units x / 2 ^ 149 : Nat) : Int) else ((units x / 2 ^ 149 : Nat) : Int)

/-- trunc_s32(x): toward zero, saturating; a NaN gives −2^31. -/
def truncS32 (x : Word) : BitVec 32 :=
  if isNaN x then 0x80000000#32
  else if isInf x then (if signBit x then 0x80000000#32 else 0x7FFFFFFF#32)
  else if truncInt x < -2 ^ 31 then 0x80000000#32
  else if truncInt x ≥ 2 ^ 31 then 0x7FFFFFFF#32
  else BitVec.ofInt 32 (truncInt x)

/-- cvtt(y) (41_fastmath.md R200): toward zero; 0x80000000 for a NaN or any |y| ≥ 2^31. -/
def cvtt (y : Word) : BitVec 32 :=
  if !isFinite y then 0x80000000#32
  else if units y / 2 ^ 149 ≥ 2 ^ 31 then 0x80000000#32
  else BitVec.ofInt 32 (truncInt y)

/-- The floor of |x| or, for a negative x, its ceiling, in whole ones. -/
def floorMag (x : Word) : Nat :=
  if signBit x then (units x + (2 ^ 149 - 1)) / 2 ^ 149 else units x / 2 ^ 149

/-- floor(x), exact for a finite x; ±∞ and NaN return their own bits (R13; 41_fastmath.md R204). -/
def fFloor (x : Word) : Word :=
  if isFinite x then packWord (signBit x) (roundUnits (floorMag x * 2 ^ 149) 1) else x

end Sys2Proof.Machine
end

