-- ==== Sys2Proof/Machine/FastMath.lean ====
section
/-! DEFINITION. The functions of the FastMath unit on one lane (41_fastmath.md): the reference configuration of R195 to
R200, which is ASC-1's (R181) and takes its coefficients from Config (R195), fm_pow over any configuration (R188), and the exact bit operations of R203 to R207. -/

namespace Sys2Proof.Machine

/-- y × m + p, the multiply rounded and then the add rounded. -/
def mulAdd (y m p : Word) : Word := fAdd (fMul y m) p

/-- for p in ps: y <- y × m + p -/
def horner (m : Word) (y : Word) (ps : List Word) : Word := ps.foldl (fun y p => mulAdd y m p) y

/-! ## Sine and cosine (R196, R197) -/

/-- The cosine polynomial of `polys`, with z = a × a. -/
def polyCos (z : Word) : Word :=
  fAdd (fSub (fMul (fMul (mulAdd (mulAdd Config.FmCoef.c0 z Config.FmCoef.c1) z Config.FmCoef.c2) z) z) (fMul z Const.half)) Const.one

/-- The sine polynomial of `polys`, with z = a × a. -/
def polySin (a z : Word) : Word :=
  fAdd (fMul (fMul (mulAdd (mulAdd Config.FmCoef.s0 z Config.FmCoef.s1) z Config.FmCoef.s2) z) a) a

/-- j <- cvtt(a × FOPI); j <- (j + 1) & ~1 -/
def octant (a : Word) : BitVec 32 := (cvtt (fMul a Config.FmCoef.fopi) + 1#32) &&& ~~~ 1#32

/-- a <- ((a + y × DP1) + y × DP2) + y × DP3 -/
def reduceAngle (a y : Word) : Word :=
  fAdd (fAdd (fAdd a (fMul y Config.FmCoef.dp1)) (fMul y Config.FmCoef.dp2)) (fMul y Config.FmCoef.dp3)

/-- (yc, ys) <- polys(a); r <- usesin ? ys : yc -/
def polys (useSin : Bool) (a : Word) : Word := if useSin then polySin a (fMul a a) else polyCos (fMul a a)

/-- ref_sin once |x| and its octant j are known. -/
def refSinAt (sgn : Word) (a : Word) (j : BitVec 32) : Word :=
  polys (j &&& 2#32 == 0#32) (reduceAngle a (fOfInt j.toInt)) ^^^ (sgn ^^^ ((j &&& 4#32) <<< 29))

/-- R196. -/
def refSin (x : Word) : Word := refSinAt (x &&& 0x80000000#32) (fAbs x) (octant (fAbs x))

/-- ref_cos once |x| and its octant j are known. -/
def refCosAt (a : Word) (j : BitVec 32) : Word :=
  polys ((j - 2#32) &&& 2#32 == 0#32) (reduceAngle a (fOfInt j.toInt)) ^^^ ((~~~ (j - 2#32) &&& 4#32) <<< 29)

/-- R197. -/
def refCos (x : Word) : Word := refCosAt (fAbs x) (octant (fAbs x))

/-! ## Logarithm (R198) -/

/-- e <- f32(zext_32(b[30:23]) − 127) + 1.0 -/
def logExponent (b : Word) : Word := fAdd (fOfInt ((expBits b : Int) - 127)) Const.one

/-- m <- f32bits((b & 0x807FFFFF) | 0x3F000000) -/
def logMantissa (b : Word) : Word := (b &&& 0x807FFFFF#32) ||| 0x3F000000#32

/-- The polynomial part of ref_log and its recombination with the exponent, from the folded mantissa m and exponent e. -/
def logTail (m z e : Word) : Word :=
  fAdd (fAdd m (fSub (fAdd (fMul (fMul (horner m Config.FmCoef.lp0 Config.FmCoef.lpRest) m) z) (fMul e Config.FmCoef.q1)) (fMul z Const.half)))
    (fMul e Config.FmCoef.q2)

/-- The fold below √½: m − 1 + (lt ? m : 0), and e − (lt ? 1 : 0). -/
def logFold (m e : Word) : Word × Word :=
  if fLt m Config.FmCoef.sqrthf then (fAdd (fSub m Const.one) m, fSub e Const.one)
  else (fAdd (fSub m Const.one) Const.zero, fSub e Const.zero)

/-- ref_log of a word already clamped to FLT_MIN or above. -/
def refLogNormal (b : Word) : Word :=
  let me := logFold (logMantissa b) (logExponent b)
  logTail me.1 (fMul me.1 me.1) me.2

/-- R198. -/
def refLog (x : Word) : Word := refLogNormal (fMax x Const.fltMin)

/-! ## Exponential (R199, R207) -/

/-- The integer clamp of an s32 to lo and hi (R200). -/
def clampInt (k lo hi : Int) : Int := min (max k lo) hi

/-- f32bits((k + 127) << 23), for k in [−126, 127]. -/
def powerOfTwo (k : Int) : Word := BitVec.ofInt 32 (k + 127) <<< 23

/-- scale(v, k) (R199). -/
def scale (v : Word) (k : Int) : Word := fMul v (powerOfTwo (clampInt k (-126) 127))

/-- fx <- floor(x × LOG2EF + 0.5) -/
def expFx (x : Word) : Word := fFloor (fAdd (fMul x Config.FmCoef.log2ef) Const.half)

/-- g <- x − fx × Q2; g <- g − fx × Q1 -/
def expG (x fx : Word) : Word := fSub (fSub x (fMul fx Config.FmCoef.q2)) (fMul fx Config.FmCoef.q1)

/-- The polynomial of ref_exp: y × z + g + 1 with z = g × g. -/
def expPoly (g : Word) : Word :=
  fAdd (fAdd (fMul (horner g Config.FmCoef.ep0 Config.FmCoef.epRest) (fMul g g)) g) Const.one

/-- The two-step scaling by 2^n: n1 <- n >> 1; n2 <- n − n1; scale(scale(y, n1), n2). -/
def scaleTwice (y : Word) (n : BitVec 32) : Word :=
  scale (scale y (n.sshiftRight 1).toInt) (n - n.sshiftRight 1).toInt

/-- ref_exp inside its bounds, given fx. -/
def refExpAt (x fx : Word) : Word :=
  fMin (fMax (scaleTwice (expPoly (expG x fx)) (truncS32 fx)) Const.fltMin) Const.fltMax

/-- R199. -/
def refExp (x : Word) : Word :=
  if fGt x Config.expHi then Config.expOver
  else if fLt x Config.expFlushX then Config.expUnder
  else refExpAt x (expFx x)

/-- The FastMath configuration of ASC-1: the reference instantiation (R181, D57). Log 5. -/
def fastMath : FM where
  sin := refSin
  cos := refCos
  log := refLog
  exp := refExp

/-! ## Power (R188), over any configuration -/

/-- isInteger(e): e is finite and floor(e) == e. -/
def fIsInteger (e : Word) : Bool := isFinite e && fEq (fFloor e) e

/-- odd(e): an integer of magnitude below 2^24 whose truncation is odd. -/
def fIsOdd (e : Word) : Bool := fIsInteger e && fLt (fAbs e) Const.two24 && (truncS32 e).toNat % 2 == 1

/-- The sign policy of fm_pow on the result r of the exponential. -/
def powSign (b e r : Word) : Word :=
  if fLt b Const.zero then
    (if fIsInteger e then (if fIsOdd e then fNeg r else r) else Const.zero)
  else r

/-- fm_pow(b, e) (R188). -/
def fmPow (fm : FM) (b e : Word) : Word := powSign b e (fm.exp (fMul e (fm.log (fAbs b))))

/-! ## Bit operations -/

/-- FSEL on one lane (R203). -/
def selectBits (mask a b : Word) : Word := (mask &&& a) ||| (~~~ mask &&& b)

/-- FFREXPM on one lane (R205). -/
def frexpM (b : Word) : Word :=
  if expBits b == 0 || expBits b == 255 then b else (b &&& 0x807FFFFF#32) ||| (126#32 <<< 23)

/-- FFREXPE on one lane (R206). -/
def frexpE (b : Word) : Word :=
  if expBits b == 0 || expBits b == 255 then Const.zero else fOfInt ((expBits b : Int) - 126)

/-- FLDEXP on one lane (R207): n truncates by trunc_s32 of 00_scope.md R13. Log 17. -/
def ldexp (x n : Word) : Word := scale x (truncS32 n).toInt

end Sys2Proof.Machine
end

