-- ==== Sys2Proof/Machine/Envelope.lean ====
section
/-! DEFINITION. The envelope generator (42_envelope.md): the segment algebra and evaluation over any FastMath
configuration, trigger and off, and the commands EGTRIG, EGOFF and EGEVAL. -/

namespace Sys2Proof.Machine

/-! ## Segment algebra (R242 to R244) -/

/-- The progress of time t through the segment from a to e (R242). -/
def progress (t a e : Word) : Word :=
  if fGt e a then fClamp (fDiv (fSub t a) (fSub e a)) Const.zero Const.one
  else if fGe t e then Const.one else Const.zero

/-- The shaping curve of exponent x (R243). -/
def shape (fm : FM) (p x : Word) : Word :=
  if fLe p Const.zero then (if fGt x Const.zero then Const.zero else Const.one)
  else if fGe p Const.one then Const.one
  else fmPow fm p x

/-- A segment's value (R244). -/
def seg (fm : FM) (a b p x : Word) : Word := fAdd a (fMul (fSub b a) (shape fm p x))

/-! ## Evaluation (R245) -/

/-- The output of a triggered context at time t. -/
def egEvalTriggered (fm : FM) (p : EgParams) (e : EgState) (t : Word) : Word :=
  if fLt t e.tZeroEnd then seg fm e.onLevel Const.zero (progress t e.tTrigger e.tZeroEnd) Config.zeroPow
  else if fLt t e.tAttackEnd then seg fm Const.zero p.attackLevel (progress t e.tZeroEnd e.tAttackEnd) p.attackPow
  else if fLt t e.tDecayEnd then seg fm p.attackLevel p.sustainLevel (progress t e.tAttackEnd e.tDecayEnd) p.decayPow
  else if fLt t e.tRelease then p.sustainLevel
  else if fLt t e.tOffEnd then seg fm e.offLevel Const.zero (progress t e.tRelease e.tOffEnd) p.releasePow
  else Const.zero

/-- eval(c, t) (R245). -/
def egEval (fm : FM) (c : EgContext) (t : Word) : Word :=
  if c.state.triggered then egEvalTriggered fm c.params c.state t else Const.zero

/-! ## Off and trigger (R246 to R251) -/

/-- off(c, time) (R251): no effect on a context never triggered. -/
def egOff (fm : FM) (c : EgContext) (time : Word) : EgContext :=
  if c.state.triggered then
    { c with state :=
      { c.state with
        offLevel := egEval fm c time
        tZeroEnd := fMin c.state.tZeroEnd time
        tAttackEnd := fMin c.state.tAttackEnd time
        tDecayEnd := fMin c.state.tDecayEnd time
        tRelease := time
        tOffEnd := fAdd time c.params.releaseSecs } }
  else c

/-- The level a trigger captures (R246). -/
def trigLevel (fm : FM) (c : EgContext) (time : Word) : Word :=
  if c.state.triggered then egEval fm c time else Const.zero

/-- The end of the Zero window (R246, R247, R249). -/
def trigZeroEnd (fm : FM) (c : EgContext) (time anticlick : Word) : Word :=
  if c.state.triggered then fAdd time (fMul anticlick (fAbs (trigLevel fm c time))) else time

/-- The state registers after a trigger, before auto-release (R246, R248). -/
def trigState (fm : FM) (c : EgContext) (time anticlick : Word) : EgState where
  triggered := true
  tTrigger := time
  tZeroEnd := trigZeroEnd fm c time anticlick
  tAttackEnd := fAdd (trigZeroEnd fm c time anticlick) c.params.attackSecs
  tDecayEnd := fAdd (fAdd (trigZeroEnd fm c time anticlick) c.params.attackSecs) c.params.decaySecs
  tRelease := Const.posInf
  tOffEnd := Const.posInf
  onLevel := trigLevel fm c time
  offLevel := Const.zero

/-- trigger (R246), ending with off at the decay-end when AUTO_RELEASE is set (R250). -/
def egTrigger (fm : FM) (c : EgContext) (time anticlick : Word) : EgContext :=
  if c.autoRelease then
    egOff fm { c with state := trigState fm c time anticlick } (trigState fm c time anticlick).tDecayEnd
  else { c with state := trigState fm c time anticlick }

/-! ## Commands -/

/-- EGTRIG (R246): time and anticlick from lane 0 (R241). -/
def execEgtrig (ctx : Ctx) (time anticlick : VReg) (s : State) : Result :=
  finish (s.setEg ctx (egTrigger fastMath (s.getEg ctx) (s.getV time).l0 (s.getV anticlick).l0))

/-- EGOFF (R251): time from lane 0 (R241). -/
def execEgoff (ctx : Ctx) (time : VReg) (s : State) : Result :=
  finish (s.setEg ctx (egOff fastMath (s.getEg ctx) (s.getV time).l0))

/-- EGEVAL (R252): lane l at the time in lane l. -/
def execEgeval (d : VReg) (ctx : Ctx) (time : VReg) (s : State) : Result :=
  finish (s.setV d ((s.getV time).map (egEval fastMath (s.getEg ctx))))

end Sys2Proof.Machine
end

