-- ==== Sys2Proof/Machine/Fmu.lean ====
section
/-! DEFINITION. The FastMath commands (41_fastmath.md R190 to R194, R203 to R207): each a function of the lanes of its
sources, all read before the destination is written (R180), with the configuration of ASC-1 (R181). -/

namespace Sys2Proof.Machine

/-- A command of one source and a lane function. -/
def fmuUnary (f : Word → Word) (d s1 : VReg) (s : State) : Result :=
  finish (s.setV d ((s.getV s1).map f))

/-- A command of two sources and a lane function. -/
def fmuBinary (f : Word → Word → Word) (d s1 s2 : VReg) (s : State) : Result :=
  finish (s.setV d (Lanes.map2 f (s.getV s1) (s.getV s2)))

/-- FSIN (R190). -/
def execFsin (d s1 : VReg) (s : State) : Result := fmuUnary fastMath.sin d s1 s
/-- FCOS (R191). -/
def execFcos (d s1 : VReg) (s : State) : Result := fmuUnary fastMath.cos d s1 s
/-- FLOG (R192). -/
def execFlog (d s1 : VReg) (s : State) : Result := fmuUnary fastMath.log d s1 s
/-- FEXP (R193). -/
def execFexp (d s1 : VReg) (s : State) : Result := fmuUnary fastMath.exp d s1 s
/-- FPOW (R194). -/
def execFpow (d base expo : VReg) (s : State) : Result := fmuBinary (fmPow fastMath) d base expo s
/-- FSEL (R203). -/
def execFsel (d mask a b : VReg) (s : State) : Result :=
  finish (s.setV d (Lanes.map3 selectBits (s.getV mask) (s.getV a) (s.getV b)))
/-- FFLOOR (R204). -/
def execFfloor (d s1 : VReg) (s : State) : Result := fmuUnary fFloor d s1 s
/-- FFREXPM (R205). -/
def execFfrexpm (d s1 : VReg) (s : State) : Result := fmuUnary frexpM d s1 s
/-- FFREXPE (R206). -/
def execFfrexpe (d s1 : VReg) (s : State) : Result := fmuUnary frexpE d s1 s
/-- FLDEXP (R207). -/
def execFldexp (d x n : VReg) (s : State) : Result := fmuBinary ldexp d x n s

end Sys2Proof.Machine
end

