-- ==== Sys2Proof/Machine/Kernel.lean ====
section
/-! DEFINITION. The synthesis kernel (43_synthesis_kernel.md): KCLR and KRENDER, over any FastMath configuration, every
arithmetic step one binary32 operation in the order of R281. -/

namespace Sys2Proof.Machine

/-- N: the frames of a buffer. -/
def State.frames (s : State) : Nat := s.bufSize.toNat

/-! ## KCLR (R280) -/

/-- OUT[k] <- +0.0 for k in 0 .. m−1. -/
def clearOut : Nat → State → State
  | 0, s => s
  | m + 1, s => (clearOut m s).writeDmem (outAddr m) Const.zero

/-- KCLR (R280). -/
def execKclr (s : State) : Result :=
  if s.bufSize = 0#32 then raise .kclr s .bufsizeUnset 0#32
  else finish (clearOut (2 * s.frames) s)

/-! ## KRENDER: one sample (R284, R297 to R300) -/

/-- A frame of the buffer while a voice renders: its bent frequency, cutoff and volume, and the two samples of VB. -/
structure Frame where
  bent : Word
  fmax : Word
  vol : Word
  left : Word
  right : Word
  deriving DecidableEq, Repr

/-- What one KRENDER reads once (R283): the kernel parameters, SAMPLE_RATE, the boost gain G and the stereo offset wofs. -/
structure RenderScalars where
  k : KernelParams
  sr : Word
  gain : Word
  wofs : Word
  deriving DecidableEq, Repr

/-- A placed overtone: its harmonic scale h, power-law amplitude P and ring-mod offset theta. -/
structure Overtone where
  h : Word
  amp : Word
  theta : Word
  deriving DecidableEq, Repr

/-- fr <- bent[n] × h (R295). -/
def overtoneFreq (o : Overtone) (f : Frame) : Word := fMul f.bent o.h

/-- inc <- (TWO_PI × fr) / SR (R284). -/
def phaseInc (c : RenderScalars) (fr : Word) : Word := fDiv (fMul Const.twoPi fr) c.sr

/-- w of R297 at frequency fr. -/
def boostWindow (fm : FM) (c : RenderScalars) (fr : Word) : Word :=
  fmPow fm (fAdd Const.half (fMul Const.half (fm.cos (fMul Const.pi
    (fClamp (fMul (fSub fr c.k.boostCenter) c.k.boostSharp) Const.minusOne Const.one))))) c.k.boostExp

/-- s <- amp × fm_sin(acc), amp <- P + (G × w). -/
def rawSample (fm : FM) (c : RenderScalars) (o : Overtone) (fr acc : Word) : Word :=
  fMul (fAdd o.amp (fMul c.gain (boostWindow fm c fr))) (fm.sin acc)

/-- The ring-mod factor at angle ra (R299). -/
def ringFactor (fm : FM) (c : RenderScalars) (ra : Word) : Word :=
  fmPow fm (fAdd Const.half (fMul Const.half (fm.sin ra))) c.k.rmRate

/-- RM_DEPTH > 0 (R299). -/
def ringOn (c : RenderScalars) : Bool := fGt c.k.rmDepth Const.zero

/-- L (R299). -/
def leftSample (fm : FM) (c : RenderScalars) (o : Overtone) (fr acc racc : Word) : Word :=
  if ringOn c then fMul (rawSample fm c o fr acc) (ringFactor fm c (fAdd racc o.theta)) else rawSample fm c o fr acc

/-- R (R299): the left angle offset by wofs. -/
def rightSample (fm : FM) (c : RenderScalars) (o : Overtone) (fr acc racc : Word) : Word :=
  if ringOn c then fMul (rawSample fm c o fr acc) (ringFactor fm c (fAdd (fAdd racc o.theta) c.wofs))
  else rawSample fm c o fr acc

/-- audible <- (fr > 0.0) and (fr <= fmax[n]) (R298). -/
def audible (f : Frame) (fr : Word) : Bool := fGt fr Const.zero && fLe fr f.fmax

/-- A frame after one overtone's sample: L and R added when audible, +0.0 when not (R298). -/
def frameAfter (fm : FM) (c : RenderScalars) (o : Overtone) (f : Frame) (acc racc : Word) : Frame :=
  { f with
    left := fAdd f.left (if audible f (overtoneFreq o f) then leftSample fm c o (overtoneFreq o f) acc racc else Const.zero)
    right := fAdd f.right
      (if audible f (overtoneFreq o f) then rightSample fm c o (overtoneFreq o f) acc racc else Const.zero) }

/-- acc <- acc + inc, audible or not (R298, R300). -/
def accAfter (c : RenderScalars) (o : Overtone) (f : Frame) (acc : Word) : Word :=
  fAdd acc (phaseInc c (overtoneFreq o f))

/-- racc <- racc + (RMD × inc) when RM_DEPTH > 0, else it stands (R299). -/
def raccAfter (c : RenderScalars) (o : Overtone) (f : Frame) (racc : Word) : Word :=
  if ringOn c then fAdd racc (fMul c.k.rmDepth (phaseInc c (overtoneFreq o f))) else racc

/-! ## KRENDER: one overtone over all samples (R300, R301) -/

/-- The frames after an overtone, sample by sample in order (R300). -/
def framesAfter (fm : FM) (c : RenderScalars) (o : Overtone) : List Frame → Word → Word → List Frame
  | [], _, _ => []
  | f :: fs, acc, racc =>
    frameAfter fm c o f acc racc :: framesAfter fm c o fs (accAfter c o f acc) (raccAfter c o f racc)

/-- The phase accumulator after the last sample: the running sum of R300. -/
def accFinal (c : RenderScalars) (o : Overtone) : List Frame → Word → Word
  | [], acc => acc
  | f :: fs, acc => accFinal c o fs (accAfter c o f acc)

/-- The ring-mod accumulator after the last sample. -/
def raccFinal (c : RenderScalars) (o : Overtone) : List Frame → Word → Word
  | [], racc => racc
  | f :: fs, racc => raccFinal c o fs (raccAfter c o f racc)

/-- x − TWO_PI × floor(x / TWO_PI) -/
def wrapRaw (x : Word) : Word := fSub x (fMul Const.twoPi (fFloor (fDiv x Const.twoPi)))

/-- wrap(x) (R301): the guard sends whatever is not in [0, TWO_PI) to +0.0. -/
def wrapPhase (x : Word) : Word :=
  if fGe (wrapRaw x) Const.zero && fLt (wrapRaw x) Const.twoPi then wrapRaw x else Const.zero

/-- The overtone-state words of slot i after the overtone (R301). -/
def storeSlot (c : RenderScalars) (v i : Nat) (acc racc : Word) (s : State) : State :=
  if ringOn c then (s.writeDmem (phAddr v i) (wrapPhase acc)).writeDmem (rmAddr v i) (wrapPhase racc)
  else s.writeDmem (phAddr v i) (wrapPhase acc)

/-! ## KRENDER: the overtone loop (R294 to R296) -/

/-- j <- START + i, s32 with wrapping addition (R294). -/
def harmonicIndex (k : KernelParams) (i : Nat) : BitVec 32 := k.sumStart + BitVec.ofNat 32 i

/-- jf <- f32(j). -/
def harmonicF32 (k : KernelParams) (i : Nat) : Word := fOfInt (harmonicIndex k i).toInt

/-- h <- (HIM × jf) + HOF (R295). -/
def harmonicScale (k : KernelParams) (i : Nat) : Word := fAdd (fMul k.hsIdxMul (harmonicF32 k i)) k.hsOffset

/-- The overtone of iteration i (R295, R296, R299). -/
def overtoneAt (fm : FM) (k : KernelParams) (i : Nat) : Overtone where
  h := harmonicScale k i
  amp := fMul (fmPow fm k.ampPowBase (fMul k.ampIdxMul (harmonicF32 k i))) (fmPow fm (harmonicScale k i) k.hsExp)
  theta := fMul (fMul Const.twoPi k.rmPhaseOfs) (harmonicF32 k i)

/-- A placed overtone of voice v at slot i: the count, the samples, the slot (R281). -/
def placeOvertone (fm : FM) (c : RenderScalars) (v i : Nat) (fs : List Frame) (s : State) : List Frame × State :=
  (framesAfter fm c (overtoneAt fm c.k i) fs (s.dmemWord (phAddr v i)) (s.dmemWord (rmAddr v i)),
    storeSlot c v i (accFinal c (overtoneAt fm c.k i) fs (s.dmemWord (phAddr v i)))
      (raccFinal c (overtoneAt fm c.k i) fs (s.dmemWord (rmAddr v i)))
      { s with ovtIterCount := s.ovtIterCount + 1#32 })

/-- The overtone loop (R294) from iteration i with `left` iterations to MAX_OVERTONES and `placed` overtones placed. -/
def overtoneLoop (fm : FM) (c : RenderScalars) (v : Nat) :
    (left i : Nat) → (placed : BitVec 32) → List Frame → State → List Frame × State
  | 0, _, _, fs, s => (fs, s)
  | left + 1, i, placed, fs, s =>
    if placed.slt c.k.overtoneCount then
      if fGt (harmonicScale c.k i) Const.zero then
        overtoneLoop fm c v left (i + 1) (placed + 1#32)
          (placeOvertone fm c v i fs s).1 (placeOvertone fm c v i fs s).2
      else overtoneLoop fm c v left (i + 1) placed fs s
    else (fs, s)

/-! ## KRENDER: the buffer (R285 to R293, R302) -/

/-- bent[n] (R286). -/
def bentFreq (fm : FM) (noteFreq bend : Word) : Word := fMul noteFreq (fmPow fm Const.two (fDiv bend Const.twelve))

/-- noct (R291). -/
def nyquistOctaves (fm : FM) (sr : Word) : Word :=
  fDiv (fm.log (fDiv (fMul sr Const.half) Const.a440)) (fm.log Const.two)

/-- fmax[n] (R292). -/
def cutoffFreq (fm : FM) (noct fctl : Word) : Word :=
  fMul Const.a440 (fmPow fm Const.two (fAdd Const.minusFive (fMul fctl (fAdd noct Const.five))))

/-- G (R293). -/
def boostGain (fm : FM) (boostDb : Word) : Word := fSub (fm.exp (fMul boostDb Const.ln10Over20)) Const.one

/-- The scalars of one KRENDER (R283). -/
def renderScalars (fm : FM) (s : State) : RenderScalars where
  k := s.kernel
  sr := s.sampleRate
  gain := boostGain fm s.kernel.boostDb
  wofs := fMul Const.twoPi s.kernel.stereoWidth

/-- Frame n of voice v before the loop: the curves of R285, VB at +0.0 (R290). -/
def frameStart (fm : FM) (s : State) (v : Nat) (noteFreq noct : Word) (n : Nat) : Frame where
  bent := bentFreq fm noteFreq (s.dmemWord (bendAddr v n))
  fmax := cutoffFreq fm noct (s.dmemWord (fctlAddr v n))
  vol := s.dmemWord (volAddr v n)
  left := Const.zero
  right := Const.zero

/-- The frames of voice v before the loop. -/
def framesStart (fm : FM) (s : State) (v : Nat) (noteFreq : Word) : List Frame :=
  (List.range s.frames).map (frameStart fm s v noteFreq (nyquistOctaves fm s.sampleRate))

/-- OUT gains frame n of VB times its volume, left then right (R302). -/
def mixFrame (n : Nat) (f : Frame) (s : State) : State :=
  let s1 := s.writeDmem (outAddr (2 * n)) (fAdd (s.dmemWord (outAddr (2 * n))) (fMul f.left f.vol))
  s1.writeDmem (outAddr (2 * n + 1)) (fAdd (s1.dmemWord (outAddr (2 * n + 1))) (fMul f.right f.vol))

/-- The frames from n on mixed into OUT, in order (R302, R303). -/
def mixOut : Nat → List Frame → State → State
  | _, [], s => s
  | n, f :: fs, s => mixOut (n + 1) fs (mixFrame n f s)

/-- The silence test (R287). -/
def silent (s : State) (v : Nat) : Bool :=
  (List.range s.frames).all (fun n => fEq (s.dmemWord (volAddr v n)) Const.zero)

/-- Steps 4 to 6 of the source for voice v: the loop, then the mix. -/
def renderVoice (fm : FM) (v : Fin Config.maxVV) (s : State) : State :=
  let r := overtoneLoop fm (renderScalars fm s) v.val Config.maxOvertones 0 0#32
    (framesStart fm s v.val (s.noteFreq[v.val]'(v.isLt))) s
  mixOut 0 r.1 r.2

/-- KRENDER past its checks (R281): RENDER_COUNT, then the silence fast-path (R288) or the voice. -/
def krenderBody (fm : FM) (v : Fin Config.maxVV) (s : State) : State :=
  if silent s v.val then
    { s with renderCount := s.renderCount + 1#32, fastpathCount := s.fastpathCount + 1#32 }
  else renderVoice fm v { s with renderCount := s.renderCount + 1#32 }

/-- KRENDER (R281, R282). -/
def execKrender (vv : BitVec 4) (s : State) : Result :=
  if h : vv.toNat < Config.maxVV then
    if s.bufSize = 0#32 then raise (.krender vv) s .bufsizeUnset 0#32
    else finish (krenderBody fastMath ⟨vv.toNat, h⟩ s)
  else raise (.krender vv) s .badIndex (vv.setWidth 32)

end Sys2Proof.Machine
end

