-- ==== Sys2Proof/Machine/Move.lean ====
section
/-! DEFINITION. The data-movement commands (40_control_and_data_movement.md R153 to R160). -/

namespace Sys2Proof.Machine

/-- VLIH (R153). -/
def execVlih (d : VReg) (imm : BitVec 16) (s : State) : Result :=
  finish (s.setV d (Lanes.splat (immHigh imm)))

/-- VLIL (R154). -/
def execVlil (d : VReg) (imm : BitVec 16) (s : State) : Result :=
  finish (s.setV d ((s.getV d).map (immLow imm)))

/-- VMOV (R155). -/
def execVmov (d s1 : VReg) (s : State) : Result := finish (s.setV d (s.getV s1))

/-- VBCAST (R156). A lane field of 4 or more is RESERVED_FIELD; decoding raises it before this command runs (R129, R131),
so only an ill-formed term meets it here (log 10). -/
def execVbcast (d s1 : VReg) (lane : BitVec 4) (s : State) : Result :=
  if lane.toNat < Config.lanes then finish (s.setV d (Lanes.splat (laneOf (s.getV s1) lane)))
  else raise (.vbcast d s1 lane) s .reservedField (putS2 lane &&& 0x00030000#32)

/-- LDV (R157). -/
def execLdv (d : VReg) (addr : BitVec 16) (s : State) : Result :=
  match addressFault addr.toNat with
  | some cause => raise (.ldv d addr) s cause (addr.setWidth 32)
  | none => finish (s.setV d (s.readVec addr.toNat))

/-- STV (R158). -/
def execStv (src : VReg) (addr : BitVec 16) (s : State) : Result :=
  match addressFault addr.toNat with
  | some cause => raise (.stv src addr) s cause (addr.setWidth 32)
  | none => finish (s.writeVec addr.toNat (s.getV src))

/-- CRR (R159). -/
def execCrr (d : VReg) (cr : BitVec 12) (s : State) : Result :=
  match crOf cr with
  | none => raise (.crr d cr) s .badCr (cr.setWidth 32)
  | some r => finish (s.setV d (Lanes.splat (s.readCr r)))

/-- The effect of a CRW that raises no fault: the store into the register the number names. -/
def crwStore (s : State) (cr : BitVec 12) (v : Word) : State :=
  match crOf cr with
  | none => s
  | some r => s.storeCr r v

/-- CRW (R160); lane 0 alone is written. -/
def execCrw (cr : BitVec 12) (src : VReg) (s : State) : Result :=
  match crwFault cr (s.getV src).l0 with
  | some f => raise (.crw cr src) s f.1 f.2
  | none => finish (crwStore s cr (s.getV src).l0)

end Sys2Proof.Machine
end

