-- ==== Sys2Proof/Machine/Dispatch.lean ====
section
/-! DEFINITION. One arm per command: the execute(cmd) of 40_control_and_data_movement.md R150. -/

namespace Sys2Proof.Machine

def exec (i : Instr) (s : State) : Host.Outcome State Fault Refusal :=
  match i with
  | .nop => Sys2Proof.Machine.execNop s
  | .endList => Sys2Proof.Machine.execEnd s
  | .vlih d imm => Sys2Proof.Machine.execVlih d imm s
  | .vlil d imm => Sys2Proof.Machine.execVlil d imm s
  | .vmov d s1 => Sys2Proof.Machine.execVmov d s1 s
  | .vbcast d s1 lane => Sys2Proof.Machine.execVbcast d s1 lane s
  | .ldv d addr => Sys2Proof.Machine.execLdv d addr s
  | .stv src addr => Sys2Proof.Machine.execStv src addr s
  | .crr d cr => Sys2Proof.Machine.execCrr d cr s
  | .crw cr src => Sys2Proof.Machine.execCrw cr src s
  | .fsin d s1 => Sys2Proof.Machine.execFsin d s1 s
  | .fcos d s1 => Sys2Proof.Machine.execFcos d s1 s
  | .flog d s1 => Sys2Proof.Machine.execFlog d s1 s
  | .fexp d s1 => Sys2Proof.Machine.execFexp d s1 s
  | .fpow d base expo => Sys2Proof.Machine.execFpow d base expo s
  | .fsel d mask a b => Sys2Proof.Machine.execFsel d mask a b s
  | .ffloor d s1 => Sys2Proof.Machine.execFfloor d s1 s
  | .ffrexpm d s1 => Sys2Proof.Machine.execFfrexpm d s1 s
  | .ffrexpe d s1 => Sys2Proof.Machine.execFfrexpe d s1 s
  | .fldexp d x n => Sys2Proof.Machine.execFldexp d x n s
  | .egtrig ctx time ac => Sys2Proof.Machine.execEgtrig ctx time ac s
  | .egoff ctx time => Sys2Proof.Machine.execEgoff ctx time s
  | .egeval d ctx time => Sys2Proof.Machine.execEgeval d ctx time s
  | .kclr => Sys2Proof.Machine.execKclr s
  | .krender vv => Sys2Proof.Machine.execKrender vv s

end Sys2Proof.Machine
end

