-- ==== Sys2Proof/Machine/HostPort.lean ====
section
/-! DEFINITION. The host's moves (20_memory.md R103, R105; 60_exceptions.md R350 to R352, R356; 70_reset_and_hazards.md
R370): the port's windows, GO and RESET. -/

namespace Sys2Proof.Machine

/-! ## The windows of the port (20_memory.md R103) -/

/-- What a port byte address reaches. -/
inductive PortTarget where
  /-- A data-memory word. -/
  | dmem (a : Nat)
  /-- A command-RAM word. -/
  | cmd (k : Nat)
  /-- A control-register number. -/
  | cr (n : BitVec 12)
  | go
  | status
  | unmapped
  deriving DecidableEq, Repr

/-- Bytes in a word of a window (20_memory.md R97). -/
def portBytes : Nat := Config.laneBits / 8

/-- The map of R103. -/
def portTarget (addr : BitVec 19) : PortTarget :=
  if addr.toNat < portBytes * Config.dmemWords then .dmem (addr.toNat / portBytes)
  else if addr.toNat < 0x40000 + portBytes * Config.cmdWords then .cmd ((addr.toNat - 0x40000) / portBytes)
  else if 0x50000 ≤ addr.toNat && addr.toNat < 0x50000 + portBytes * Config.crSpace then
    .cr (BitVec.ofNat 12 ((addr.toNat - 0x50000) / portBytes))
  else if addr.toNat = 0x60000 then .go
  else if addr.toNat = 0x60004 then .status
  else .unmapped

/-- The DMEM, CMD and CR windows, which the host leaves alone while RUNNING (60_exceptions.md R356; log 13). -/
def PortTarget.inWindow : PortTarget → Bool
  | .dmem _ => true
  | .cmd _ => true
  | .cr _ => true
  | .go => false
  | .status => false
  | .unmapped => false

/-! ## Reads and writes (20_memory.md R103; 60_exceptions.md R352) -/

/-- What a host read returns: 0 from a reserved range, a reserved register, HOST_GO or an unmapped address. -/
def hostReadValue (s : State) : PortTarget → Word
  | .dmem a => if dmemReserved a then 0#32 else s.dmemWord a
  | .cmd k => s.cmdWord k
  | .cr n =>
    match crOf n with
    | none => 0#32
    | some r => s.readCr r
  | .go => 0#32
  | .status => s.status
  | .unmapped => 0#32

/-- GO (60_exceptions.md R351): IDLE becomes RUNNING at g[9:0]; no effect while RUNNING or FAULTED. -/
def hostGo (s : State) (g : Word) : State :=
  match s.runState with
  | .idle => { s with cp := g.extractLsb' 0 10, done := false, runState := .running }
  | .running => s
  | .faulted _ => s

/-- A host write: ignored where R352 says so, and where a CRW of the value would fault. -/
def hostWriteEffect (s : State) (v : Word) : PortTarget → State
  | .dmem a => if dmemReserved a then s else s.writeDmem a v
  | .cmd k => s.writeCmd k v
  | .cr n =>
    match crOf n with
    | none => s
    | some r => if (crwFault n v).isSome then s else s.storeCr r v
  | .go => hostGo s v
  | .status => s
  | .unmapped => s

/-- An access the host's duties allow (60_exceptions.md R356), or the refusal of one they do not. -/
def portAccess (s : State) (addr : BitVec 19) (width : Nat) (k : PortTarget → Result) : Result :=
  if width ≠ portBytes ∨ addr.toNat % portBytes ≠ 0 then .refused .hostAccessNotAligned32
  else if s.runState = .running ∧ (portTarget addr).inWindow then .refused .hostAccessWhileRunning
  else k (portTarget addr)

/-- RESET (70_reset_and_hazards.md R370): every piece of state takes its reset value, whatever the run state; the host's
later moves stay to come. Logs 8, 14. -/
def hostReset (s : State) : State := { State.resetAt (s.epoch + 1) with inputs := s.inputs }

/-- A host read, a host write. -/
def hostRead (s : State) (addr : BitVec 19) (width : Nat) : Result :=
  portAccess s addr width (fun t => .next { s with portData := hostReadValue s t })

def hostWrite (s : State) (addr : BitVec 19) (width : Nat) (v : Word) : Result :=
  portAccess s addr width (fun t => .next (hostWriteEffect s v t))

end Sys2Proof.Machine
end

