-- ==== Sys2Proof/Machine/Sequencer.lean ====
section
/-! DEFINITION. The sequencer's step (40_control_and_data_movement.md R150) and whose move a step is (log 6). -/

namespace Sys2Proof.Machine

/-- One command while RUNNING: fetch, decode, execute (R150). While IDLE or FAULTED nothing executes and all state is held
(10_state.md R31; 60_exceptions.md R333, R343; log 12). -/
def sequencerStep (s : State) : Result :=
  match s.runState with
  | .idle => .next s
  | .running =>
    match decode (fetchWord s) with
    | .error e => .next (rejectWord s (fetchWord s) e)
    | .ok i => exec i s
  | .faulted _ => .next s

/-- The host's move `m`, or the sequencer's step where the host passes. -/
def moveStep (m : HostMove) (s : State) : Result :=
  match m with
  | .pass => sequencerStep s
  | .reset => .next (hostReset s)
  | .read addr width => hostRead s addr width
  | .write addr width v => hostWrite s addr width v

/-- The next of the host's moves, the sequencer's step when none is left. -/
def stepBody (s : State) : Result :=
  match s.inputs with
  | [] => sequencerStep s
  | m :: rest => moveStep m { s with inputs := rest }

end Sys2Proof.Machine
end

