-- ==== Sys2Proof/Machine/Step.lean ====
section
/-! DEFINITION. One step of the machine, and the word a step fetches placed for it. -/

namespace Sys2Proof.Machine

/-- One step: the host's next move if it has one, else the sequencer's (70_reset_and_hazards.md R383: one command is one
atomic step). -/
def step (s : State) : Host.Outcome State Fault Refusal := stepBody s

/-- `s` about to run the word `w` (log 11): the word in CMD[cp], no host move before it, and the run state and DONE as a GO
leaves them. -/
def State.withFetchWord (s : State) (nbits w : Nat) : State :=
  { s.writeCmd s.cp.toNat (BitVec.ofNat 32 (w % 2 ^ nbits)) with
    runState := .running
    done := false
    inputs := [] }

end Sys2Proof.Machine
end

