-- ==== Sys2Proof/Machine/Assembler.lean ====
section
/-! DEFINITION. The assembler of 30_encoding.md: the syntax of R133, the operand checks and the pseudo-instructions of R134.
A line that does not assemble gives none. It is a tool beside the machine (92_eei_decisions.md D16); no step calls it. Log 16. -/

namespace Sys2Proof.Machine

/-! ## Pseudo-instructions (R134) -/

/-- VLI vd, imm32: VLIH of the high half, then VLIL of the low half unless that is 0. -/
def expandVli (d : VReg) (imm : Word) : List Instr :=
  if imm.extractLsb' 0 16 = 0#16 then [.vlih d (imm.extractLsb' 16 16)]
  else [.vlih d (imm.extractLsb' 16 16), .vlil d (imm.extractLsb' 0 16)]

/-- VZERO vd. -/
def expandVzero (d : VReg) : List Instr := [.vlih d 0#16]

/-- HALT. -/
def expandHalt : List Instr := [.endList]

namespace Asm

/-! ## Characters -/

/-- The pieces between the separators. -/
def splitAt (sep : Char) : List Char → List (List Char)
  | [] => [[]]
  | c :: cs =>
    match splitAt sep cs with
    | [] => [[c]]
    | p :: ps => if c = sep then [] :: p :: ps else (c :: p) :: ps

def isBlank (c : Char) : Bool := c == ' ' || c == '\t' || c == '\r'

/-- Without the blanks at both ends. -/
def trim (cs : List Char) : List Char := ((cs.dropWhile isBlank).reverse.dropWhile isBlank).reverse

/-- The line before its comment. -/
def code (line : String) : List Char := trim (line.toList.takeWhile (· ≠ '#'))

/-! ## Numbers -/

/-- The value of a digit in bases up to 16. -/
def digit (c : Char) : Option Nat :=
  if '0' ≤ c ∧ c ≤ '9' then some (c.toNat - 48)
  else if 'a' ≤ c ∧ c ≤ 'f' then some (c.toNat - 87)
  else if 'A' ≤ c ∧ c ≤ 'F' then some (c.toNat - 55)
  else none

/-- Digits of a base, after the value so far. -/
def digitsFrom (base : Nat) : Nat → List Char → Option Nat
  | v, [] => some v
  | v, c :: cs =>
    match digit c with
    | none => none
    | some k => if k < base then digitsFrom base (v * base + k) cs else none

/-- One digit or more; leading zeros count for nothing (log 16). -/
def digits (base : Nat) : List Char → Option Nat
  | [] => none
  | c :: cs => digitsFrom base 0 (c :: cs)

/-- A number, decimal or 0x hexadecimal. -/
def number : List Char → Option Nat
  | '0' :: 'x' :: cs => digits 16 cs
  | cs => digits 10 cs

/-- A decimal exponent with its sign. -/
def exponent : List Char → Option Int
  | '-' :: cs => (digits 10 cs).map (fun n => -(n : Int))
  | '+' :: cs => (digits 10 cs).map (fun n => (n : Int))
  | cs => (digits 10 cs).map (fun n => (n : Int))

/-- The magnitude bits of m × 10^e, rounded to nearest even. -/
def decimalBits (m : Nat) (e : Int) : Nat :=
  if e < 0 then roundUnits (m * 2 ^ 149) (10 ^ e.natAbs) else roundUnits (m * 10 ^ e.natAbs * 2 ^ 149) 1

/-- An unsigned decimal float: digits, an optional fraction, an optional exponent. -/
def floatMag (cs : List Char) : Option Nat :=
  match splitAt 'e' (cs.map (fun c => if c = 'E' then 'e' else c)) with
  | [body] => mantissa body 0
  | [body, ex] => (exponent ex).bind (mantissa body)
  | _ => none
where
  mantissa (body : List Char) (e : Int) : Option Nat :=
    match splitAt '.' body with
    | [whole] => (digits 10 whole).map (fun m => decimalBits m e)
    | [whole, frac] => (digits 10 (whole ++ frac)).map (fun m => decimalBits m (e - frac.length))
    | _ => none

/-- bits(f32 value) of a decimal float. -/
def float : List Char → Option Word
  | '-' :: cs => (floatMag cs).map (packWord true)
  | '+' :: cs => (floatMag cs).map (packWord false)
  | cs => (floatMag cs).map (packWord false)

/-! ## Operands -/

/-- v0 to v15 (R133). A leading zero in the number, as in v01, assembles: the rule does not say (log 16). -/
def vreg : List Char → Option VReg
  | 'v' :: cs => (digits 10 cs).bind Operand.vreg
  | _ => none

/-- The register names of 10_state.md R36 to R43. -/
def crNames : List (String × Nat) := [
  ("STATUS", 0x000), ("FAULT_CP", 0x001), ("FAULT_WORD", 0x002), ("FAULT_INFO", 0x003), ("OVT_ITER_COUNT", 0x004),
  ("RENDER_COUNT", 0x005), ("FASTPATH_COUNT", 0x006), ("CP_REG", 0x007), ("IMPL_ID", 0x008), ("IMPL_PARAMS", 0x009),
  ("IMPL_PARAMS2", 0x00A), ("SAMPLE_RATE", 0x010), ("BUFSIZE", 0x011)] ++ [
  ("OVERTONE_COUNT", 0x020), ("SUM_START", 0x021), ("AMP_POW_BASE", 0x022), ("AMP_IDX_MUL", 0x023), ("HS_IDX_MUL", 0x024),
  ("HS_OFFSET", 0x025), ("HS_EXP", 0x026), ("BOOST_CENTER", 0x027), ("BOOST_SHARP", 0x028), ("BOOST_EXP", 0x029),
  ("BOOST_DB", 0x02A), ("RM_RATE", 0x02B), ("RM_DEPTH", 0x02C), ("RM_PHASE_OFS", 0x02D), ("STEREO_WIDTH", 0x02E)] ++ [
  ("NOTE_FREQ[0]", 0x040), ("NOTE_FREQ[1]", 0x041), ("NOTE_FREQ[2]", 0x042), ("NOTE_FREQ[3]", 0x043), ("NOTE_FREQ[4]", 0x044),
  ("NOTE_FREQ[5]", 0x045), ("NOTE_FREQ[6]", 0x046), ("NOTE_FREQ[7]", 0x047), ("NOTE_FREQ[8]", 0x048), ("NOTE_FREQ[9]", 0x049)]

/-- The names of an envelope context's registers, R46 to R48, with their k. -/
def egNames : List (String × Nat) := [
  ("ATTACK_LEVEL", 0), ("ATTACK_SECS", 1), ("ATTACK_POW", 2), ("SUSTAIN_LEVEL", 3), ("DECAY_SECS", 4), ("DECAY_POW", 5),
  ("RELEASE_SECS", 6), ("RELEASE_POW", 7), ("EG_FLAGS", 8), ("T_TRIGGER", 9), ("T_ZERO_END", 10), ("T_ATTACK_END", 11),
  ("T_DECAY_END", 12), ("T_RELEASE", 13), ("T_OFF_END", 14), ("ON_LEVEL", 15), ("OFF_LEVEL", 16)]

def named (table : List (String × Nat)) (cs : List Char) : Option Nat :=
  (table.find? (fun r => r.1 == String.ofList cs)).map (·.2)

/-- EG<c>.<NAME> (R133). A leading zero in the context number, as in EG03, assembles: the rule does not say (log 16). -/
def egRegister (cs : List Char) : Option Nat :=
  match splitAt '.' cs with
  | ['E' :: 'G' :: c, name] =>
    (digits 10 c).bind fun c => (named egNames name).bind fun k => if c < Config.nEg then some (0x100 + 32 * c + k) else none
  | _ => none

/-- A CR operand: a number or a name. -/
def cr (cs : List Char) : Option (BitVec 12) :=
  ((number cs).orElse fun _ => (named crNames cs).orElse fun _ => egRegister cs).bind Operand.cr

def imm16 (cs : List Char) : Option (BitVec 16) := (number cs).bind Operand.imm16
def imm32 (cs : List Char) : Option Word := (number cs).bind fun n => if n ≤ 0xFFFFFFFF then some (BitVec.ofNat 32 n) else none
def ctx (cs : List Char) : Option Ctx := (number cs).bind Operand.ctx
def lane (cs : List Char) : Option (BitVec 4) := (number cs).bind Operand.lane
def vv (cs : List Char) : Option (BitVec 4) := (number cs).bind Operand.vv

/-! ## Commands -/

/-- Operand parsers: exactly so many operands, each of its kind. -/
def ops0 (is : List Instr) : List (List Char) → Option (List Instr)
  | [] => some is
  | _ => none

def ops1 {α : Type} (p : List Char → Option α) (f : α → List Instr) : List (List Char) → Option (List Instr)
  | [a] => (p a).map f
  | _ => none

def ops2 {α β : Type} (p : List Char → Option α) (q : List Char → Option β) (f : α → β → List Instr) :
    List (List Char) → Option (List Instr)
  | [a, b] => (p a).bind fun x => (q b).map (f x)
  | _ => none

def ops3 {α β γ : Type} (p : List Char → Option α) (q : List Char → Option β) (r : List Char → Option γ)
    (f : α → β → γ → List Instr) : List (List Char) → Option (List Instr)
  | [a, b, c] => (p a).bind fun x => (q b).bind fun y => (r c).map (f x y)
  | _ => none

def ops4 (f : VReg → VReg → VReg → VReg → List Instr) : List (List Char) → Option (List Instr)
  | [a, b, c, d] => (vreg a).bind fun w => (vreg b).bind fun x => (vreg c).bind fun y => (vreg d).map (f w x y)
  | _ => none

/-- A row of the syntax table: a mnemonic in capitals and its operands. -/
abbrev SyntaxRow := String × (List (List Char) → Option (List Instr))

/-- The operand table of R133. -/
def coreRows : List SyntaxRow := [
  ("NOP", ops0 [.nop]),
  ("END", ops0 [.endList]),
  ("KCLR", ops0 [.kclr]),
  ("VLIH", ops2 vreg imm16 fun d i => [.vlih d i]),
  ("VLIL", ops2 vreg imm16 fun d i => [.vlil d i]),
  ("LDV", ops2 vreg imm16 fun d i => [.ldv d i]),
  ("STV", ops2 vreg imm16 fun s i => [.stv s i]),
  ("VMOV", ops2 vreg vreg fun d s => [.vmov d s]),
  ("VBCAST", ops3 vreg vreg lane fun d s l => [.vbcast d s l]),
  ("CRR", ops2 vreg cr fun d n => [.crr d n]),
  ("CRW", ops2 cr vreg fun n s => [.crw n s])]

def fmuRows : List SyntaxRow := [
  ("FSIN", ops2 vreg vreg fun d s => [.fsin d s]),
  ("FCOS", ops2 vreg vreg fun d s => [.fcos d s]),
  ("FLOG", ops2 vreg vreg fun d s => [.flog d s]),
  ("FEXP", ops2 vreg vreg fun d s => [.fexp d s]),
  ("FFLOOR", ops2 vreg vreg fun d s => [.ffloor d s]),
  ("FFREXPM", ops2 vreg vreg fun d s => [.ffrexpm d s]),
  ("FFREXPE", ops2 vreg vreg fun d s => [.ffrexpe d s]),
  ("FPOW", ops3 vreg vreg vreg fun d b e => [.fpow d b e]),
  ("FLDEXP", ops3 vreg vreg vreg fun d x n => [.fldexp d x n]),
  ("FSEL", ops4 fun d m a b => [.fsel d m a b])]

def unitRows : List SyntaxRow := [
  ("EGTRIG", ops3 ctx vreg vreg fun c t a => [.egtrig c t a]),
  ("EGOFF", ops2 ctx vreg fun c t => [.egoff c t]),
  ("EGEVAL", ops3 vreg ctx vreg fun d c t => [.egeval d c t]),
  ("KRENDER", ops1 vv fun v => [.krender v])]

/-- The pseudo-instructions of R134. -/
def pseudoRows : List SyntaxRow := [
  ("VLI", ops2 vreg imm32 expandVli),
  ("VLF", ops2 vreg float expandVli),
  ("VZERO", ops1 vreg expandVzero),
  ("HALT", ops0 expandHalt)]

/-- A mnemonic in capitals with its operands. -/
def command (mnemonic : String) (ops : List (List Char)) : Option (List Instr) :=
  ((coreRows ++ fmuRows ++ unitRows ++ pseudoRows).find? (fun r => r.1 == mnemonic)).bind (fun r => r.2 ops)

/-- The operands: none, or the pieces between the commas. -/
def operands (cs : List Char) : List (List Char) := if cs = [] then [] else (splitAt ',' cs).map trim

/-- A line with its comment and outer blanks taken off. -/
def codeLine (cs : List Char) : Option (List Instr) :=
  if cs = [] then some []
  else command (String.ofList ((cs.takeWhile (fun c => !isBlank c)).map Char.toUpper))
    (operands (trim (cs.dropWhile (fun c => !isBlank c))))

/-- The commands of one line; a blank or comment line has none. -/
def line (l : String) : Option (List Instr) := codeLine (code l)

/-- The commands of a program's lines; none if a line does not assemble. -/
def program : List String → Option (List Instr)
  | [] => some []
  | l :: ls => (line l).bind fun is => (program ls).map fun rest => is ++ rest

end Asm

end Sys2Proof.Machine
end

