-- ==== Sys2Proof/Safety.lean ====
section
/-! DEFINITION. The terms the claims are stated in: what a command leaves alone, how a command ends, the map of control
registers as a relation, the accuracy contract of the FastMath configuration, rounding, the ordering of an envelope, the
range of the overtone phases, the closed form of KRENDER, and the invariant of the machine. No step calls them. -/

namespace Sys2Proof.Safety

open Sys2Proof.Machine

/-! ## What stays -/

/-- No vector register changes. -/
def SameV (s t : State) : Prop := ∀ r, t.getV r = s.getV r

/-- No vector register but `d` changes. -/
def SameVBut (d : VReg) (s t : State) : Prop := ∀ r, r ≠ d → t.getV r = s.getV r

/-- No envelope register changes. -/
def SameEg (s t : State) : Prop := ∀ c, t.getEg c = s.getEg c

/-- No register of an envelope context but `c` changes. -/
def SameEgBut (c : Ctx) (s t : State) : Prop := ∀ k, k ≠ c → t.getEg k = s.getEg k

/-- The event counters (10_state.md R40) stay. -/
def SameCounters (s t : State) : Prop :=
  t.ovtIterCount = s.ovtIterCount ∧ t.renderCount = s.renderCount ∧ t.fastpathCount = s.fastpathCount

/-- SAMPLE_RATE, BUFSIZE, the kernel parameters and NOTE_FREQ (10_state.md R41 to R44) stay. -/
def SameParams (s t : State) : Prop :=
  t.sampleRate = s.sampleRate ∧ t.bufSize = s.bufSize ∧ t.kernel = s.kernel ∧ t.noteFreq = s.noteFreq

/-- Every byte of data memory reads as before. -/
def SameDmem (s t : State) : Prop := ∀ a, t.dmemByte a = s.dmemByte a

/-- Every byte of a data-memory word outside `P` reads as before. -/
def SameDmemOutside (P : Nat → Prop) (s t : State) : Prop := ∀ a, ¬ P (a / 4) → t.dmemByte a = s.dmemByte a

/-- Every byte of command RAM reads as before. -/
def SameCmd (s t : State) : Prop := ∀ a, t.cmdByte a = s.cmdByte a

/-- The model's own fields stay. -/
def SameModel (s t : State) : Prop := t.epoch = s.epoch ∧ t.inputs = s.inputs ∧ t.portData = s.portData

/-- The fault registers (10_state.md R37) stay. -/
def SameFaultRegs (s t : State) : Prop :=
  t.faultCp = s.faultCp ∧ t.faultWord = s.faultWord ∧ t.faultInfo = s.faultInfo

/-! ## How a command ends -/

/-- The sequencer after a command other than END that raised no fault (40_control_and_data_movement.md R150): below index
1023 only cp moves, by one; at index 1023 CP_OVERRUN is taken (60_exceptions.md R331). -/
def Ended (s t : State) : Prop :=
  t.done = s.done ∧
  (s.cp.toNat < 1023 → t.cp.toNat = s.cp.toNat + 1 ∧ t.runState = s.runState ∧ SameFaultRegs s t) ∧
  (s.cp.toNat = 1023 → t.cp = s.cp ∧ t.runState = .faulted .cpOverrun ∧
    t.faultCp = 1023#32 ∧ t.faultWord = 0#32 ∧ t.faultInfo = 1024#32)

/-- A fault taken by the command word `w` and nothing else changed (60_exceptions.md R332, R333). -/
def Faulted (cause : FaultCause) (w info : Word) (s t : State) : Prop :=
  t = { s with runState := .faulted cause, faultCp := s.cp.setWidth 32, faultWord := w, faultInfo := info }

/-- The frame of a command that writes vector register `d` alone. -/
def WritesOnlyV (d : VReg) (s t : State) : Prop :=
  Ended s t ∧ SameVBut d s t ∧ SameEg s t ∧ SameCounters s t ∧ SameParams s t ∧ SameDmem s t ∧ SameCmd s t ∧ SameModel s t

/-- The frame of a command that writes envelope context `c` alone. -/
def WritesOnlyEg (c : Ctx) (s t : State) : Prop :=
  Ended s t ∧ SameV s t ∧ SameEgBut c s t ∧ SameCounters s t ∧ SameParams s t ∧ SameDmem s t ∧ SameCmd s t ∧ SameModel s t

/-- The frame of a command that writes data-memory words in `P` alone. -/
def WritesOnlyDmem (P : Nat → Prop) (s t : State) : Prop :=
  Ended s t ∧ SameV s t ∧ SameEg s t ∧ SameCounters s t ∧ SameParams s t ∧ SameDmemOutside P s t ∧ SameCmd s t ∧
    SameModel s t

/-! ## Encodings -/

/-- `s` is about to fetch and run the word `w`: RUNNING, the host passes, and CMD[cp] is `w`. -/
def Fetches (s : State) (w : Word) : Prop := s.runState = .running ∧ s.inputs = [] ∧ s.cmdWord s.cp.toNat = w

/-- A row of 30_encoding.md R130: the words whose masked bits equal `pattern` decode to `build` of the word, and a step that
fetches a word with the row's opcode and another masked bit takes RESERVED_FIELD with the offending bits (R131). -/
def EncodedBy (pattern mask : Word) (build : Word → Instr) : Prop :=
  (∀ w, w &&& mask = pattern → decode w = .ok (build w)) ∧
  (∀ s w, Fetches s w → w &&& 0xFC000000#32 = pattern &&& 0xFC000000#32 → w &&& mask ≠ pattern →
    ∃ t, step s = .next t ∧ Faulted .reservedField w (w &&& mask &&& ~~~ pattern) s t)

/-- The n bits of a word from bit lo up. -/
def field (w : Word) (lo n : Nat) : BitVec n := w.extractLsb' lo n

/-- Opcode, match and mask of the rows of 30_encoding.md R130. -/
def opcodeMap : List (Nat × Word × Word) := [
  (0x01, 0x04000000#32, 0xFFFFFFFF#32), (0x02, 0x08000000#32, 0xFFFFFFFF#32), (0x04, 0x10000000#32, 0xFC3F0000#32),
  (0x05, 0x14000000#32, 0xFC3F0000#32), (0x06, 0x18000000#32, 0xFC03FFFF#32), (0x07, 0x1C000000#32, 0xFC033FFF#32),
  (0x08, 0x20000000#32, 0xFC3F0000#32), (0x09, 0x24000000#32, 0xFC3F0000#32), (0x0A, 0x28000000#32, 0xFC3FF000#32),
  (0x0B, 0x2C000000#32, 0xFC3FF000#32), (0x10, 0x40000000#32, 0xFC03FFFF#32), (0x11, 0x44000000#32, 0xFC03FFFF#32),
  (0x12, 0x48000000#32, 0xFC03FFFF#32)] ++ [
  (0x13, 0x4C000000#32, 0xFC03FFFF#32), (0x14, 0x50000000#32, 0xFC003FFF#32), (0x15, 0x54000000#32, 0xFC0003FF#32),
  (0x16, 0x58000000#32, 0xFC03FFFF#32), (0x17, 0x5C000000#32, 0xFC03FFFF#32), (0x18, 0x60000000#32, 0xFC03FFFF#32),
  (0x19, 0x64000000#32, 0xFC003FFF#32), (0x20, 0x80000000#32, 0xFFC000FF#32), (0x21, 0x84000000#32, 0xFFC3C0FF#32),
  (0x22, 0x88000000#32, 0xFC03C0FF#32), (0x28, 0xA0000000#32, 0xFFFFFFFF#32), (0x29, 0xA4000000#32, 0xFC3FFFFF#32)]

/-- The opcodes of that map. -/
def legalOpcodes : List Nat := opcodeMap.map (·.1)

/-! ## Data memory -/

/-- The reserved ranges of data memory (20_memory.md R91, R93). -/
def Reserved (a : Nat) : Prop :=
  (0x1800 ≤ a ∧ a ≤ 0x1FFF) ∨
  (∃ v < 10, 0x2000 + 0x1000 * v + 0xC00 ≤ a ∧ a ≤ 0x2000 + 0x1000 * v + 0xFFF) ∨
  0xEEE0 ≤ a

/-! ## Control registers: number, access and value (10_state.md R36 to R48) -/

/-- Register number `n` has access `a` and reads `w` in state `s`. A number in no row is reserved (R35). -/
inductive CrRow (s : State) : Nat → Access → Word → Prop where
  | status : CrRow s 0x000 .ro s.status
  | faultCp : CrRow s 0x001 .ro s.faultCp
  | faultWord : CrRow s 0x002 .ro s.faultWord
  | faultInfo : CrRow s 0x003 .ro s.faultInfo
  | ovtIterCount : CrRow s 0x004 .ro s.ovtIterCount
  | renderCount : CrRow s 0x005 .ro s.renderCount
  | fastpathCount : CrRow s 0x006 .ro s.fastpathCount
  | cpReg : CrRow s 0x007 .ro (s.cp.setWidth 32)
  | implId : CrRow s 0x008 .ro 0x41534301#32
  | implParams : CrRow s 0x009 .ro 0x400A1004#32
  | implParams2 : CrRow s 0x00A .ro 0x04000258#32
  | sampleRate : CrRow s 0x010 .rw s.sampleRate
  | bufSize : CrRow s 0x011 .legalOnly s.bufSize
  | overtoneCount : CrRow s 0x020 .rw s.kernel.overtoneCount
  | sumStart : CrRow s 0x021 .rw s.kernel.sumStart
  | ampPowBase : CrRow s 0x022 .rw s.kernel.ampPowBase
  | ampIdxMul : CrRow s 0x023 .rw s.kernel.ampIdxMul
  | hsIdxMul : CrRow s 0x024 .rw s.kernel.hsIdxMul
  | hsOffset : CrRow s 0x025 .rw s.kernel.hsOffset
  | hsExp : CrRow s 0x026 .rw s.kernel.hsExp
  | boostCenter : CrRow s 0x027 .rw s.kernel.boostCenter
  | boostSharp : CrRow s 0x028 .rw s.kernel.boostSharp
  | boostExp : CrRow s 0x029 .rw s.kernel.boostExp
  | boostDb : CrRow s 0x02A .rw s.kernel.boostDb
  | rmRate : CrRow s 0x02B .rw s.kernel.rmRate
  | rmDepth : CrRow s 0x02C .rw s.kernel.rmDepth
  | rmPhaseOfs : CrRow s 0x02D .rw s.kernel.rmPhaseOfs
  | stereoWidth : CrRow s 0x02E .rw s.kernel.stereoWidth
  | noteFreq (v : Fin 10) : CrRow s (0x040 + v.val) .rw s.noteFreq[v.val]
  | attackLevel (c : Ctx) : CrRow s (0x100 + 32 * c.toNat + 0) .rw (s.getEg c).params.attackLevel
  | attackSecs (c : Ctx) : CrRow s (0x100 + 32 * c.toNat + 1) .rw (s.getEg c).params.attackSecs
  | attackPow (c : Ctx) : CrRow s (0x100 + 32 * c.toNat + 2) .rw (s.getEg c).params.attackPow
  | sustainLevel (c : Ctx) : CrRow s (0x100 + 32 * c.toNat + 3) .rw (s.getEg c).params.sustainLevel
  | decaySecs (c : Ctx) : CrRow s (0x100 + 32 * c.toNat + 4) .rw (s.getEg c).params.decaySecs
  | decayPow (c : Ctx) : CrRow s (0x100 + 32 * c.toNat + 5) .rw (s.getEg c).params.decayPow
  | releaseSecs (c : Ctx) : CrRow s (0x100 + 32 * c.toNat + 6) .rw (s.getEg c).params.releaseSecs
  | releasePow (c : Ctx) : CrRow s (0x100 + 32 * c.toNat + 7) .rw (s.getEg c).params.releasePow
  | egFlags (c : Ctx) : CrRow s (0x100 + 32 * c.toNat + 8) .warl
      (BitVec.ofNat 32 ((if (s.getEg c).autoRelease then 1 else 0) + (if (s.getEg c).state.triggered then 2 else 0)))
  | tTrigger (c : Ctx) : CrRow s (0x100 + 32 * c.toNat + 9) .ro (s.getEg c).state.tTrigger
  | tZeroEnd (c : Ctx) : CrRow s (0x100 + 32 * c.toNat + 10) .ro (s.getEg c).state.tZeroEnd
  | tAttackEnd (c : Ctx) : CrRow s (0x100 + 32 * c.toNat + 11) .ro (s.getEg c).state.tAttackEnd
  | tDecayEnd (c : Ctx) : CrRow s (0x100 + 32 * c.toNat + 12) .ro (s.getEg c).state.tDecayEnd
  | tRelease (c : Ctx) : CrRow s (0x100 + 32 * c.toNat + 13) .ro (s.getEg c).state.tRelease
  | tOffEnd (c : Ctx) : CrRow s (0x100 + 32 * c.toNat + 14) .ro (s.getEg c).state.tOffEnd
  | onLevel (c : Ctx) : CrRow s (0x100 + 32 * c.toNat + 15) .ro (s.getEg c).state.onLevel
  | offLevel (c : Ctx) : CrRow s (0x100 + 32 * c.toNat + 16) .ro (s.getEg c).state.offLevel

/-- The reserved register numbers (10_state.md R35, R43, R48). -/
def CrReserved (n : Nat) : Prop :=
  (0x00B ≤ n ∧ n ≤ 0x00F) ∨ (0x012 ≤ n ∧ n ≤ 0x01F) ∨ (0x02F ≤ n ∧ n ≤ 0x03F) ∨ (0x04A ≤ n ∧ n ≤ 0x0FF) ∨
  (0x100 ≤ n ∧ n ≤ 0x8FF ∧ 17 ≤ (n - 0x100) % 32) ∨ 0x900 ≤ n

/-- From 0x010 up every register but number `n` reads as before. -/
def SameCrBut (n : Nat) (s t : State) : Prop := ∀ m a w, 0x010 ≤ m → m ≠ n → (CrRow t m a w ↔ CrRow s m a w)

/-- The legal values of BUFSIZE (10_state.md R42). -/
def LegalBufSize (v : Word) : Prop := v.toNat % 4 = 0 ∧ 4 ≤ v.toNat ∧ v.toNat ≤ 1024

/-! ## Reset -/

/-- The values that reset gives (70_reset_and_hazards.md R372 to R375; 10_state.md R43, R46). -/
def ResetValues (t : State) : Prop :=
  t.runState = .idle ∧ t.cp = 0#10 ∧ t.irqOut = false ∧
  (∀ a w, CrRow t 0x000 a w → w = 0x00000000#32) ∧
  (∀ n a w, CrRow t n a w → 0x001 ≤ n → n ≤ 0x007 → w = 0x00000000#32) ∧
  CrRow t 0x008 .ro 0x41534301#32 ∧ CrRow t 0x009 .ro 0x400A1004#32 ∧ CrRow t 0x00A .ro 0x04000258#32 ∧
  CrRow t 0x010 .rw 0x472C4400#32 ∧ CrRow t 0x011 .legalOnly 0x00000000#32 ∧
  CrRow t 0x020 .rw 0x00000000#32 ∧ CrRow t 0x021 .rw 0x00000001#32 ∧ CrRow t 0x022 .rw 0x3F800000#32 ∧
  CrRow t 0x023 .rw 0x3F800000#32 ∧ CrRow t 0x024 .rw 0x3F800000#32 ∧ CrRow t 0x025 .rw 0x00000000#32 ∧
  CrRow t 0x026 .rw 0x00000000#32 ∧ CrRow t 0x027 .rw 0x00000000#32 ∧ CrRow t 0x028 .rw 0x00000000#32 ∧
  CrRow t 0x029 .rw 0x3F800000#32 ∧ CrRow t 0x02A .rw 0x00000000#32 ∧ CrRow t 0x02B .rw 0x3F800000#32 ∧
  CrRow t 0x02C .rw 0x00000000#32 ∧ CrRow t 0x02D .rw 0x00000000#32 ∧ CrRow t 0x02E .rw 0x00000000#32 ∧
  (∀ v < 10, CrRow t (0x040 + v) .rw 0x00000000#32) ∧
  (∀ c < 64, ∀ k ∈ [0, 2, 3, 5, 7], CrRow t (0x100 + 32 * c + k) .rw 0x3F800000#32) ∧
  (∀ c < 64, ∀ k ∈ [1, 4, 6], CrRow t (0x100 + 32 * c + k) .rw 0x00000000#32) ∧
  (∀ c < 64, CrRow t (0x100 + 32 * c + 8) .warl 0x00000000#32) ∧
  (∀ c < 64, ∀ k < 8, CrRow t (0x100 + 32 * c + 9 + k) .ro 0x00000000#32) ∧
  (∀ c, (t.getEg c).state.triggered = false) ∧
  (∀ a, 0xC000 ≤ a → a ≤ 0xEEDF → t.dmemWord a = 0x00000000#32)

/-! ## Lists of commands -/

/-- The commands of a list, one after another. -/
def execAll : List Instr → State → Result
  | [], s => .next s
  | i :: is, s =>
    match exec i s with
    | .next t => execAll is t
    | .fault r => .fault r
    | .refused r => .refused r

/-! ## Binary32 values -/

/-- The value of magnitude bits below those of infinity, in units of 2^-149 (00_scope.md R9). -/
def magUnits (k : Nat) : Nat := if k < 2 ^ 23 then k else (2 ^ 23 + k % 2 ^ 23) * 2 ^ (k / 2 ^ 23 - 1)

/-- How far two naturals lie apart. -/
def gap (a b : Nat) : Nat := max a b - min a b

/-- `m` are the magnitude bits of num/den units of 2^-149 rounded to nearest, ties to even: no finite value is nearer, of two
as near the even one is taken, and from half a unit in the last place above the largest finite value on it is infinity
(00_scope.md R11). -/
def RoundsTo (num den m : Nat) : Prop :=
  m ≤ 0x7F800000 ∧
  (m = 0x7F800000 ↔ (2 ^ 25 - 1) * 2 ^ 252 * den ≤ num) ∧
  (m < 0x7F800000 → ∀ k < 0x7F800000, gap (magUnits m * den) num ≤ gap (magUnits k * den) num ∧
    (gap (magUnits m * den) num = gap (magUnits k * den) num → k ≠ m → m % 2 = 0))

/-- The value of a word that is no NaN on one scale, in units of 2^-149; ±∞ stand beyond every finite value. -/
def extUnits (x : Word) : Int :=
  if isInf x then (if signBit x then -(2 ^ 277 : Int) else 2 ^ 277)
  else (if signBit x then -(magUnits (magBits x) : Int) else (magUnits (magBits x) : Int))

/-- The real value of a finite word. -/
noncomputable def value (x : Word) : ℝ := (extUnits x : ℝ) / 2 ^ 149

/-! ## The FastMath contract (41_fastmath.md R182 to R187) -/

/-- What every FastMath configuration meets, for the accuracy bound `eps` and the trigonometric domain `dom`. -/
structure Contract (eps dom : ℝ) (fm : FM) : Prop where
  /-- R182. -/
  sinNear : ∀ x, isFinite x → |value x| ≤ dom → isFinite (fm.sin x) ∧ |value (fm.sin x) - Real.sin (value x)| ≤ eps
  cosNear : ∀ x, isFinite x → |value x| ≤ dom → isFinite (fm.cos x) ∧ |value (fm.cos x) - Real.cos (value x)| ≤ eps
  /-- R183. -/
  logNear : ∀ x, fLe Const.fltMin x → fLe x Const.fltMax →
    isFinite (fm.log x) ∧ |value (fm.log x) - Real.log (value x)| ≤ eps * max 1 |Real.log (value x)|
  logSentinel : ∀ x, fLe x Const.zero ∨ (fLt Const.zero x ∧ fLt x Const.fltMin) → fm.log x = Config.logSentinel
  /-- R184. -/
  expNear : ∀ x, fLe Config.expFlushX x → fLe x Config.expHi →
    |value (fm.exp x) - min (max (Real.exp (value x)) (value Config.expUnder)) (value Config.expOver)| ≤
      eps * min (max (Real.exp (value x)) (value Config.expUnder)) (value Config.expOver)
  expOver : ∀ x, fGt x Config.expHi → fm.exp x = Config.expOver
  expUnder : ∀ x, fLt x Config.expFlushX → fm.exp x = Config.expUnder
  expRange : ∀ x, isNaN x = false → fLe Config.expUnder (fm.exp x) ∧ fLe (fm.exp x) Config.expOver
  /-- R185. -/
  sinZero : fm.sin 0x00000000#32 = 0x00000000#32 ∧ fm.sin 0x80000000#32 = 0x80000000#32
  cosZero : fm.cos 0x00000000#32 = 0x3F800000#32 ∧ fm.cos 0x80000000#32 = 0x3F800000#32
  logOne : fm.log 0x3F800000#32 = 0x00000000#32
  expZero : fm.exp 0x00000000#32 = 0x3F800000#32 ∧ fm.exp 0x80000000#32 = 0x3F800000#32
  /-- R187. -/
  powExact : fmPow fm 0x40000000#32 0xBF800000#32 = 0x3F000000#32 ∧ fmPow fm 0x40000000#32 0x00000000#32 = 0x3F800000#32 ∧
    fmPow fm 0x40000000#32 0x3F800000#32 = 0x40000000#32 ∧ fmPow fm 0x40000000#32 0x40000000#32 = 0x40800000#32 ∧
    fmPow fm 0xC0000000#32 0x40400000#32 = 0xC1000000#32

/-- The contract with the bounds of ASC-1 (00_scope.md R6). -/
def AscContract (fm : FM) : Prop := Contract (Config.epsFm : ℝ) (Config.trigDomain : ℝ) fm

/-! ## Envelopes -/

/-- trigger ≤ zero-end ≤ attack-end ≤ decay-end ≤ release ≤ off-end (42_envelope.md R254). -/
def EgInOrder (e : EgState) : Prop :=
  fLe e.tTrigger e.tZeroEnd ∧ fLe e.tZeroEnd e.tAttackEnd ∧ fLe e.tAttackEnd e.tDecayEnd ∧ fLe e.tDecayEnd e.tRelease ∧
    fLe e.tRelease e.tOffEnd

/-- A duration the host's duties allow: finite and not negative (60_exceptions.md R357). -/
def Duration (x : Word) : Prop := isFinite x ∧ fGe x Const.zero

/-! ## Overtone phases -/

/-- A value in [0, TWO_PI) (10_state.md R60). -/
def PhaseInRange (w : Word) : Prop := fLe Const.zero w ∧ fLt w Const.twoPi

/-- Every overtone-state word of the machine is in [0, TWO_PI). -/
def OtsInRange (s : State) : Prop := ∀ v < 10, ∀ i < 600, PhaseInRange (s.dmemWord (0xC000 + 2 * (600 * v + i))) ∧
  PhaseInRange (s.dmemWord (0xC000 + 2 * (600 * v + i) + 1))

/-! ## KRENDER in closed form (43_synthesis_kernel.md R281) -/

namespace Kr

variable (s : State) (v : Fin 10)

/-- BEND[n], FCTL[n], VOL[n] (R285). -/
def bend (n : Nat) : Word := s.dmemWord (0x2000 + 0x1000 * v.val + n)
def fctl (n : Nat) : Word := s.dmemWord (0x2000 + 0x1000 * v.val + 0x400 + n)
def vol (n : Nat) : Word := s.dmemWord (0x2000 + 0x1000 * v.val + 0x800 + n)

/-- VOL[n] == 0.0 for every n < N (R287). -/
def Silent : Prop := ∀ n < s.bufSize.toNat, fEq (vol s v n) 0x00000000#32 = true

/-- bent[n] (R286). -/
def bent (n : Nat) : Word :=
  fMul s.noteFreq[v.val] (fmPow fastMath 0x40000000#32 (fDiv (bend s v n) 0x41400000#32))

/-- noct (R291). -/
def noct : Word :=
  fDiv (fastMath.log (fDiv (fMul s.sampleRate 0x3F000000#32) 0x43DC0000#32)) (fastMath.log 0x40000000#32)

/-- fmax[n] (R292). -/
def fmax (n : Nat) : Word :=
  fMul 0x43DC0000#32 (fmPow fastMath 0x40000000#32 (fAdd 0xC0A00000#32 (fMul (fctl s v n) (fAdd (noct s) 0x40A00000#32))))

/-- jf of iteration i: f32(START + i), the sum wrapping (R294). -/
def jf (i : Nat) : Word := fOfInt (s.kernel.sumStart + BitVec.ofNat 32 i).toInt

/-- h of iteration i (R295). -/
def h (i : Nat) : Word := fAdd (fMul s.kernel.hsIdxMul (jf s i)) s.kernel.hsOffset

/-- The iterations that place an overtone, in order (R294, R295): of the iterations 0 to 599 those with h > 0, and of these
the first COUNT, none for a COUNT ≤ 0. -/
def placed : List Nat := ((List.range 600).filter (fun i => fGt (h s i) 0x00000000#32)).take s.kernel.overtoneCount.toInt.toNat

/-- fr and inc of overtone i at sample n (R295, R284). -/
def fr (i n : Nat) : Word := fMul (bent s v n) (h s i)
def inc (i n : Nat) : Word := fDiv (fMul 0x40C90FDB#32 (fr s v i n)) s.sampleRate

/-- acc of overtone i before sample n: the running sum of R300 from the stored phase. -/
def acc (i : Nat) : Nat → Word
  | 0 => s.dmemWord (0xC000 + 2 * (600 * v.val + i))
  | n + 1 => fAdd (acc i n) (inc s v i n)

/-- RM_DEPTH > 0 (R299). -/
def ring : Bool := fGt s.kernel.rmDepth 0x00000000#32

/-- racc of overtone i before sample n (R299). -/
def racc (i : Nat) : Nat → Word
  | 0 => s.dmemWord (0xC000 + 2 * (600 * v.val + i) + 1)
  | n + 1 => fAdd (racc i n) (fMul s.kernel.rmDepth (inc s v i n))

/-- P of overtone i (R296). -/
def power (i : Nat) : Word :=
  fMul (fmPow fastMath s.kernel.ampPowBase (fMul s.kernel.ampIdxMul (jf s i))) (fmPow fastMath (h s i) s.kernel.hsExp)

/-- u and w of overtone i at sample n (R297). -/
def u (i n : Nat) : Word :=
  fClamp (fMul (fSub (fr s v i n) s.kernel.boostCenter) s.kernel.boostSharp) 0xBF800000#32 0x3F800000#32
def w (i n : Nat) : Word :=
  fmPow fastMath (fAdd 0x3F000000#32 (fMul 0x3F000000#32 (fastMath.cos (fMul 0x40490FDB#32 (u s v i n))))) s.kernel.boostExp

/-- G (R293). -/
def gain : Word := fSub (fastMath.exp (fMul s.kernel.boostDb 0x3DEBC8E3#32)) 0x3F800000#32

/-- s of overtone i at sample n. -/
def tone (i n : Nat) : Word :=
  fMul (fAdd (power s i) (fMul (gain s) (w s v i n))) (fastMath.sin (acc s v i n))

/-- theta of overtone i, and wofs (R299). -/
def theta (i : Nat) : Word := fMul (fMul 0x40C90FDB#32 s.kernel.rmPhaseOfs) (jf s i)
def wofs : Word := fMul 0x40C90FDB#32 s.kernel.stereoWidth

/-- The ring-mod factor at an angle (R299). -/
def factor (ra : Word) : Word := fmPow fastMath (fAdd 0x3F000000#32 (fMul 0x3F000000#32 (fastMath.sin ra))) s.kernel.rmRate

/-- L and R of overtone i at sample n (R299). -/
def left (i n : Nat) : Word :=
  if ring s then fMul (tone s v i n) (factor s (fAdd (racc s v i n) (theta s i))) else tone s v i n
def right (i n : Nat) : Word :=
  if ring s then fMul (tone s v i n) (factor s (fAdd (fAdd (racc s v i n) (theta s i)) (wofs s))) else tone s v i n

/-- audible (R298). -/
def audible (i n : Nat) : Bool := fGt (fr s v i n) 0x00000000#32 && fLe (fr s v i n) (fmax s v n)

/-- VB[2n] and VB[2n+1] after the loop: the placed overtones' samples summed in order from +0.0 (R290, R298, R303). -/
def vbLeft (n : Nat) : Word :=
  (placed s).foldl (fun b i => fAdd b (if audible s v i n then left s v i n else 0x00000000#32)) 0x00000000#32
def vbRight (n : Nat) : Word :=
  (placed s).foldl (fun b i => fAdd b (if audible s v i n then right s v i n else 0x00000000#32)) 0x00000000#32

/-- wrap(x) (R301). -/
def wrap (x : Word) : Word :=
  let r := fSub x (fMul 0x40C90FDB#32 (fFloor (fDiv x 0x40C90FDB#32)))
  if fGe r 0x00000000#32 ∧ fLt r 0x40C90FDB#32 then r else 0x00000000#32

/-- The words KRENDER of voice v may write: OUT[0..2N−1] and the voice's overtone state (20_memory.md R92, R94). -/
def Writes (a : Nat) : Prop :=
  (0x1000 ≤ a ∧ a < 0x1000 + 2 * s.bufSize.toNat) ∨
  (0xC000 + 1200 * v.val ≤ a ∧ a < 0xC000 + 1200 * v.val + 1200)

end Kr

/-! ## The invariant of the machine -/

/-- What every state that the machine reaches meets. -/
structure Inv (s : State) : Prop where
  /-- Data memory is canonical and lists no byte of a reserved range. -/
  dmemWf : Memory.wf .dmem s.dmem = true
  /-- Command RAM is canonical. -/
  cmdWf : Memory.wf .cmd s.cmd = true
  /-- BUFSIZE is unconfigured or legal (10_state.md R42). -/
  bufSizeOk : s.bufSize = 0#32 ∨ LegalBufSize s.bufSize
  /-- DONE is 1 only while IDLE (10_state.md R36; 60_exceptions.md R333). -/
  doneIdle : s.done = true → s.runState = .idle
  /-- The fault registers are 0 until a fault is taken (10_state.md R37). -/
  noFault : (∀ c, s.runState ≠ .faulted c) → s.faultCp = 0#32 ∧ s.faultWord = 0#32 ∧ s.faultInfo = 0#32
  /-- FAULT_CP is the cp of the faulting command, which cp keeps (60_exceptions.md R333). -/
  faultCp : ∀ c, s.runState = .faulted c → s.faultCp = s.cp.setWidth 32
  /-- CP_OVERRUN shows 1023, no word and 1024 (60_exceptions.md R331). -/
  overrun : s.runState = .faulted .cpOverrun → s.cp = 1023#10 ∧ s.faultWord = 0#32 ∧ s.faultInfo = 1024#32
  /-- A context never triggered holds the reset values of its state registers (10_state.md R48; 42_envelope.md R249). -/
  untriggered : ∀ c, (s.getEg c).state.triggered = false → (s.getEg c).state = EgState.reset

end Sys2Proof.Safety
end

