-- ==== Sys2Proof/Certificates/Slice0/Obligations.lean ====
section
/-! DEFINITION. The statements for the provers. Each docstring names the rules of spec/ it formalises. -/

open Sys2Proof Sys2Proof.Machine Sys2Proof.Safety

/-- Decoding the encoding of a well-formed command gives the command back (30_encoding.md sections 1 to 4). -/
def Obligations.DecodeReadsBackEveryEncodedCommand : Prop :=
  ∀ i : Instr, i.wf = true → decode (encode i) = .ok i

/-- A word that decodes is the one word that encodes its command (30_encoding.md sections 1 to 4). -/
def Obligations.EveryDecodedWordIsTheEncodingOfItsCommand : Prop :=
  ∀ (w : Word) (i : Instr), decode w = .ok i → encode i = w ∧ i.wf = true

/-- Decoding is total: the 25 rows of the opcode map run, everything else faults (R131). -/
def Obligations.DecodingFollowsTheOpcodeMapOverAllWords : Prop :=
  (∀ (s : State) (w : Word), Fetches s w → (w >>> 26).toNat ∉ legalOpcodes → ∃ t, step s = .next t ∧ Faulted .illegalOpcode w w s t) ∧
  (∀ (s : State) (w : Word) op pattern mask, Fetches s w → (op, pattern, mask) ∈ opcodeMap → (w >>> 26).toNat = op →
    (w &&& mask ≠ pattern →
      ∃ t, step s = .next t ∧ Faulted .reservedField w (w &&& mask &&& ~~~ pattern) s t) ∧
    (w &&& mask = pattern → ∃ i, decode w = .ok i ∧ encode i = w ∧ i.op.toNat = op ∧ step s = exec i s)) ∧
  decode 0x00000000#32 = .error .illegalOpcode ∧ decode 0xFFFFFFFF#32 = .error .illegalOpcode

/-- The worked encodings of the spec (R135). -/
def Obligations.WorkedEncodingsDecodeAsWritten : Prop :=
  (encode (.fpow 3 1 2) = 0x50C48000#32 ∧ decode 0x50C48000#32 = .ok (.fpow 3 1 2)) ∧
  (encode (.vlih 1 0xC000) = 0x1040C000#32 ∧ decode 0x1040C000#32 = .ok (.vlih 1 0xC000)) ∧
  (encode (.egeval 4 5 2) = 0x89080500#32 ∧ decode 0x89080500#32 = .ok (.egeval 4 5 2)) ∧
  (encode (.krender 0) = 0xA4000000#32 ∧ decode 0xA4000000#32 = .ok (.krender 0)) ∧
  (encode (.crw 0x011 7) = 0x2DC00011#32 ∧ decode 0x2DC00011#32 = .ok (.crw 0x011 7)) ∧
  (encode (.fsel 9 1 2 3) = 0x56448C00#32 ∧ decode 0x56448C00#32 = .ok (.fsel 9 1 2 3))

/-- VLI, VZERO and HALT expand to commands with the stated effect, and operands that do not fit are rejected (30_encoding.md section 5). -/
def Obligations.PseudoInstructionVliLoadsItsImmediate : Prop :=
  (∀ (d : VReg) (imm : Word) (s : State), s.cp.toNat < 1022 →
    ∃ t, execAll (expandVli d imm) s = .next t ∧ (∀ l, (t.getV d).get l = imm) ∧ SameVBut d s t) ∧
  (∀ (d : VReg) (imm : Word), (expandVli d imm).length = if imm.toNat % 2 ^ 16 = 0 then 1 else 2) ∧
  (∀ (d : VReg) (s : State), ∃ t, execAll (expandVzero d) s = .next t ∧ (∀ l, (t.getV d).get l = 0x00000000#32) ∧
    SameVBut d s t) ∧
  expandHalt = [.endList] ∧
  (∀ n, (∀ x, Operand.imm16 n = some x ↔ n ≤ 0xFFFF ∧ x.toNat = n) ∧ (∀ x, Operand.cr n = some x ↔ n ≤ 0xFFF ∧ x.toNat = n) ∧
    (∀ x, Operand.ctx n = some x ↔ n ≤ 63 ∧ x.toNat = n) ∧ (∀ x, Operand.lane n = some x ↔ n ≤ 3 ∧ x.toNat = n) ∧
    (∀ x, Operand.vreg n = some x ↔ n ≤ 15 ∧ x.toNat = n) ∧ (∀ x, Operand.vv n = some x ↔ n ≤ 15 ∧ x.toNat = n))

/-- A step fetches CMD[cp], decodes it and runs the command (40_control_and_data_movement.md section 1, 10_state.md section 1). -/
def Obligations.StepRunsTheDecodedCommand : Prop :=
  ∀ (s : State) (i : Instr), s.runState = .running → decode (s.cmdWord s.cp.toNat) = .ok i →
    (s.inputs = [] → step s = exec i s) ∧
    (∀ rest, s.inputs = .pass :: rest → step s = exec i { s with inputs := rest })

/-- The run state changes only by GO, END, a fault or reset (10_state.md section 1, 60_exceptions.md section 2, 60_exceptions.md section 4, 60_exceptions.md section 5, log 6, log 12). -/
def Obligations.RunStateFollowsItsTransitions : Prop :=
  State.reset.runState = .idle ∧
  (∀ s : State, s.runState ≠ .running → s.inputs = [] → step s = .next s) ∧
  (∀ s t : State, step s = .next t → s.runState = .idle →
    t.runState = .idle ∨ (t.runState = .running ∧ ∃ g rest, s.inputs = .write 0x60000#19 4 g :: rest)) ∧
  (∀ s t : State, step s = .next t → s.runState = .running →
    t.runState = .running ∨ (∃ c, t.runState = .faulted c) ∨
    (t.runState = .idle ∧ (decode (s.cmdWord s.cp.toNat) = .ok .endList ∨ ∃ rest, s.inputs = .reset :: rest))) ∧
  (∀ (s t : State) c, step s = .next t → s.runState = .faulted c →
    t.runState = .faulted c ∨ (t.runState = .idle ∧ ∃ rest, s.inputs = .reset :: rest)) ∧
  (∀ (s : State) (addr : BitVec 19) v, s.runState ≠ .running → addr.toNat % 4 = 0 →
    (∃ t, hostRead s addr 4 = .next t) ∧ ∃ t, hostWrite s addr 4 v = .next t) ∧
  (∀ s : State, s.status.getLsbD 0 = decide (s.runState = .running)) ∧
  (∀ s : State, s.status.getLsbD 2 = true ↔ ∃ c, s.runState = .faulted c)

/-- Every command list ends within the command RAM (40_control_and_data_movement.md section 1, 70_reset_and_hazards.md section 4). -/
def Obligations.EveryCommandListTerminates : Prop :=
  (∀ (i : Instr) (s : State), ∃ t, exec i s = .next t) ∧
  (∀ s : State, s.runState = .running → s.inputs = [] →
    ∃ (k : Nat) (t : State), 1 ≤ k ∧ k ≤ 1024 - s.cp.toNat ∧ Host.Core.run Sys2Proof.core k s = .next t ∧
      (t.runState = .idle ∨ ∃ c, t.runState = .faulted c))

/-- The fields of STATUS, and IRQ_OUT (10_state.md section 4, 60_exceptions.md sections 1 and 3). -/
def Obligations.StatusAndIrqShowTheRunState : Prop :=
  (∀ s : State, s.status.getLsbD 0 = decide (s.runState = .running)) ∧
  (∀ s : State, s.status.getLsbD 1 = s.done) ∧
  (∀ s : State, s.status.getLsbD 2 = true ↔ ∃ c, s.runState = .faulted c) ∧
  (∀ (s : State) b, (3 ≤ b ∧ b ≤ 7) ∨ 16 ≤ b → s.status.getLsbD b = false) ∧
  (∀ (s : State) c, s.runState = .faulted c → s.status.extractLsb' 8 8 = c.code) ∧
  (∀ s : State, (∀ c, s.runState ≠ .faulted c) → s.status.extractLsb' 8 8 = 0x00#8) ∧
  (FaultCause.code .illegalOpcode = 0x01#8 ∧ FaultCause.code .reservedField = 0x02#8 ∧ FaultCause.code .badAddress = 0x03#8 ∧
    FaultCause.code .misaligned = 0x04#8 ∧ FaultCause.code .badCr = 0x05#8 ∧ FaultCause.code .roWrite = 0x06#8 ∧
    FaultCause.code .badValue = 0x07#8 ∧ FaultCause.code .badIndex = 0x08#8 ∧ FaultCause.code .bufsizeUnset = 0x09#8 ∧
    FaultCause.code .cpOverrun = 0x0A#8) ∧
  (∀ s : State, s.runState = .running → s.done = false → s.status = 0x00000001#32) ∧
  (∀ s : State, s.irqOut = true ↔ s.done = true ∨ ∃ c, s.runState = .faulted c)

/-- What taking a fault writes, and what stays possible afterwards (R333). -/
def Obligations.FaultEntrySavesTheCommandAndHalts : Prop :=
  ∀ (s : State) (k : FaultCause) (w info : Word),
    Faulted k w info s (s.takeFault k w info) ∧
    (s.takeFault k w info).status.getLsbD 0 = false ∧ (s.takeFault k w info).status.getLsbD 2 = true ∧
    (s.takeFault k w info).status.extractLsb' 8 8 = k.code ∧
    (s.inputs = [] → step (s.takeFault k w info) = .next (s.takeFault k w info)) ∧
    (∀ g, hostGo (s.takeFault k w info) g = s.takeFault k w info) ∧
    (∀ addr : BitVec 19, addr.toNat % 4 = 0 →
      (∃ t, hostRead (s.takeFault k w info) addr 4 = .next t) ∧
      (∀ v, ∃ t, hostWrite (s.takeFault k w info) addr 4 v = .next t))

/-- Every fault but CP_OVERRUN comes before any effect of its command (R332). -/
def Obligations.FaultsLeaveTheRestOfTheStateAlone : Prop :=
  ∀ (s t : State) (w : Word) (c : FaultCause), Fetches s w → step s = .next t → t.runState = .faulted c → c ≠ .cpOverrun →
    Faulted c w t.faultInfo s t

/-- CP_OVERRUN at index 1023 (R331). -/
def Obligations.CpOverrunKeepsTheEffectsOfTheLastCommand : Prop :=
  (∀ (i : Instr) (s : State), i ≠ .endList → s.runState = .running → s.cp = 1023#10 →
    ∃ t c, exec i s = .next t ∧ t.runState = .faulted c ∧ t.faultCp = 1023#32 ∧ t.cp = 1023#10) ∧
  (∀ (i : Instr) (s u : State) (k : BitVec 10), i ≠ .endList → (∀ d, i ≠ .crr d 0x007#12) → s.runState = .running →
    s.cp = 1023#10 → k ≠ 1023#10 → exec i { s with cp := k } = .next u → u.runState = .running →
    exec i s = .next { u with
      cp := 1023#10
      runState := .faulted .cpOverrun
      faultCp := 1023#32
      faultWord := 0#32
      faultInfo := 1024#32 }) ∧
  (∀ (d : VReg) (s : State), s.runState = .running → s.cp = 1023#10 →
    ∃ t, exec (.crr d 0x007#12) s = .next t ∧ WritesOnlyV d s t ∧ t.runState = .faulted .cpOverrun) ∧
  FaultCause.code .cpOverrun = 0x0A#8 ∧
  (∀ s : State, s.cp = 1023#10 → ∃ t, exec .endList s = .next t ∧ t.runState = .idle ∧ t.done = true ∧ t.cp = 1023#10)

/-- Which command raises which fault, with which information word (60_exceptions.md sections 1 and 2). -/
def Obligations.EachFaultCauseHasItsRaiserAndInformation : Prop :=
  ∀ (s t : State) (w : Word) (c : FaultCause), Fetches s w → step s = .next t → t.runState = .faulted c →
    match c with
    | .illegalOpcode => (w >>> 26).toNat ∉ legalOpcodes ∧ t.faultInfo = w
    | .reservedField => ∃ op pattern mask, (op, pattern, mask) ∈ opcodeMap ∧ (w >>> 26).toNat = op ∧ w &&& mask ≠ pattern ∧
        t.faultInfo = w &&& mask &&& ~~~ pattern
    | .badAddress => ∃ r a, (decode w = .ok (.ldv r a) ∨ decode w = .ok (.stv r a)) ∧ a.toNat % 4 = 0 ∧ Reserved a.toNat ∧
        t.faultInfo = a.setWidth 32
    | .misaligned => ∃ r a, (decode w = .ok (.ldv r a) ∨ decode w = .ok (.stv r a)) ∧ a.toNat % 4 ≠ 0 ∧
        t.faultInfo = a.setWidth 32
    | .badCr => ∃ r n, (decode w = .ok (.crr r n) ∨ decode w = .ok (.crw n r)) ∧ CrReserved n.toNat ∧
        t.faultInfo = n.setWidth 32
    | .roWrite => ∃ r n v, decode w = .ok (.crw n r) ∧ CrRow s n.toNat .ro v ∧ t.faultInfo = n.setWidth 32
    | .badValue => ∃ r, decode w = .ok (.crw 0x011#12 r) ∧ ¬ LegalBufSize ((s.getV r).get 0) ∧
        t.faultInfo = (s.getV r).get 0
    | .badIndex => ∃ v, decode w = .ok (.krender v) ∧ 10 ≤ v.toNat ∧ t.faultInfo = v.setWidth 32
    | .bufsizeUnset => s.bufSize = 0#32 ∧ (decode w = .ok .kclr ∨ ∃ v, decode w = .ok (.krender v) ∧ v.toNat < 10) ∧
        t.faultInfo = 0#32
    | .cpOverrun => s.cp = 1023#10 ∧ t.faultWord = 0#32 ∧ t.faultInfo = 1024#32

/-- NOP leaves all state unchanged except cp (R151). -/
def Obligations.NopOnlyAdvancesCp : Prop :=
  EncodedBy 0x04000000#32 0xFFFFFFFF#32 (fun _ => .nop) ∧
  ∀ s : State, ∃ t, exec .nop s = .next t ∧ Ended s t ∧ SameV s t ∧ SameEg s t ∧ SameCounters s t ∧ SameParams s t ∧ SameDmem s t ∧ SameCmd s t ∧ SameModel s t

/-- END ends the command list (R152). -/
def Obligations.EndStopsWithDoneSet : Prop :=
  EncodedBy 0x08000000#32 0xFFFFFFFF#32 (fun _ => .endList) ∧
  (∀ s : State, ∃ t, exec .endList s = .next t ∧ t.runState = .idle ∧ t.done = true ∧ t.status = 0x00000002#32 ∧
    t.cp = s.cp ∧ SameFaultRegs s t ∧ SameV s t ∧ SameEg s t ∧ SameCounters s t ∧ SameParams s t ∧ SameDmem s t ∧ SameCmd s t ∧ SameModel s t) ∧
  (∀ s : State, s.runState = .idle → s.inputs = [] → s.cmdWord 0 = 0x08000000#32 →
    ∃ t, step (hostGo s 0x00000000#32) = .next t ∧ t.cp = 0#10 ∧ t.status = 0x00000002#32)

/-- VLIH and VLIL (R153, R154). -/
def Obligations.ImmediateLoadsSetUpperAndLowerHalves : Prop :=
  EncodedBy 0x10000000#32 0xFC3F0000#32 (fun w => .vlih (field w 22 4) (field w 0 16)) ∧
  EncodedBy 0x14000000#32 0xFC3F0000#32 (fun w => .vlil (field w 22 4) (field w 0 16)) ∧
  (∀ (d : VReg) (imm : BitVec 16) (s : State), ∃ t, exec (.vlih d imm) s = .next t ∧ WritesOnlyV d s t ∧
    ∀ l, (t.getV d).get l = imm ++ 0x0000#16) ∧
  (∀ (d : VReg) (imm : BitVec 16) (s : State), ∃ t, exec (.vlil d imm) s = .next t ∧ WritesOnlyV d s t ∧
    ∀ l, (t.getV d).get l = ((s.getV d).get l).extractLsb' 16 16 ++ imm)

/-- VMOV and VBCAST (R155, R156). -/
def Obligations.MoveAndBroadcastCopyRegisterLanes : Prop :=
  EncodedBy 0x18000000#32 0xFC03FFFF#32 (fun w => .vmov (field w 22 4) (field w 18 4)) ∧
  EncodedBy 0x1C000000#32 0xFC033FFF#32 (fun w => .vbcast (field w 22 4) (field w 18 4) (field w 14 4)) ∧
  (∀ (d v : VReg) (s : State), ∃ t, exec (.vmov d v) s = .next t ∧ WritesOnlyV d s t ∧ t.getV d = s.getV v) ∧
  (∀ (d v : VReg) (lane : Fin 4) (s : State), ∃ t, exec (.vbcast d v (BitVec.ofNat 4 lane.val)) s = .next t ∧
    WritesOnlyV d s t ∧ ∀ l, (t.getV d).get l = (s.getV v).get lane)

/-- LDV (R157). -/
def Obligations.LoadVectorReadsFourAlignedWords : Prop :=
  EncodedBy 0x20000000#32 0xFC3F0000#32 (fun w => .ldv (field w 22 4) (field w 0 16)) ∧
  ∀ (d : VReg) (a : BitVec 16) (s : State),
    (a.toNat % 4 ≠ 0 → ∃ t, exec (.ldv d a) s = .next t ∧ Faulted .misaligned (encode (.ldv d a)) (a.setWidth 32) s t) ∧
    (a.toNat % 4 = 0 → Reserved a.toNat →
      ∃ t, exec (.ldv d a) s = .next t ∧ Faulted .badAddress (encode (.ldv d a)) (a.setWidth 32) s t) ∧
    (a.toNat % 4 = 0 → ¬ Reserved a.toNat → ∃ t, exec (.ldv d a) s = .next t ∧ WritesOnlyV d s t ∧
      ∀ l : Fin 4, (t.getV d).get l = s.dmemWord (a.toNat + l.val))

/-- STV (R158). -/
def Obligations.StoreVectorWritesFourAlignedWordsAlone : Prop :=
  EncodedBy 0x24000000#32 0xFC3F0000#32 (fun w => .stv (field w 22 4) (field w 0 16)) ∧
  ∀ (v : VReg) (a : BitVec 16) (s : State),
    (a.toNat % 4 ≠ 0 → ∃ t, exec (.stv v a) s = .next t ∧ Faulted .misaligned (encode (.stv v a)) (a.setWidth 32) s t) ∧
    (a.toNat % 4 = 0 → Reserved a.toNat →
      ∃ t, exec (.stv v a) s = .next t ∧ Faulted .badAddress (encode (.stv v a)) (a.setWidth 32) s t) ∧
    (a.toNat % 4 = 0 → ¬ Reserved a.toNat → ∃ t, exec (.stv v a) s = .next t ∧
      WritesOnlyDmem (fun x => a.toNat ≤ x ∧ x < a.toNat + 4) s t ∧
      ∀ l : Fin 4, t.dmemWord (a.toNat + l.val) = (s.getV v).get l)

/-- An LDV after an STV to the same address reads the stored vector (20_memory.md sections 2 and 4). -/
def Obligations.LoadAfterStoreReturnsTheVector : Prop :=
  ∀ (v d : VReg) (a : BitVec 16) (s : State), s.cp.toNat < 1022 → a.toNat % 4 = 0 → ¬ Reserved a.toNat →
    ∃ t u, exec (.stv v a) s = .next t ∧ exec (.ldv d a) t = .next u ∧ u.getV d = s.getV v

/-- CRR, for every register number (R159). -/
def Obligations.ControlRegisterReadsFollowTheMap : Prop :=
  EncodedBy 0x28000000#32 0xFC3FF000#32 (fun w => .crr (field w 22 4) (field w 0 12)) ∧
  (∀ (s : State) (n : Nat), n < 4096 → (CrReserved n ↔ ∀ a w, ¬ CrRow s n a w)) ∧
  (∀ (s : State) (n : Nat) a b u v, CrRow s n a u → CrRow s n b v → a = b ∧ u = v) ∧
  (∀ (d : VReg) (n : BitVec 12) (s : State), CrReserved n.toNat →
    ∃ t, exec (.crr d n) s = .next t ∧ Faulted .badCr (encode (.crr d n)) (n.setWidth 32) s t) ∧
  (∀ (d : VReg) (n : BitVec 12) (s : State) a w, CrRow s n.toNat a w →
    ∃ t, exec (.crr d n) s = .next t ∧ WritesOnlyV d s t ∧ ∀ l, (t.getV d).get l = w) ∧
  (∀ (d : VReg) (s : State), s.runState = .running → s.done = false →
    ∃ t, exec (.crr d 0x000#12) s = .next t ∧ ∀ l, (t.getV d).get l = 0x00000001#32) ∧
  (∃ t, exec (.crr 0 0x010#12) State.reset = .next t ∧ ∀ l, (t.getV 0).get l = 0x472C4400#32)

/-- CRW, for every register number (R160). -/
def Obligations.ControlRegisterWritesFollowTheMap : Prop :=
  EncodedBy 0x2C000000#32 0xFC3FF000#32 (fun w => .crw (field w 0 12) (field w 22 4)) ∧
  (∀ (n : BitVec 12) (r : VReg) (s : State), CrReserved n.toNat →
    ∃ t, exec (.crw n r) s = .next t ∧ Faulted .badCr (encode (.crw n r)) (n.setWidth 32) s t) ∧
  (∀ (n : BitVec 12) (r : VReg) (s : State) w, CrRow s n.toNat .ro w →
    ∃ t, exec (.crw n r) s = .next t ∧ Faulted .roWrite (encode (.crw n r)) (n.setWidth 32) s t) ∧
  (∀ (r : VReg) (s : State), ¬ LegalBufSize ((s.getV r).get 0) →
    ∃ t, exec (.crw 0x011#12 r) s = .next t ∧ Faulted .badValue (encode (.crw 0x011#12 r)) ((s.getV r).get 0) s t) ∧
  (∀ (r : VReg) (s : State), LegalBufSize ((s.getV r).get 0) →
    ∃ t, exec (.crw 0x011#12 r) s = .next t ∧ CrRow t 0x011 .legalOnly ((s.getV r).get 0) ∧ SameCrBut 0x011 s t ∧
      Ended s t ∧ SameV s t ∧ SameCounters s t ∧ SameDmem s t ∧ SameCmd s t ∧ SameModel s t) ∧
  (∀ (n : BitVec 12) (r : VReg) (s : State) w, CrRow s n.toNat .rw w →
    ∃ t, exec (.crw n r) s = .next t ∧ CrRow t n.toNat .rw ((s.getV r).get 0) ∧ SameCrBut n.toNat s t ∧
      Ended s t ∧ SameV s t ∧ SameCounters s t ∧ SameDmem s t ∧ SameCmd s t ∧ SameModel s t) ∧
  (∀ (c : Ctx) (n : BitVec 12) (r : VReg) (s : State), n.toNat = 0x100 + 32 * c.toNat + 8 →
    ∃ t, exec (.crw n r) s = .next t ∧ (t.getEg c).autoRelease = ((s.getV r).get 0).getLsbD 0 ∧
      (t.getEg c).state.triggered = (s.getEg c).state.triggered ∧ SameCrBut n.toNat s t ∧
      Ended s t ∧ SameV s t ∧ SameCounters s t ∧ SameDmem s t ∧ SameCmd s t ∧ SameModel s t)

/-- FSIN, FCOS, FLOG and FEXP (41_fastmath.md sections 1 and 4). -/
def Obligations.TranscendentalCommandsApplyTheConfigurationPerLane : Prop :=
  EncodedBy 0x40000000#32 0xFC03FFFF#32 (fun w => .fsin (field w 22 4) (field w 18 4)) ∧
  EncodedBy 0x44000000#32 0xFC03FFFF#32 (fun w => .fcos (field w 22 4) (field w 18 4)) ∧
  EncodedBy 0x48000000#32 0xFC03FFFF#32 (fun w => .flog (field w 22 4) (field w 18 4)) ∧
  EncodedBy 0x4C000000#32 0xFC03FFFF#32 (fun w => .fexp (field w 22 4) (field w 18 4)) ∧
  ∀ (d v : VReg) (s : State),
    (∃ t, exec (.fsin d v) s = .next t ∧ WritesOnlyV d s t ∧ ∀ l, (t.getV d).get l = fastMath.sin ((s.getV v).get l)) ∧
    (∃ t, exec (.fcos d v) s = .next t ∧ WritesOnlyV d s t ∧ ∀ l, (t.getV d).get l = fastMath.cos ((s.getV v).get l)) ∧
    (∃ t, exec (.flog d v) s = .next t ∧ WritesOnlyV d s t ∧ ∀ l, (t.getV d).get l = fastMath.log ((s.getV v).get l)) ∧
    (∃ t, exec (.fexp d v) s = .next t ∧ WritesOnlyV d s t ∧ ∀ l, (t.getV d).get l = fastMath.exp ((s.getV v).get l))

/-- The reference sine and cosine, logarithm and exponential, and their helpers (R195, R196, R197, R198, R199, R200). -/
def Obligations.ReferenceSineAndCosineFollowTheirPseudocode : Prop :=
  let polys : Word → Word × Word := fun a =>
    let z := fMul a a
    let yc := fAdd (fMul 0x37CCF5CE#32 z) 0xBAB6061A#32
    let yc := fAdd (fMul yc z) 0x3D2AAAA5#32
    let yc := fMul (fMul yc z) z
    let yc := fAdd (fSub yc (fMul z 0x3F000000#32)) 0x3F800000#32
    let ys := fAdd (fMul 0xB94CA1F9#32 z) 0x3C08839E#32
    let ys := fAdd (fMul ys z) 0xBE2AAAA3#32
    let ys := fAdd (fMul (fMul ys z) a) a
    (yc, ys)
  let reduce : Word → Word → Word := fun a y =>
    fAdd (fAdd (fAdd a (fMul y 0xBF490000#32)) (fMul y 0xB97DA000#32)) (fMul y 0xB3222169#32)
  (∀ x, fastMath.sin x =
    let sgn := x &&& 0x80000000#32
    let a := fAbs x
    let j := (cvtt (fMul a 0x3FA2F983#32) + 1#32) &&& ~~~ 1#32
    let sgn := sgn ^^^ ((j &&& 4#32) <<< 29)
    let p := polys (reduce a (fOfInt j.toInt))
    (if j &&& 2#32 = 0#32 then p.2 else p.1) ^^^ sgn) ∧
  (∀ x, fastMath.cos x =
    let a := fAbs x
    let j := (cvtt (fMul a 0x3FA2F983#32) + 1#32) &&& ~~~ 1#32
    let j2 := j - 2#32
    let sgn := (~~~ j2 &&& 4#32) <<< 29
    let p := polys (reduce a (fOfInt j.toInt))
    (if j2 &&& 2#32 = 0#32 then p.2 else p.1) ^^^ sgn) ∧
  (∀ x, fastMath.log x =
    let b := fMax x 0x00800000#32
    let e := fAdd (fOfInt (((b.extractLsb' 23 8).toNat : Int) - 127)) 0x3F800000#32
    let m := (b &&& 0x807FFFFF#32) ||| 0x3F000000#32
    let lt := fLt m 0x3F3504F3#32
    let t := if lt then m else 0x00000000#32
    let m := fSub m 0x3F800000#32
    let e := fSub e (if lt then 0x3F800000#32 else 0x00000000#32)
    let m := fAdd m t
    let z := fMul m m
    let y := [0xBDEBD1B8#32, 0x3DEF251A#32, 0xBDFE5D4F#32, 0x3E11E9BF#32, 0xBE2AAE50#32, 0x3E4CCEAC#32, 0xBE7FFFFC#32,
      0x3EAAAAAA#32].foldl (fun y p => fAdd (fMul y m) p) 0x3D9021BB#32
    let y := fMul (fMul y m) z
    let y := fAdd y (fMul e 0xB95E8083#32)
    let y := fSub y (fMul z 0x3F000000#32)
    let m := fAdd m y
    fAdd m (fMul e 0x3F318000#32)) ∧
  (∀ x, fastMath.exp x =
    if fGt x 0x42B17218#32 then 0x7F7FFFFF#32
    else if fLt x 0xC2AEAC50#32 then 0x00800000#32
    else
      let scale : Word → BitVec 32 → Word := fun v k =>
        fMul v (BitVec.ofInt 32 (min (max k.toInt (-126)) 127 + 127) <<< 23)
      let fx := fFloor (fAdd (fMul x 0x3FB8AA3B#32) 0x3F000000#32)
      let g := fSub x (fMul fx 0x3F318000#32)
      let g := fSub g (fMul fx 0xB95E8083#32)
      let z := fMul g g
      let y := [0x3AB743CE#32, 0x3C088908#32, 0x3D2AA9C1#32, 0x3E2AAAAA#32, 0x3F000000#32].foldl
        (fun y p => fAdd (fMul y g) p) 0x39506967#32
      let y := fAdd (fAdd (fMul y z) g) 0x3F800000#32
      let n := truncS32 fx
      let n1 := n.sshiftRight 1
      let n2 := n - n1
      fMin (fMax (scale (scale y n1) n2) 0x00800000#32) 0x7F7FFFFF#32) ∧
  (∀ y, isNaN y = true ∨ 2 ^ 180 ≤ (extUnits y).natAbs → cvtt y = 0x80000000#32) ∧
  (∀ y, isNaN y = false → (extUnits y).natAbs < 2 ^ 180 → (cvtt y).toInt = Int.tdiv (extUnits y) (2 ^ 149)) ∧
  (∀ y, cvtt y = truncS32 y ↔ isNaN y = true ∨ extUnits y < 2 ^ 180) ∧
  (∀ k lo hi : Int, clampInt k lo hi = if hi < max k lo then hi else if k < lo then lo else k) ∧
  (∀ i j : BitVec 32, (i + j).toInt = (i.toInt + j.toInt).bmod (2 ^ 32) ∧ (i - j).toInt = (i.toInt - j.toInt).bmod (2 ^ 32))

/-- The reference FM meets every exact clause of the contract (41_fastmath.md section 2). -/
def Obligations.ReferenceMeetsTheExactClausesOfTheContract : Prop :=
  (∀ x, fLe x 0x00000000#32 ∨ (fLt 0x00000000#32 x ∧ fLt x 0x00800000#32) → fastMath.log x = 0xC2AEAC50#32) ∧
  (∀ x, fGt x 0x42B17218#32 → fastMath.exp x = 0x7F7FFFFF#32) ∧
  (∀ x, fLt x 0xC2AEAC50#32 → fastMath.exp x = 0x00800000#32) ∧
  (∀ x, isNaN x = false → fLe 0x00800000#32 (fastMath.exp x) ∧ fLe (fastMath.exp x) 0x7F7FFFFF#32) ∧
  fastMath.sin 0x00000000#32 = 0x00000000#32 ∧ fastMath.sin 0x80000000#32 = 0x80000000#32 ∧
  fastMath.cos 0x00000000#32 = 0x3F800000#32 ∧ fastMath.cos 0x80000000#32 = 0x3F800000#32 ∧
  fastMath.log 0x3F800000#32 = 0x00000000#32 ∧
  fastMath.exp 0x00000000#32 = 0x3F800000#32 ∧ fastMath.exp 0x80000000#32 = 0x3F800000#32 ∧
  fmPow fastMath 0x40000000#32 0xBF800000#32 = 0x3F000000#32 ∧ fmPow fastMath 0x40000000#32 0x00000000#32 = 0x3F800000#32 ∧
  fmPow fastMath 0x40000000#32 0x3F800000#32 = 0x40000000#32 ∧ fmPow fastMath 0x40000000#32 0x40000000#32 = 0x40800000#32 ∧
  fmPow fastMath 0xC0000000#32 0x40400000#32 = 0xC1000000#32

/-- fm_pow and its sign policy, for every FastMath configuration (R188). -/
def Obligations.PowerFollowsItsSignPolicyInEveryConfiguration : Prop :=
  (∀ (fm : FM) (b e : Word),
    let r := fm.exp (fMul e (fm.log (b &&& 0x7FFFFFFF#32)))
    let whole := isFinite e = true ∧ extUnits e % 2 ^ 149 = 0
    (fLt b 0x00000000#32 = false → fmPow fm b e = r) ∧
    (fLt b 0x00000000#32 = true → ¬ whole → fmPow fm b e = 0x00000000#32) ∧
    (fLt b 0x00000000#32 = true → whole → extUnits e / 2 ^ 149 % 2 = 1 → fmPow fm b e = r ^^^ 0x80000000#32) ∧
    (fLt b 0x00000000#32 = true → whole → extUnits e / 2 ^ 149 % 2 = 0 → fmPow fm b e = r)) ∧
  EncodedBy 0x50000000#32 0xFC003FFF#32 (fun w => .fpow (field w 22 4) (field w 18 4) (field w 14 4)) ∧
  (∀ (d b e : VReg) (s : State), ∃ t, exec (.fpow d b e) s = .next t ∧ WritesOnlyV d s t ∧
    ∀ l, (t.getV d).get l = fmPow fastMath ((s.getV b).get l) ((s.getV e).get l))

/-- Corner cases of fm_pow that every configuration of the contract shares (41_fastmath.md section 3). -/
def Obligations.ZeroExponentAndZeroBaseForEveryConfiguration : Prop :=
  ∀ (eps dom : ℝ) (fm : FM), Contract eps dom fm →
    (∀ b, isFinite b = true → fmPow fm b 0x00000000#32 = 0x3F800000#32 ∧ fmPow fm b 0x80000000#32 = 0x3F800000#32) ∧
    fmPow fm 0x00000000#32 0x40000000#32 = 0x00800000#32 ∧ fmPow fm 0x80000000#32 0x40000000#32 = 0x00800000#32 ∧
    (∀ b e, isFinite b = true → fLt b 0x00000000#32 = true → isFinite e = false → fmPow fm b e = 0x00000000#32)

/-- FSEL (R203). -/
def Obligations.SelectIsBitwise : Prop :=
  EncodedBy 0x54000000#32 0xFC0003FF#32 (fun w => .fsel (field w 22 4) (field w 18 4) (field w 14 4) (field w 10 4)) ∧
  ∀ (d m a b : VReg) (s : State), ∃ t, exec (.fsel d m a b) s = .next t ∧ WritesOnlyV d s t ∧
    ∀ (l : Fin 4) (k : Nat), ((t.getV d).get l).getLsbD k =
      if ((s.getV m).get l).getLsbD k then ((s.getV a).get l).getLsbD k else ((s.getV b).get l).getLsbD k

/-- FFLOOR (R204). -/
def Obligations.FloorIsExact : Prop :=
  EncodedBy 0x58000000#32 0xFC03FFFF#32 (fun w => .ffloor (field w 22 4) (field w 18 4)) ∧
  ∀ (d v : VReg) (s : State), ∃ t, exec (.ffloor d v) s = .next t ∧ WritesOnlyV d s t ∧
    ∀ l : Fin 4, let x := (s.getV v).get l
      let r := (t.getV d).get l
      (isFinite x = true → isFinite r = true ∧ signBit r = signBit x ∧ extUnits r = extUnits x / 2 ^ 149 * 2 ^ 149) ∧
      (isFinite x = false → r = x)

/-- FFREXPM and FFREXPE (R205, R206). -/
def Obligations.FrexpSplitsNormalValuesExactly : Prop :=
  EncodedBy 0x5C000000#32 0xFC03FFFF#32 (fun w => .ffrexpm (field w 22 4) (field w 18 4)) ∧
  EncodedBy 0x60000000#32 0xFC03FFFF#32 (fun w => .ffrexpe (field w 22 4) (field w 18 4)) ∧
  ∀ (dm de v : VReg) (s : State), ∃ t u, exec (.ffrexpm dm v) s = .next t ∧ exec (.ffrexpe de v) s = .next u ∧
    WritesOnlyV dm s t ∧ WritesOnlyV de s u ∧
    ∀ l : Fin 4, let x := (s.getV v).get l
      let m := (t.getV dm).get l
      let e := (u.getV de).get l
      let E := (x.extractLsb' 23 8).toNat
      ((E ≠ 0 ∧ E ≠ 255) → m = (x &&& 0x807FFFFF#32) ||| 0x3F000000#32 ∧ signBit m = signBit x ∧
        2 ^ 148 ≤ (extUnits m).natAbs ∧ (extUnits m).natAbs < 2 ^ 149 ∧ extUnits e = ((E : Int) - 126) * 2 ^ 149 ∧
        extUnits x * 2 ^ 126 = extUnits m * 2 ^ E) ∧
      ((E = 0 ∨ E = 255) → m = x ∧ e = 0x00000000#32)

/-- FLDEXP (R207). -/
def Obligations.LdexpScalesByAClampedPowerOfTwo : Prop :=
  EncodedBy 0x64000000#32 0xFC003FFF#32 (fun w => .fldexp (field w 22 4) (field w 18 4) (field w 14 4)) ∧
  ∀ (d x n : VReg) (s : State), ∃ t, exec (.fldexp d x n) s = .next t ∧ WritesOnlyV d s t ∧
    ∀ l : Fin 4, let k := min (max (truncS32 ((s.getV n).get l)).toInt (-126)) 127
      ∃ p : Word, extUnits p = 2 ^ (149 + k).toNat ∧ (t.getV d).get l = fMul ((s.getV x).get l) p

/-- Addition, subtraction, multiplication and division round the exact result once, to nearest even (00_scope.md section 4). -/
def Obligations.EveryOperationRoundsOnceToNearestEven : Prop :=
  (∀ a b : Word, isFinite a = true → isFinite b = true →
    let e := extUnits a + extUnits b
    RoundsTo e.natAbs 1 (magBits (fAdd a b)) ∧
    signBit (fAdd a b) = (if e = 0 then signBit a && signBit b else decide (e < 0))) ∧
  (∀ a b : Word, isFinite a = true → isFinite b = true →
    let e := extUnits a - extUnits b
    RoundsTo e.natAbs 1 (magBits (fSub a b)) ∧
    signBit (fSub a b) = (if e = 0 then signBit a && !signBit b else decide (e < 0))) ∧
  (∀ a b : Word, isFinite a = true → isFinite b = true →
    RoundsTo (extUnits a * extUnits b).natAbs (2 ^ 149) (magBits (fMul a b)) ∧
    signBit (fMul a b) = (signBit a != signBit b)) ∧
  (∀ a b : Word, isFinite a = true → isFinite b = true → extUnits b ≠ 0 →
    RoundsTo ((extUnits a).natAbs * 2 ^ 149) (extUnits b).natAbs (magBits (fDiv a b)) ∧
    signBit (fDiv a b) = (signBit a != signBit b)) ∧
  (∀ a b : Word, isNaN a = true ∨ isNaN b = true →
    isNaN (fAdd a b) = true ∧ isNaN (fSub a b) = true ∧ isNaN (fMul a b) = true ∧ isNaN (fDiv a b) = true) ∧
  (∀ a b : Word, isInf a = true → isNaN b = false →
    (isInf b = true ∧ signBit b ≠ signBit a → isNaN (fAdd a b) = true) ∧
    (isInf b = false ∨ signBit b = signBit a → fAdd a b = a) ∧
    (isInf b = true ∧ signBit b = signBit a → isNaN (fSub a b) = true) ∧
    (isInf b = false ∨ signBit b ≠ signBit a → fSub a b = a)) ∧
  (∀ a b : Word, isFinite a = true → isInf b = true → fAdd a b = b ∧ fSub a b = fNeg b) ∧
  (∀ a b : Word, isNaN a = false → isNaN b = false → isInf a = true ∨ isInf b = true →
    (extUnits a = 0 ∨ extUnits b = 0 → isNaN (fMul a b) = true) ∧
    (extUnits a ≠ 0 → extUnits b ≠ 0 → isInf (fMul a b) = true ∧ signBit (fMul a b) = (signBit a != signBit b))) ∧
  (∀ a b : Word, isInf a = true → isInf b = true → isNaN (fDiv a b) = true) ∧
  (∀ a b : Word, isInf a = true → isFinite b = true →
    isInf (fDiv a b) = true ∧ signBit (fDiv a b) = (signBit a != signBit b)) ∧
  (∀ a b : Word, isFinite a = true → isInf b = true →
    isZero (fDiv a b) = true ∧ signBit (fDiv a b) = (signBit a != signBit b)) ∧
  (∀ a b : Word, isFinite a = true → extUnits b = 0 → isNaN b = false →
    (extUnits a ≠ 0 → isInf (fDiv a b) = true ∧ signBit (fDiv a b) = (signBit a != signBit b)) ∧
    (extUnits a = 0 → isNaN (fDiv a b) = true))

/-- Comparisons, min, max and clamp (R12). -/
def Obligations.ComparisonsOrderByValue : Prop :=
  (∀ a b, fLt a b = true ↔ isNaN a = false ∧ isNaN b = false ∧ extUnits a < extUnits b) ∧
  (∀ a b, fLe a b = true ↔ isNaN a = false ∧ isNaN b = false ∧ extUnits a ≤ extUnits b) ∧
  (∀ a b, fGt a b = true ↔ isNaN a = false ∧ isNaN b = false ∧ extUnits a > extUnits b) ∧
  (∀ a b, fGe a b = true ↔ isNaN a = false ∧ isNaN b = false ∧ extUnits a ≥ extUnits b) ∧
  (∀ a b, fEq a b = true ↔ isNaN a = false ∧ isNaN b = false ∧ extUnits a = extUnits b) ∧
  fEq 0x00000000#32 0x80000000#32 = true ∧
  (∀ a b, fMin a b = if fLt a b then a else b) ∧
  (∀ a b, fMax a b = if fGt a b then a else b) ∧
  (∀ x lo hi, fClamp x lo hi = fMin (fMax x lo) hi)

/-- f32(i), trunc_s32, floor, abs and neg (R13). -/
def Obligations.ConversionsBetweenIntegersAndBinary32 : Prop :=
  (∀ i : Int, RoundsTo (i.natAbs * 2 ^ 149) 1 (magBits (fOfInt i)) ∧ signBit (fOfInt i) = decide (i < 0)) ∧
  (∀ i : Int, i.natAbs < 2 ^ 24 → extUnits (fOfInt i) = i * 2 ^ 149) ∧
  (∀ x, isNaN x = true → (truncS32 x).toInt = -2 ^ 31) ∧
  (∀ x, isNaN x = false → (truncS32 x).toInt = max (-2 ^ 31) (min (2 ^ 31 - 1) (Int.tdiv (extUnits x) (2 ^ 149)))) ∧
  (∀ x, isFinite x = true → isFinite (fFloor x) = true ∧ extUnits (fFloor x) = extUnits x / 2 ^ 149 * 2 ^ 149) ∧
  (∀ x k, (fAbs x).getLsbD k = (x.getLsbD k && k != 31)) ∧
  (∀ x : Word, ∀ k < 32, (fNeg x).getLsbD k = (x.getLsbD k ^^ k == 31))

/-- EGTRIG (R246). -/
def Obligations.TriggerSchedulesTheEnvelope : Prop :=
  EncodedBy 0x80000000#32 0xFFC000FF#32 (fun w => .egtrig (field w 8 6) (field w 18 4) (field w 14 4)) ∧
  ∀ (c : Ctx) (vt va : VReg) (s : State), ∃ t, exec (.egtrig c vt va) s = .next t ∧ WritesOnlyEg c s t ∧
    (t.getEg c).params = (s.getEg c).params ∧ (t.getEg c).autoRelease = (s.getEg c).autoRelease ∧
    let T := (s.getV vt).get 0
    let A := (s.getV va).get 0
    let p := (s.getEg c).params
    let on := if (s.getEg c).state.triggered then egEval fastMath (s.getEg c) T else 0x00000000#32
    let tz := if (s.getEg c).state.triggered then fAdd T (fMul A (fAbs on)) else T
    let ta := fAdd tz p.attackSecs
    let td := fAdd ta p.decaySecs
    let e : EgState := {
      triggered := true
      tTrigger := T
      tZeroEnd := tz
      tAttackEnd := ta
      tDecayEnd := td
      tRelease := 0x7F800000#32
      tOffEnd := 0x7F800000#32
      onLevel := on
      offLevel := 0x00000000#32 }
    ((s.getEg c).autoRelease = false → (t.getEg c).state = e) ∧
    ((s.getEg c).autoRelease = true → (t.getEg c).state =
      { e with
        tZeroEnd := fMin tz td
        tAttackEnd := fMin ta td
        tDecayEnd := fMin td td
        tRelease := td
        tOffEnd := fAdd td p.releaseSecs
        offLevel := egEval fastMath { params := p, autoRelease := true, state := e } td })

/-- EGOFF (R251). -/
def Obligations.OffTruncatesTheEnvelopeAndSchedulesRelease : Prop :=
  EncodedBy 0x84000000#32 0xFFC3C0FF#32 (fun w => .egoff (field w 8 6) (field w 18 4)) ∧
  ∀ (c : Ctx) (vt : VReg) (s : State), ∃ t, exec (.egoff c vt) s = .next t ∧ WritesOnlyEg c s t ∧
    ((s.getEg c).state.triggered = false → t.getEg c = s.getEg c) ∧
    ((s.getEg c).state.triggered = true →
      let T := (s.getV vt).get 0
      let e := (s.getEg c).state
      t.getEg c = { s.getEg c with state := { e with
        offLevel := egEval fastMath (s.getEg c) T
        tZeroEnd := fMin e.tZeroEnd T
        tAttackEnd := fMin e.tAttackEnd T
        tDecayEnd := fMin e.tDecayEnd T
        tRelease := T
        tOffEnd := fAdd T (s.getEg c).params.releaseSecs } })

/-- EGEVAL, and the segment each time lies in (R252, R245). -/
def Obligations.EvaluationSelectsTheSegmentOfItsTime : Prop :=
  EncodedBy 0x88000000#32 0xFC03C0FF#32 (fun w => .egeval (field w 22 4) (field w 8 6) (field w 18 4)) ∧
  (∀ (d : VReg) (c : Ctx) (v : VReg) (s : State), ∃ t, exec (.egeval d c v) s = .next t ∧ WritesOnlyV d s t ∧
    ∀ l, (t.getV d).get l = egEval fastMath (s.getEg c) ((s.getV v).get l)) ∧
  (∀ (fm : FM) (c : EgContext) (t : Word),
    let e := c.state
    let p := c.params
    let line : Word → Word → Word → Word → Word := fun a b q x => fAdd a (fMul (fSub b a) (shape fm q x))
    egEval fm c t =
      if e.triggered = false then 0x00000000#32
      else if fLt t e.tZeroEnd then line e.onLevel 0x00000000#32 (progress t e.tTrigger e.tZeroEnd) 0x3F800000#32
      else if fLt t e.tAttackEnd then line 0x00000000#32 p.attackLevel (progress t e.tZeroEnd e.tAttackEnd) p.attackPow
      else if fLt t e.tDecayEnd then line p.attackLevel p.sustainLevel (progress t e.tAttackEnd e.tDecayEnd) p.decayPow
      else if fLt t e.tRelease then p.sustainLevel
      else if fLt t e.tOffEnd then line e.offLevel 0x00000000#32 (progress t e.tRelease e.tOffEnd) p.releasePow
      else 0x00000000#32) ∧
  (∀ (fm : FM) (c : EgContext) (t : Word), isNaN t = true → egEval fm c t = 0x00000000#32)

/-- The progress through a segment is a number in [0, 1], for every time and every segment (42_envelope.md section 2). -/
def Obligations.ProgressStaysBetweenZeroAndOne : Prop :=
  (∀ t s e, fLe 0x00000000#32 (progress t s e) = true ∧ fLe (progress t s e) 0x3F800000#32 = true) ∧
  (∀ t s e, fGt e s = true → progress t s e = fClamp (fDiv (fSub t s) (fSub e s)) 0x00000000#32 0x3F800000#32) ∧
  (∀ t s e, fGt e s = false → progress t s e = if fGe t e then 0x3F800000#32 else 0x00000000#32) ∧
  (∀ (fm : FM) p x, fLe p 0x00000000#32 = true → shape fm p x = if fGt x 0x00000000#32 then 0x00000000#32 else 0x3F800000#32) ∧
  (∀ (fm : FM) p x, fGe p 0x3F800000#32 = true → shape fm p x = 0x3F800000#32) ∧
  (∀ (fm : FM) p x, fLe p 0x00000000#32 = false → fGe p 0x3F800000#32 = false → shape fm p x = fmPow fm p x)

/-- EGOFF causes no jump of the output (42_envelope.md section 7). -/
def Obligations.OffContinuesFromTheSampledLevel : Prop :=
  ∀ (c : Ctx) (vt : VReg) (s t : State),
    let T := (s.getV vt).get 0
    let off := egEval fastMath (s.getEg c) T
    (s.getEg c).state.triggered = true → isFinite T = true → isFinite off = true →
    fGt (s.getEg c).params.releaseSecs 0x00000000#32 = true → fGt (s.getEg c).params.releasePow 0x00000000#32 = true →
    fLt T (fAdd T (s.getEg c).params.releaseSecs) = true → exec (.egoff c vt) s = .next t →
    (t.getEg c).state.offLevel = off ∧ fEq (egEval fastMath (t.getEg c) T) off = true ∧
    (off ≠ 0x80000000#32 → egEval fastMath (t.getEg c) T = off)

/-- Re-triggering causes no jump of the output (42_envelope.md section 7). -/
def Obligations.RetriggerContinuesFromTheSampledLevel : Prop :=
  ∀ (c : Ctx) (vt va : VReg) (s t : State),
    let T := (s.getV vt).get 0
    let on := egEval fastMath (s.getEg c) T
    (s.getEg c).state.triggered = true → isFinite T = true → isFinite on = true →
    exec (.egtrig c vt va) s = .next t → fLt T (t.getEg c).state.tZeroEnd = true →
    (t.getEg c).state.onLevel = on ∧ fEq (egEval fastMath (t.getEg c) T) on = true ∧
    (on ≠ 0x80000000#32 → egEval fastMath (t.getEg c) T = on)

/-- Sustain, and zero-length and inverted segments (42_envelope.md section 7). -/
def Obligations.SustainHoldsAndEmptySegmentsAreSkipped : Prop :=
  (∀ (fm : FM) (c : EgContext) (t : Word), c.state.triggered = true → c.state.tRelease = 0x7F800000#32 → isFinite t = true →
    fLe c.state.tZeroEnd t = true → fLe c.state.tAttackEnd t = true → fLe c.state.tDecayEnd t = true →
    egEval fm c t = c.params.sustainLevel) ∧
  (∀ (fm : FM) (c : EgContext) (t pw : Word), fLe c.state.tAttackEnd c.state.tZeroEnd = true →
    egEval fm { c with params := { c.params with attackPow := pw } } t = egEval fm c t) ∧
  (∀ (fm : FM) (c : EgContext) (t pw : Word), fLe c.state.tDecayEnd c.state.tAttackEnd = true →
    egEval fm { c with params := { c.params with decayPow := pw } } t = egEval fm c t)

/-- trigger ≤ zero-end ≤ attack-end ≤ decay-end ≤ release ≤ off-end (42_envelope.md section 7). -/
def Obligations.EnvelopeTimestampsStayInOrder : Prop :=
  (∀ c, EgInOrder (State.reset.getEg c).state) ∧
  (∀ (c : Ctx) (vt va : VReg) (s t : State),
    let T := (s.getV vt).get 0
    let A := (s.getV va).get 0
    isFinite T = true → Duration A → Duration (s.getEg c).params.attackSecs → Duration (s.getEg c).params.decaySecs →
    Duration (s.getEg c).params.releaseSecs → isNaN (fMul A (fAbs (egEval fastMath (s.getEg c) T))) = false →
    exec (.egtrig c vt va) s = .next t → EgInOrder (t.getEg c).state) ∧
  (∀ (c : Ctx) (vt : VReg) (s t : State),
    let T := (s.getV vt).get 0
    isFinite T = true → fLe (s.getEg c).state.tTrigger T = true → Duration (s.getEg c).params.releaseSecs →
    EgInOrder (s.getEg c).state → exec (.egoff c vt) s = .next t → EgInOrder (t.getEg c).state)

/-- Only EGTRIG and EGOFF of a context, and reset, change its state registers (42_envelope.md sections 1 and 4). -/
def Obligations.EnvelopeStateIsWrittenByItsCommandsAlone : Prop :=
  ∀ (s t : State) (c : Ctx), step s = .next t →
    ((t.getEg c).state = (s.getEg c).state ∨ (∃ rest, s.inputs = .reset :: rest) ∨
      (s.runState = .running ∧ ((∃ a b, decode (s.cmdWord s.cp.toNat) = .ok (.egtrig c a b)) ∨
        ∃ a, decode (s.cmdWord s.cp.toNat) = .ok (.egoff c a)))) ∧
    ((s.getEg c).state.triggered = true → (t.getEg c).state.triggered = true ∨ ∃ rest, s.inputs = .reset :: rest)

/-- KCLR (R280). -/
def Obligations.ClearZeroesTheBufferOfTheAccumulator : Prop :=
  EncodedBy 0xA0000000#32 0xFFFFFFFF#32 (fun _ => .kclr) ∧
  ∀ s : State,
    (s.bufSize = 0#32 → ∃ t, exec .kclr s = .next t ∧ Faulted .bufsizeUnset (encode .kclr) 0#32 s t) ∧
    (LegalBufSize s.bufSize → ∃ t, exec .kclr s = .next t ∧
      WritesOnlyDmem (fun a => 0x1000 ≤ a ∧ a < 0x1000 + 2 * s.bufSize.toNat) s t ∧
      ∀ k < 2 * s.bufSize.toNat, t.dmemWord (0x1000 + k) = 0x00000000#32)

/-- KRENDER's checks (R282). -/
def Obligations.RenderChecksComeBeforeAnyChange : Prop :=
  EncodedBy 0xA4000000#32 0xFC3FFFFF#32 (fun w => .krender (field w 22 4)) ∧
  ∀ (v : BitVec 4) (s : State),
    (10 ≤ v.toNat → ∃ t, exec (.krender v) s = .next t ∧ Faulted .badIndex (encode (.krender v)) (v.setWidth 32) s t) ∧
    (v.toNat < 10 → s.bufSize = 0#32 →
      ∃ t, exec (.krender v) s = .next t ∧ Faulted .bufsizeUnset (encode (.krender v)) 0#32 s t)

/-- The silence fast-path (R287, R288). -/
def Obligations.SilentRenderOnlyCounts : Prop :=
  ∀ (v : Fin 10) (s : State), s.bufSize ≠ 0#32 → Kr.Silent s v →
    ∃ t, exec (.krender (BitVec.ofNat 4 v.val)) s = .next t ∧ Ended s t ∧
      t.renderCount = s.renderCount + 1#32 ∧ t.fastpathCount = s.fastpathCount + 1#32 ∧ t.ovtIterCount = s.ovtIterCount ∧
      SameV s t ∧ SameEg s t ∧ SameParams s t ∧ SameDmem s t ∧ SameCmd s t ∧ SameModel s t

/-- KRENDER of a sounding voice, word for word (43_synthesis_kernel.md section 2). -/
def Obligations.RenderEqualsItsClosedForm : Prop :=
  ∀ (v : Fin 10) (s : State), LegalBufSize s.bufSize → ¬ Kr.Silent s v →
    ∃ t, exec (.krender (BitVec.ofNat 4 v.val)) s = .next t ∧
      WritesOnlyDmem (Kr.Writes s v) s { t with ovtIterCount := s.ovtIterCount, renderCount := s.renderCount } ∧
      t.renderCount = s.renderCount + 1#32 ∧ t.fastpathCount = s.fastpathCount ∧
      t.ovtIterCount = s.ovtIterCount + BitVec.ofNat 32 (Kr.placed s).length ∧
      (∀ i ∈ Kr.placed s,
        t.dmemWord (0xC000 + 2 * (600 * v.val + i)) = Kr.wrap (Kr.acc s v i s.bufSize.toNat) ∧
        t.dmemWord (0xC000 + 2 * (600 * v.val + i) + 1) =
          if Kr.ring s then Kr.wrap (Kr.racc s v i s.bufSize.toNat) else s.dmemWord (0xC000 + 2 * (600 * v.val + i) + 1)) ∧
      (∀ i < 600, i ∉ Kr.placed s →
        t.dmemWord (0xC000 + 2 * (600 * v.val + i)) = s.dmemWord (0xC000 + 2 * (600 * v.val + i)) ∧
        t.dmemWord (0xC000 + 2 * (600 * v.val + i) + 1) = s.dmemWord (0xC000 + 2 * (600 * v.val + i) + 1)) ∧
      (∀ n < s.bufSize.toNat,
        t.dmemWord (0x1000 + 2 * n) = fAdd (s.dmemWord (0x1000 + 2 * n)) (fMul (Kr.vbLeft s v n) (Kr.vol s v n)) ∧
        t.dmemWord (0x1000 + 2 * n + 1) = fAdd (s.dmemWord (0x1000 + 2 * n + 1)) (fMul (Kr.vbRight s v n) (Kr.vol s v n)))

/-- Every command but STV keeps every overtone phase in [0, TWO_PI) (43_synthesis_kernel.md sections 2 and 3, 10_state.md section 6). -/
def Obligations.OvertonePhasesStayInRange : Prop :=
  OtsInRange State.reset ∧
  ∀ (s t : State) (w : Word) (i : Instr), (s.bufSize = 0#32 ∨ LegalBufSize s.bufSize) → OtsInRange s → Fetches s w →
    decode w = .ok i → (∀ r a, i ≠ .stv r a) → step s = .next t → OtsInRange t

/-- The anti-aliasing mute does not change any phase (43_synthesis_kernel.md section 3). -/
def Obligations.CutoffControlDoesNotReachThePhases : Prop :=
  ∀ (v : Fin 10) (s s' t t' : State), LegalBufSize s.bufSize → s' = { s with dmem := s'.dmem } →
    (∀ a, ¬ (0x2400 + 0x1000 * v.val ≤ a / 4 ∧ a / 4 < 0x2800 + 0x1000 * v.val) → s'.dmemByte a = s.dmemByte a) →
    exec (.krender (BitVec.ofNat 4 v.val)) s = .next t → exec (.krender (BitVec.ofNat 4 v.val)) s' = .next t' →
    (∀ a, 0xC000 ≤ a → a ≤ 0xEEDF → t'.dmemWord a = t.dmemWord a) ∧ SameCounters t t' ∧ SameV t t' ∧ Ended s t ∧ Ended s' t'

/-- No command can write the command RAM (20_memory.md sections 1 and 4). -/
def Obligations.NoCommandWritesTheCommandRam : Prop :=
  (∀ s t : State, s.inputs = [] → step s = .next t → SameCmd s t) ∧
  (∀ s t : State, step s = .next t → SameCmd s t ∨ (∃ rest, s.inputs = .reset :: rest) ∨
    ∃ addr v rest, s.inputs = .write addr 4 v :: rest ∧ 0x40000 ≤ addr.toNat ∧ addr.toNat < 0x41000)

/-- The three event counters change only by KRENDER and reset (60_exceptions.md section 4, 10_state.md section 4). -/
def Obligations.CountersChangeOnlyByKrender : Prop :=
  (∀ s t : State, step s = .next t → SameCounters s t ∨ (∃ rest, s.inputs = .reset :: rest) ∨
    (s.runState = .running ∧ ∃ v, decode (s.cmdWord s.cp.toNat) = .ok (.krender v))) ∧
  (∀ (s t : State) v c, exec (.krender v) s = .next t → s.runState = .running → t.runState = .faulted c → c ≠ .cpOverrun →
    SameCounters s t)

/-- FAULT_CP, FAULT_WORD and FAULT_INFO are written when a fault is taken and at no other time (10_state.md section 4, 60_exceptions.md section 2). -/
def Obligations.FaultRegistersAreWrittenByFaultsAlone : Prop :=
  ∀ s t : State, step s = .next t → SameFaultRegs s t ∨ (∃ rest, s.inputs = .reset :: rest) ∨
    (s.runState = .running ∧ (∃ c, t.runState = .faulted c) ∧ t.faultCp = s.cp.setWidth 32)

/-- The invariant of the machine is kept by every step (10_state.md sections 4 and 5, 20_memory.md section 1, 60_exceptions.md sections 1 and 2). -/
def Obligations.EveryStepKeepsTheInvariant : Prop :=
  ∀ s t : State, Inv s → step s = .next t → Inv t

/-- The state after reset meets the invariant (70_reset_and_hazards.md section 1). -/
def Obligations.ResetMeetsTheInvariant : Prop :=
  Inv State.reset

/-- What reset leaves (70_reset_and_hazards.md section 1). -/
def Obligations.ResetGivesEveryRegisterItsValue : Prop :=
  ResetValues State.reset ∧
  ∀ (s : State) (rest : List HostMove), s.inputs = .reset :: rest →
    ∃ t, step s = .next t ∧ ResetValues t ∧ t.inputs = rest

/-- GO (R351). -/
def Obligations.GoStartsTheSequencerFromIdleAlone : Prop :=
  (∀ (s : State) (g : Word) rest, s.inputs = .write 0x60000#19 4 g :: rest → s.runState = .idle →
    step s = .next { s with cp := g.extractLsb' 0 10, done := false, runState := .running, inputs := rest }) ∧
  (∀ (s : State) (g : Word) rest, s.inputs = .write 0x60000#19 4 g :: rest → s.runState ≠ .idle →
    step s = .next { s with inputs := rest }) ∧
  (∀ (s : State) rest, s.inputs = .read 0x60000#19 4 :: rest →
    step s = .next { s with portData := 0x00000000#32, inputs := rest })

/-- What a host read returns (20_memory.md section 3, 60_exceptions.md section 5). -/
def Obligations.HostReadsFollowThePortMap : Prop :=
  ∀ (s : State), s.runState ≠ .running →
    (∀ a < 65536, ¬ Reserved a → hostRead s (BitVec.ofNat 19 (4 * a)) 4 = .next { s with portData := s.dmemWord a }) ∧
    (∀ a < 65536, Reserved a → hostRead s (BitVec.ofNat 19 (4 * a)) 4 = .next { s with portData := 0#32 }) ∧
    (∀ k < 1024, hostRead s (BitVec.ofNat 19 (0x40000 + 4 * k)) 4 = .next { s with portData := s.cmdWord k }) ∧
    (∀ n < 4096, ∀ a w, CrRow s n a w → hostRead s (BitVec.ofNat 19 (0x50000 + 4 * n)) 4 = .next { s with portData := w }) ∧
    (∀ n < 4096, CrReserved n → hostRead s (BitVec.ofNat 19 (0x50000 + 4 * n)) 4 = .next { s with portData := 0#32 }) ∧
    hostRead s 0x60004#19 4 = .next { s with portData := s.status } ∧
    (∀ addr : BitVec 19, addr.toNat % 4 = 0 →
      (0x41000 ≤ addr.toNat ∧ addr.toNat < 0x50000) ∨ (0x54000 ≤ addr.toNat ∧ addr.toNat < 0x60004) ∨ 0x60008 ≤ addr.toNat →
      hostRead s addr 4 = .next { s with portData := 0#32 })

/-- What a host write changes (20_memory.md section 3, 60_exceptions.md section 5). -/
def Obligations.HostWritesFollowThePortMap : Prop :=
  ∀ (s : State) (v : Word), s.runState ≠ .running →
    (∀ a < 65536, ¬ Reserved a → ∃ t, hostWrite s (BitVec.ofNat 19 (4 * a)) 4 v = .next t ∧ t.dmemWord a = v ∧
      SameDmemOutside (fun x => x = a) s t ∧ { t with dmem := s.dmem } = s) ∧
    (∀ a < 65536, Reserved a → hostWrite s (BitVec.ofNat 19 (4 * a)) 4 v = .next s) ∧
    (∀ k < 1024, ∃ t, hostWrite s (BitVec.ofNat 19 (0x40000 + 4 * k)) 4 v = .next t ∧ t.cmdWord k = v ∧
      (∀ x, x / 4 ≠ k → t.cmdByte x = s.cmdByte x) ∧ { t with cmd := s.cmd } = s) ∧
    (∀ n < 4096, ∀ w, CrRow s n .rw w → ∃ t, hostWrite s (BitVec.ofNat 19 (0x50000 + 4 * n)) 4 v = .next t ∧
      CrRow t n .rw v ∧ SameCrBut n s t ∧ SameV s t ∧ SameDmem s t ∧ SameCmd s t ∧ SameCounters s t ∧ SameModel s t ∧
      SameFaultRegs s t ∧ t.runState = s.runState ∧ t.done = s.done ∧ t.cp = s.cp) ∧
    (LegalBufSize v → hostWrite s 0x50044#19 4 v = .next { s with bufSize := v }) ∧
    (¬ LegalBufSize v → hostWrite s 0x50044#19 4 v = .next s) ∧
    (∀ c : Ctx, hostWrite s (BitVec.ofNat 19 (0x50000 + 4 * (0x100 + 32 * c.toNat + 8))) 4 v =
      .next (s.setEg c { s.getEg c with autoRelease := v.getLsbD 0 })) ∧
    (∀ n < 4096, (CrReserved n ∨ ∃ w, CrRow s n .ro w) → hostWrite s (BitVec.ofNat 19 (0x50000 + 4 * n)) 4 v = .next s) ∧
    hostWrite s 0x60004#19 4 v = .next s ∧
    (∀ addr : BitVec 19, addr.toNat % 4 = 0 →
      (0x41000 ≤ addr.toNat ∧ addr.toNat < 0x50000) ∨ (0x54000 ≤ addr.toNat ∧ addr.toNat < 0x60000) ∨ 0x60008 ≤ addr.toNat →
      hostWrite s addr 4 v = .next s)

/-- Host accesses outside the host's duties have no move (60_exceptions.md section 5, 20_memory.md sections 2 and 4). -/
def Obligations.HostBreachesAreRefused : Prop :=
  (∀ (s : State) (addr : BitVec 19) (width : Nat) (v : Word), width ≠ 4 ∨ addr.toNat % 4 ≠ 0 →
    hostRead s addr width = .refused .hostAccessNotAligned32 ∧ hostWrite s addr width v = .refused .hostAccessNotAligned32) ∧
  (∀ (s : State) (addr : BitVec 19) (v : Word), s.runState = .running → addr.toNat % 4 = 0 →
    addr.toNat < 0x41000 ∨ (0x50000 ≤ addr.toNat ∧ addr.toNat < 0x54000) →
    hostRead s addr 4 = .refused .hostAccessWhileRunning ∧ hostWrite s addr 4 v = .refused .hostAccessWhileRunning) ∧
  (∀ s : State, s.runState = .running → hostRead s 0x60004#19 4 = .next { s with portData := s.status })

/-- The host neither reads nor writes a vector register (60_exceptions.md section 4). -/
def Obligations.HostMovesLeaveTheVectorRegistersAlone : Prop :=
  (∀ (s t : State) (m : HostMove) rest, s.inputs = m :: rest → m ≠ .pass → m ≠ .reset → step s = .next t → SameV s t) ∧
  (∀ (s t t' : State) (vs : Vector Lanes 16) (addr : BitVec 19) (n : Nat), hostRead s addr n = .next t →
    hostRead { s with vregs := vs } addr n = .next t' → t'.portData = t.portData)
end

