-- ==== Sys2Proof/Laws/Rounding.lean ====
section
/-! SUPPORT. The magnitude bits of a word and the value they stand for: order, spacing, and that roundUnits rounds the exact
quotient once to nearest even (00_scope.md R11). -/

namespace Sys2Proof.Laws

open Sys2Proof.Machine Sys2Proof.Safety

/-- The value of magnitude bits written with a significand r, a full 24 bits unless the shift s is 0. -/
theorem magUnits_scaled {s r : Nat} (hr : r ≤ 2 ^ 24) (hs : s = 0 ∨ 2 ^ 23 ≤ r) : magUnits (s * 2 ^ 23 + r) = r * 2 ^ s := by
  unfold magUnits
  rcases Nat.lt_or_ge r (2 ^ 23) with h | h
  · have : s = 0 := by omega
    subst this
    rw [Nat.zero_mul, Nat.zero_add, if_pos h, pow_zero, Nat.mul_one]
  · have hk : ¬ s * 2 ^ 23 + r < 2 ^ 23 := by omega
    rw [if_neg hk]
    rcases Nat.lt_or_ge r (2 ^ 24) with h2 | h2
    · have e1 : (s * 2 ^ 23 + r) / 2 ^ 23 = s + 1 := by omega
      have e2 : (s * 2 ^ 23 + r) % 2 ^ 23 = r - 2 ^ 23 := by omega
      rw [e1, e2, Nat.add_sub_cancel, Nat.add_sub_cancel' h]
    · have hr' : r = 2 ^ 24 := by omega
      have e1 : (s * 2 ^ 23 + r) / 2 ^ 23 = s + 2 := by omega
      have e2 : (s * 2 ^ 23 + r) % 2 ^ 23 = 0 := by omega
      rw [e1, e2, hr', show s + 2 - 1 = s + 1 from rfl, pow_succ]
      ring

/-- Magnitude bits as a shift and a significand. -/
theorem mag_split (k : Nat) : ∃ s r, k = s * 2 ^ 23 + r ∧ r < 2 ^ 24 ∧ (s = 0 ∨ 2 ^ 23 ≤ r) := by
  rcases Nat.lt_or_ge k (2 ^ 23) with h | h
  · exact ⟨0, k, by omega, by omega, .inl rfl⟩
  · exact ⟨k / 2 ^ 23 - 1, 2 ^ 23 + k % 2 ^ 23, by omega, by omega, by omega⟩

/-- A greater magnitude is a greater value. -/
theorem magUnits_strictMono : StrictMono magUnits := by
  refine strictMono_nat_of_lt_succ fun k => ?_
  obtain ⟨s, r, rfl, hr, hs⟩ := mag_split k
  rw [magUnits_scaled (by omega) hs, Nat.add_assoc, magUnits_scaled (by omega) (by omega)]
  exact Nat.mul_lt_mul_of_pos_right (Nat.lt_succ_self r) (by positivity)

/-- The shift of a quotient leaves its significand below 2^24, and at least 2^23 unless the shift is 0. -/
theorem roundShift_bounds (q : Nat) : q < 2 ^ 24 * 2 ^ roundShift q ∧ (roundShift q = 0 ∨ 2 ^ 23 * 2 ^ roundShift q ≤ q) := by
  unfold roundShift
  rcases Nat.eq_zero_or_pos q with rfl | hq
  · simp
  · have h1 : q < 2 ^ (Nat.log2 q + 1) := Nat.lt_log2_self
    have h2 : 2 ^ Nat.log2 q ≤ q := Nat.log2_self_le (by omega)
    rcases Nat.lt_or_ge (Nat.log2 q) 23 with h | h
    · rw [show Nat.log2 q - 23 = 0 by omega]
      refine ⟨?_, .inl rfl⟩
      calc q < 2 ^ (Nat.log2 q + 1) := h1
        _ ≤ 2 ^ 24 := Nat.pow_le_pow_right (by norm_num) (by omega)
        _ = 2 ^ 24 * 2 ^ 0 := by norm_num
    · refine ⟨?_, .inr ?_⟩
      · rw [← pow_add, show 24 + (Nat.log2 q - 23) = Nat.log2 q + 1 by omega]; exact h1
      · rw [← pow_add, show 23 + (Nat.log2 q - 23) = Nat.log2 q by omega]; exact h2

/-- The significand of num/den after its shift, before rounding. -/
theorem significand_bounds (num den : Nat) :
    num / (den * 2 ^ roundShift (num / den)) < 2 ^ 24 ∧
    (roundShift (num / den) = 0 ∨ 2 ^ 23 ≤ num / (den * 2 ^ roundShift (num / den))) := by
  have h := roundShift_bounds (num / den)
  rw [← Nat.div_div_eq_div_mul]
  refine ⟨?_, h.2.imp id fun h2 => ?_⟩
  · exact Nat.div_lt_of_lt_mul (by rw [Nat.mul_comm]; exact h.1)
  · exact (Nat.le_div_iff_mul_le (by positivity)).2 h2

/-- divNearestEven is the quotient or one above it, the nearer one, and of two as near the even one. -/
theorem divNearestEven_cases (n d : Nat) :
    (divNearestEven n d = n / d ∧ (2 * (n % d) < d ∨ (2 * (n % d) = d ∧ n / d % 2 = 0))) ∨
    (divNearestEven n d = n / d + 1 ∧ (d < 2 * (n % d) ∨ (2 * (n % d) = d ∧ n / d % 2 = 1))) := by
  unfold divNearestEven
  split
  · next h =>
    right; refine ⟨rfl, ?_⟩
    simp only [Bool.or_eq_true, decide_eq_true_eq, Bool.and_eq_true, beq_iff_eq] at h
    omega
  · next h =>
    left; refine ⟨rfl, ?_⟩
    simp only [Bool.or_eq_true, decide_eq_true_eq, Bool.and_eq_true, beq_iff_eq] at h
    omega

/-- What roundUnits computes before infinity cuts it off: a shift s, a significand r of at most 2^24, and which of the two
multiples of the spacing d next to num it takes. -/
theorem roundUnits_cases (num den : Nat) (hd : 0 < den) :
    ∃ s n r d, d = den * 2 ^ s ∧ 0 < d ∧ n < 2 ^ 24 ∧ (s = 0 ∨ 2 ^ 23 ≤ n) ∧ n * d ≤ num ∧ num < (n + 1) * d ∧
      roundUnits num den = min (s * 2 ^ 23 + r) 0x7F800000 ∧
      ((r = n ∧ (2 * (num - n * d) < d ∨ (2 * (num - n * d) = d ∧ n % 2 = 0))) ∨
       (r = n + 1 ∧ (d < 2 * (num - n * d) ∨ (2 * (num - n * d) = d ∧ n % 2 = 1)))) := by
  have hpos : 0 < den * 2 ^ roundShift (num / den) := by positivity
  obtain ⟨h1, h2⟩ := significand_bounds num den
  have hmod : num - num / (den * 2 ^ roundShift (num / den)) * (den * 2 ^ roundShift (num / den)) =
      num % (den * 2 ^ roundShift (num / den)) := by
    have := Nat.div_add_mod' num (den * 2 ^ roundShift (num / den)); omega
  refine ⟨roundShift (num / den), num / (den * 2 ^ roundShift (num / den)),
    divNearestEven num (den * 2 ^ roundShift (num / den)), _, rfl, hpos, h1, h2, Nat.div_mul_le_self _ _, ?_, rfl, ?_⟩
  · have := Nat.lt_div_mul_add (a := num) hpos
    rw [Nat.add_mul, Nat.one_mul]; exact this
  · rw [hmod]; exact divNearestEven_cases num _

/-- Of the two values X and X + d next to num, taking the lower. -/
theorem gap_lower {X d num A k M n : Nat} (h1 : X ≤ num) (hr : 2 * (num - X) < d ∨ (2 * (num - X) = d ∧ n % 2 = 0))
    (hA : (A ≤ X ∧ (A = X → k = M)) ∨ X + d ≤ A) (hM : M % 2 = n % 2) :
    gap X num ≤ gap A num ∧ (gap X num = gap A num → k ≠ M → M % 2 = 0) := by
  unfold gap
  rw [Nat.max_eq_right h1, Nat.min_eq_left h1]
  rcases hA with ⟨ha, hk⟩ | ha
  · have : A ≤ num := le_trans ha h1
    rw [Nat.max_eq_right this, Nat.min_eq_left this]
    exact ⟨by omega, fun e hne => absurd (hk (by omega)) hne⟩
  · have : num ≤ A := by omega
    rw [Nat.max_eq_left this, Nat.min_eq_right this]
    exact ⟨by omega, fun e _ => by omega⟩

/-- Of the two values X and X + d next to num, taking the upper. -/
theorem gap_upper {X d num A k M n : Nat} (h1 : X ≤ num) (h2 : num < X + d)
    (hr : d < 2 * (num - X) ∨ (2 * (num - X) = d ∧ n % 2 = 1))
    (hA : A ≤ X ∨ (X + d ≤ A ∧ (A = X + d → k = M + 1))) (hM : M % 2 = n % 2) :
    gap (X + d) num ≤ gap A num ∧ (gap (X + d) num = gap A num → k ≠ M + 1 → (M + 1) % 2 = 0) := by
  unfold gap
  rw [Nat.max_eq_left h2.le, Nat.min_eq_right h2.le]
  rcases hA with ha | ⟨ha, hk⟩
  · have : A ≤ num := le_trans ha h1
    rw [Nat.max_eq_right this, Nat.min_eq_left this]
    exact ⟨by omega, fun e _ => by omega⟩
  · have : num ≤ A := by omega
    rw [Nat.max_eq_left this, Nat.min_eq_right this]
    exact ⟨by omega, fun e hne => absurd (hk (by omega)) hne⟩

/-- One rounding, to nearest, ties to even, infinity from half a unit above the largest finite value. -/
theorem roundUnits_roundsTo (num den : Nat) (hden : 0 < den) : RoundsTo num den (roundUnits num den) := by
  obtain ⟨s, n, r, d, hd, hd0, hn24, hn23, hlo, hhi, hm, hr⟩ := roundUnits_cases num den hden
  have hrn : r = n ∨ r = n + 1 := hr.imp (·.1) (·.1)
  have eN : magUnits (s * 2 ^ 23 + n) * den = n * d := by
    rw [magUnits_scaled (by omega) hn23, hd]; ring
  have eN1 : magUnits (s * 2 ^ 23 + n + 1) * den = n * d + d := by
    rw [Nat.add_assoc, magUnits_scaled (by omega) (by omega), hd]; ring
  rw [Nat.add_mul, Nat.one_mul] at hhi
  refine ⟨by rw [hm]; exact Nat.min_le_right _ _, ?_, ?_⟩
  · have hcut : roundUnits num den = 0x7F800000 ↔ 0x7F800000 ≤ s * 2 ^ 23 + r := by rw [hm]; omega
    rw [hcut]
    obtain ⟨K, hK⟩ : ∃ K, K = 2 ^ 252 * den := ⟨_, rfl⟩
    have hgoal : (2 ^ 25 - 1) * 2 ^ 252 * den = (2 ^ 25 - 1) * K := by rw [hK]; ring
    rw [hgoal]
    rcases Nat.lt_trichotomy s 253 with h | h | h
    · -- the spacing is at most 2^252: both sides are false
      have hp : d ≤ K := by
        rw [hd, hK, Nat.mul_comm]; exact Nat.mul_le_mul_right _ (Nat.pow_le_pow_right (by norm_num) (by omega))
      have h1 : n * d + d ≤ 2 ^ 24 * K := by
        calc n * d + d = (n + 1) * d := by ring
          _ ≤ 2 ^ 24 * K := Nat.mul_le_mul (by omega) hp
      have hK0 : 0 < K := by rw [hK]; positivity
      omega
    · have hp : d = 2 * K := by rw [hd, hK, h]; ring
      have hn' : 2 ^ 23 ≤ n := by omega
      subst h
      rcases Nat.lt_or_ge n (2 ^ 24 - 1) with hl | hl
      · have h1 : n * d + d ≤ (2 ^ 24 - 1) * d := by
          calc n * d + d = (n + 1) * d := by ring
            _ ≤ (2 ^ 24 - 1) * d := Nat.mul_le_mul_right _ (by omega)
        omega
      · have hn2 : n = 2 ^ 24 - 1 := by omega
        subst hn2
        omega
    · have hp : 4 * K ≤ d := by
        have : 2 ^ 254 ≤ 2 ^ s := Nat.pow_le_pow_right (by norm_num) (by omega)
        calc 4 * K = den * 2 ^ 254 := by rw [hK]; ring
          _ ≤ d := by rw [hd]; exact Nat.mul_le_mul_left _ this
      have hn' : 2 ^ 23 ≤ n := by omega
      have h1 : 2 ^ 23 * (4 * K) ≤ n * d := Nat.mul_le_mul hn' hp
      omega
  · intro hlt k _
    have hm' : roundUnits num den = s * 2 ^ 23 + r := by omega
    have hM : (s * 2 ^ 23 + n) % 2 = n % 2 := by
      rw [Nat.add_mod, Nat.mul_mod, show 2 ^ 23 % 2 = 0 by norm_num]; simp
    rw [hm']
    have hmono : k ≤ s * 2 ^ 23 + n ∨ s * 2 ^ 23 + n + 1 ≤ k := by omega
    have hlow : k ≤ s * 2 ^ 23 + n → magUnits k * den ≤ n * d ∧ (magUnits k * den = n * d → k = s * 2 ^ 23 + n) := fun h =>
      ⟨by rw [← eN]; exact Nat.mul_le_mul_right _ (magUnits_strictMono.monotone h),
        fun e => magUnits_strictMono.injective (Nat.eq_of_mul_eq_mul_right hden (e.trans eN.symm))⟩
    have hhigh : s * 2 ^ 23 + n + 1 ≤ k →
        n * d + d ≤ magUnits k * den ∧ (magUnits k * den = n * d + d → k = s * 2 ^ 23 + n + 1) := fun h =>
      ⟨by rw [← eN1]; exact Nat.mul_le_mul_right _ (magUnits_strictMono.monotone h),
        fun e => magUnits_strictMono.injective (Nat.eq_of_mul_eq_mul_right hden (e.trans eN1.symm))⟩
    rcases hr with ⟨rfl, hr⟩ | ⟨rfl, hr⟩
    · rw [eN]
      exact gap_lower hlo hr (hmono.imp hlow fun h => (hhigh h).1) hM
    · rw [← Nat.add_assoc, eN1]
      exact gap_upper hlo hhi hr (hmono.imp (fun h => (hlow h).1) hhigh) hM

end Sys2Proof.Laws
end

