-- ==== Sys2Proof/Laws/Float.lean ====
section
/-! SUPPORT. Words as sign and magnitude, their order as values, and the small laws of the binary32 operations
(00_scope.md R9, R11, R12). -/

namespace Sys2Proof.Laws

open Sys2Proof.Machine Sys2Proof.Safety

/-! ## Sign and magnitude -/

theorem magBits_lt (x : Word) : magBits x < 2 ^ 31 := Nat.mod_lt _ (by norm_num)

theorem signBit_eq (x : Word) : signBit x = decide (2 ^ 31 ≤ x.toNat) := by
  have h := x.isLt
  unfold signBit
  by_cases h2 : 2 ^ 31 ≤ x.toNat
  · have : x.toNat / 2 ^ 31 = 1 := by omega
    simp only [this, h2]; rfl
  · have : x.toNat / 2 ^ 31 = 0 := by omega
    simp only [this, h2]; rfl

theorem toNat_eq (x : Word) : x.toNat = magBits x + (if signBit x then 2 ^ 31 else 0) := by
  have h := x.isLt
  rw [signBit_eq]
  unfold magBits
  by_cases h2 : 2 ^ 31 ≤ x.toNat <;> simp only [h2, decide_true, decide_false, if_true, if_false, Bool.false_eq_true] <;> omega

/-- Sign and magnitude make the word. -/
theorem word_ext {x y : Word} (hs : signBit x = signBit y) (hm : magBits x = magBits y) : x = y :=
  BitVec.eq_of_toNat_eq (by rw [toNat_eq x, toNat_eq y, hs, hm])

theorem toNat_packWord (sg : Bool) {m : Nat} (hm : m < 2 ^ 31) :
    (packWord sg m).toNat = m + (if sg then 2 ^ 31 else 0) := by
  cases sg
  · simp only [packWord, Bool.false_eq_true, if_false, BitVec.toNat_ofNat]; omega
  · simp only [packWord, if_true, BitVec.toNat_ofNat]; omega

theorem magBits_packWord (sg : Bool) {m : Nat} (hm : m < 2 ^ 31) : magBits (packWord sg m) = m := by
  unfold magBits; rw [toNat_packWord sg hm]; cases sg <;> simp only [Bool.false_eq_true, if_true, if_false] <;> omega

theorem signBit_packWord (sg : Bool) {m : Nat} (hm : m < 2 ^ 31) : signBit (packWord sg m) = sg := by
  rw [signBit_eq, toNat_packWord sg hm]; cases sg <;> simp only [Bool.false_eq_true, if_true, if_false] <;> simp; omega

theorem packWord_self (x : Word) : packWord (signBit x) (magBits x) = x :=
  word_ext (signBit_packWord _ (magBits_lt x)) (magBits_packWord _ (magBits_lt x))

theorem fNeg_parts (x : Word) : signBit (fNeg x) = !signBit x ∧ magBits (fNeg x) = magBits x := by
  have h : fNeg x = packWord (!signBit x) (magBits x) := by
    apply BitVec.eq_of_toNat_eq
    rw [toNat_packWord _ (magBits_lt x)]
    have hx := toNat_eq x
    have hm := magBits_lt x
    have e : (fNeg x).toNat = x.toNat ^^^ 2 ^ 31 := by simp [fNeg]
    rw [e]
    cases hsg : signBit x
    · rw [hsg] at hx
      have : x.toNat ^^^ 2 ^ 31 = x.toNat + 2 ^ 31 := by
        have h2 := Nat.two_pow_add_eq_or_of_lt (i := 31) (b := x.toNat) (by simp at hx; omega) 1
        have h3 : x.toNat ^^^ 2 ^ 31 = 2 ^ 31 ||| x.toNat := by
          apply Nat.eq_of_testBit_eq
          intro i
          rw [Nat.testBit_xor, Nat.testBit_or, Nat.testBit_two_pow]
          by_cases hi : 31 = i
          · subst hi
            have : x.toNat.testBit 31 = false := Nat.testBit_lt_two_pow (by simp at hx; omega)
            simp [this]
          · simp [hi]
        rw [h3, ← Nat.mul_one (2 ^ 31), ← h2]; omega
      rw [this]; simp at hx ⊢; omega
    · rw [hsg] at hx
      simp only [if_true] at hx
      have h2 := Nat.two_pow_add_eq_or_of_lt (i := 31) (b := magBits x) hm 1
      have h3 : x.toNat ^^^ 2 ^ 31 = magBits x := by
        rw [hx]
        apply Nat.eq_of_testBit_eq
        intro i
        rw [show magBits x + 2 ^ 31 = 2 ^ 31 * 1 + magBits x by ring, h2, Nat.testBit_xor, Nat.testBit_or, Nat.mul_one,
          Nat.testBit_two_pow]
        by_cases hi : 31 = i
        · subst hi
          have : (magBits x).testBit 31 = false := Nat.testBit_lt_two_pow hm
          simp [this]
        · simp [hi]
      rw [h3]; simp
  rw [h]
  exact ⟨signBit_packWord _ (magBits_lt x), magBits_packWord _ (magBits_lt x)⟩

/-! ## Values -/

theorem units_eq (x : Word) : units x = magUnits (magBits x) := by
  unfold units magUnits expBits
  by_cases h : magBits x < 2 ^ 23
  · rw [if_pos (by omega), if_pos h]; omega
  · rw [if_neg (by omega), if_neg h]

/-- The biased exponent is bits 30:23. -/
theorem expBits_eq (x : Word) : expBits x = (x.extractLsb' 23 8).toNat := by
  have h := x.isLt
  simp only [expBits, magBits, BitVec.extractLsb'_toNat, Nat.shiftRight_eq_div_pow]
  omega

theorem finite_iff (x : Word) : isFinite x = true ↔ magBits x < 0x7F800000 := by simp [isFinite]
theorem nan_iff (x : Word) : isNaN x = true ↔ 0x7F800000 < magBits x := by simp [isNaN]
theorem inf_iff (x : Word) : isInf x = true ↔ magBits x = 0x7F800000 := by simp [isInf]

theorem extUnits_finite {x : Word} (h : isFinite x = true) : extUnits x = signedUnits x := by
  have hi : isInf x = false := by
    rw [finite_iff] at h
    cases hh : isInf x
    · rfl
    · rw [inf_iff] at hh; omega
  unfold extUnits signedUnits
  rw [hi, units_eq]; rfl

/-! ## Rounding: exact values stay, order stays -/

theorem magUnits_max : magUnits 0x7F7FFFFF = (2 ^ 24 - 1) * 2 ^ 253 := by
  rw [show 0x7F7FFFFF = 253 * 2 ^ 23 + (2 ^ 24 - 1) by norm_num, magUnits_scaled (by norm_num) (by norm_num)]

theorem magUnits_lt_inf {k : Nat} (h : k < 0x7F800000) : magUnits k < (2 ^ 25 - 1) * 2 ^ 252 := by
  have h1 : magUnits k ≤ magUnits 0x7F7FFFFF := magUnits_strictMono.monotone (by omega)
  rw [magUnits_max, show (2 : Nat) ^ 253 = 2 * 2 ^ 252 by rw [pow_succ]; ring] at h1
  have h2 : 0 < (2 : Nat) ^ 252 := by positivity
  generalize (2 : Nat) ^ 252 = K at *
  omega

/-- A value that magnitude bits hold is not rounded. -/
theorem roundUnits_exact {k : Nat} (hk : k < 0x7F800000) : roundUnits (magUnits k) 1 = k := by
  obtain ⟨h1, h2, h3⟩ := roundUnits_roundsTo (magUnits k) 1 (by norm_num)
  have hne : roundUnits (magUnits k) 1 ≠ 0x7F800000 := fun e => by
    have := h2.1 e
    rw [Nat.mul_one] at this
    exact absurd (magUnits_lt_inf hk) (by omega)
  have := (h3 (by omega) k hk).1
  unfold gap at this
  exact magUnits_strictMono.injective (by omega)

theorem eq_of_gaps {X Y m n : Nat} (hYX : Y < X) (hmn : m ≤ n) (h1 : gap X m ≤ gap Y m) (h2 : gap Y n ≤ gap X n) : m = n := by
  unfold gap at h1 h2; omega

/-- Rounding keeps order. -/
theorem roundUnits_mono {m n den : Nat} (hd : 0 < den) (h : m ≤ n) : roundUnits m den ≤ roundUnits n den := by
  obtain ⟨a1, a2, a3⟩ := roundUnits_roundsTo m den hd
  obtain ⟨b1, b2, b3⟩ := roundUnits_roundsTo n den hd
  by_contra hlt
  have hlt : roundUnits n den < roundUnits m den := by omega
  have hn : roundUnits n den < 0x7F800000 := by omega
  rcases Nat.lt_or_ge (roundUnits m den) 0x7F800000 with hm | hm
  · have h1 := (a3 hm _ hn).1
    have h2 := (b3 hn _ hm).1
    have h3 : magUnits (roundUnits n den) * den < magUnits (roundUnits m den) * den :=
      Nat.mul_lt_mul_of_pos_right (magUnits_strictMono hlt) hd
    have e : m = n := eq_of_gaps h3 h h1 h2
    rw [e] at hlt
    exact absurd hlt (Nat.lt_irrefl _)
  · have := b2.2 (le_trans (a2.1 (by omega)) h)
    omega

theorem roundUnits_le_inf (m den : Nat) : roundUnits m den ≤ 0x7F800000 := Nat.min_le_right _ _

theorem roundUnits_zero (den : Nat) : roundUnits 0 den = 0 := by
  simp [roundUnits, roundShift, divNearestEven, Nat.log2_zero]

/-! ## Order -/

/-- The rounded word of a whole number of units, with the sign of the number. -/
def roundInt (e : Int) : Word := packWord (decide (e < 0)) (roundUnits e.natAbs 1)

theorem lt31 {m : Nat} (h : m ≤ 0x7F800000) : m < 2 ^ 31 := by omega

theorem orderKey_packWord (sg : Bool) {m : Nat} (hm : m < 2 ^ 31) :
    orderKey (packWord sg m) = if sg then -(m : Int) else m := by
  unfold orderKey; rw [signBit_packWord sg hm, magBits_packWord sg hm]

theorem orderKey_roundInt (e : Int) : orderKey (roundInt e) = if e < 0 then -(roundUnits e.natAbs 1 : Int) else roundUnits e.natAbs 1 := by
  unfold roundInt
  rw [orderKey_packWord _ (lt31 (roundUnits_le_inf _ _))]
  by_cases h : e < 0 <;> simp [h]

theorem not_nan_packWord (sg : Bool) {m : Nat} (hm : m ≤ 0x7F800000) : isNaN (packWord sg m) = false := by
  cases h : isNaN (packWord sg m)
  · rfl
  · rw [nan_iff, magBits_packWord sg (lt31 hm)] at h; omega

theorem orderKey_roundInt_mono {e f : Int} (h : e ≤ f) : orderKey (roundInt e) ≤ orderKey (roundInt f) := by
  rw [orderKey_roundInt, orderKey_roundInt]
  by_cases he : e < 0
  · by_cases hf : f < 0
    · have := roundUnits_mono (den := 1) (by norm_num) (show f.natAbs ≤ e.natAbs by omega)
      rw [if_pos he, if_pos hf]; omega
    · rw [if_pos he, if_neg hf]; omega
  · have hf : ¬ f < 0 := by omega
    have := roundUnits_mono (den := 1) (by norm_num) (show e.natAbs ≤ f.natAbs by omega)
    rw [if_neg he, if_neg hf]; omega

/-- The value of a finite word rounds to a word of its own place in the order. -/
theorem orderKey_roundInt_self {x : Word} (h : isFinite x = true) : orderKey (roundInt (signedUnits x)) = orderKey x := by
  have hm := (finite_iff x).1 h
  rw [orderKey_roundInt]
  unfold signedUnits orderKey
  have hu : roundUnits (magUnits (magBits x)) 1 = magBits x := roundUnits_exact hm
  rw [units_eq]
  cases signBit x
  · simp only [Bool.false_eq_true, if_false]
    rw [if_neg (by omega), Int.natAbs_natCast, hu]
  · simp only [if_true, Int.natAbs_neg, Int.natAbs_natCast, hu]
    by_cases h0 : magUnits (magBits x) = 0
    · have : magBits x = 0 := magUnits_strictMono.injective (h0.trans (by rfl))
      simp [this]
    · rw [if_pos (by omega)]

/-- A finite sum has the place in the order of the exact sum's rounded word. -/
theorem orderKey_addFinite (a b : Word) : orderKey (addFinite a b) = orderKey (roundInt (signedUnits a + signedUnits b)) := by
  unfold addFinite
  by_cases h : signedUnits a + signedUnits b = 0
  · rw [if_pos h, h, orderKey_packWord _ (by norm_num), orderKey_roundInt]
    simp [roundUnits_zero]
  · rw [if_neg h]; rfl

theorem not_nan_addFinite (a b : Word) : isNaN (addFinite a b) = false := by
  unfold addFinite
  split
  · exact not_nan_packWord _ (by norm_num)
  · exact not_nan_packWord _ (roundUnits_le_inf _ _)

theorem fLe_iff (a b : Word) : fLe a b = true ↔ isNaN a = false ∧ isNaN b = false ∧ orderKey a ≤ orderKey b := by
  simp [fLe, and_assoc]
theorem fLt_iff (a b : Word) : fLt a b = true ↔ isNaN a = false ∧ isNaN b = false ∧ orderKey a < orderKey b := by
  simp [fLt, and_assoc]

theorem fLe_trans {a b c : Word} (h1 : fLe a b = true) (h2 : fLe b c = true) : fLe a c = true := by
  rw [fLe_iff] at *; exact ⟨h1.1, h2.2.1, by omega⟩

theorem fLe_refl {a : Word} (h : isNaN a = false) : fLe a a = true := by rw [fLe_iff]; exact ⟨h, h, le_refl _⟩

/-- The smaller of two numbers is below both. -/
theorem fMin_le {a b : Word} (ha : isNaN a = false) (hb : isNaN b = false) : fLe (fMin a b) a = true ∧ fLe (fMin a b) b = true := by
  unfold fMin
  cases h : fLt a b
  · simp only [Bool.false_eq_true, if_false]
    have hn : ¬ (isNaN a = false ∧ isNaN b = false ∧ orderKey a < orderKey b) := fun hh => by
      rw [← fLt_iff, h] at hh; cases hh
    rw [fLe_iff, fLe_iff]
    exact ⟨⟨hb, ha, not_lt.1 fun hc => hn ⟨ha, hb, hc⟩⟩, ⟨hb, hb, le_refl _⟩⟩
  · simp only [if_true]
    rw [fLt_iff] at h
    rw [fLe_iff, fLe_iff]
    exact ⟨⟨ha, ha, le_refl _⟩, ⟨ha, hb, h.2.2.le⟩⟩

/-- What lies below both lies below the smaller. -/
theorem le_fMin {a b c : Word} (ha : fLe c a = true) (hb : fLe c b = true) : fLe c (fMin a b) = true := by
  unfold fMin; split <;> assumption

/-- A sum with a number that is not negative is not below its first term; the term is no −∞. -/
theorem fLe_fAdd {a x : Word} (ha : fLt 0xFF800000#32 a = true) (hx : fLe 0x00000000#32 x = true) :
    fLe a (fAdd a x) = true := by
  rw [fLt_iff] at ha
  rw [fLe_iff] at hx
  have hna := ha.2.1
  have hnx := hx.2.1
  have hkx : 0 ≤ orderKey x := hx.2.2
  have hka : -(0x7F800000 : Int) < orderKey a := ha.2.2
  have hadd : fAdd a x = addNumbers a x := by simp [fAdd, hna, hnx]
  rw [hadd]
  unfold addNumbers
  have hma : magBits a ≤ 0x7F800000 := by
    by_contra h; have := (nan_iff a).2 (by omega); rw [hna] at this; cases this
  have hmx : magBits x ≤ 0x7F800000 := by
    by_contra h; have := (nan_iff x).2 (by omega); rw [hnx] at this; cases this
  cases hia : isInf a
  · have hfa : isFinite a = true := by
      rw [finite_iff]
      have : ¬ isInf a = true := by rw [hia]; simp
      rw [inf_iff] at this; omega
    simp only [Bool.false_eq_true, if_false]
    cases hix : isInf x
    · have hfx : isFinite x = true := by
        rw [finite_iff]
        have : ¬ isInf x = true := by rw [hix]; simp
        rw [inf_iff] at this; omega
      simp only [Bool.false_eq_true, if_false]
      rw [fLe_iff]
      refine ⟨hna, not_nan_addFinite a x, ?_⟩
      rw [orderKey_addFinite, ← orderKey_roundInt_self hfa]
      apply orderKey_roundInt_mono
      have : 0 ≤ signedUnits x := by
        unfold signedUnits
        unfold orderKey at hkx
        cases hs : signBit x
        · simp
        · rw [hs] at hkx
          simp only [if_true] at hkx ⊢
          have h0 : magBits x = 0 := by omega
          rw [units_eq, h0]
          simp [magUnits]
      omega
    · simp only [if_true]
      rw [fLe_iff]
      refine ⟨hna, hnx, ?_⟩
      rw [inf_iff] at hix
      unfold orderKey at hkx ⊢
      cases hs : signBit x
      · simp only [Bool.false_eq_true, if_false, hix]
        split <;> omega
      · rw [hs, hix] at hkx; simp at hkx
  · simp only [if_true]
    have hsa : signBit a = false := by
      rw [inf_iff] at hia
      cases hs : signBit a
      · rfl
      · unfold orderKey at hka; rw [hs, hia] at hka; simp at hka
    have : (isInf x && signBit a != signBit x) = false := by
      cases hix : isInf x
      · rfl
      · rw [inf_iff] at hix
        cases hs : signBit x
        · simp [hsa]
        · unfold orderKey at hkx; rw [hs, hix] at hkx; simp at hkx
    rw [this]
    simp only [Bool.false_eq_true, if_false]
    exact fLe_refl hna

end Sys2Proof.Laws
end

