-- ==== Sys2Proof/Laws/Contract.lean ====
section
/-! SUPPORT. The accuracy contract of a FastMath configuration (41_fastmath.md R182 to R187) asks for nothing impossible: the
real functions themselves, cut to 24 bits, with the values the spec fixes, meet it with the bounds of ASC-1. -/

namespace Sys2Proof.Laws

open Sys2Proof.Machine Sys2Proof.Safety

/-! ## Cutting a real to 24 bits -/

/-- Magnitude bits of a positive real of normal size, rounded down. -/
noncomputable def cutMag (r : ℝ) : Nat :=
  let q := ⌊r * 2 ^ 149⌋₊
  (Nat.log2 q - 23) * 2 ^ 23 + q / 2 ^ (Nat.log2 q - 23)

theorem cutMag_spec {r : ℝ} (h1 : 2 ^ 23 / 2 ^ 149 ≤ r) (h2 : r < 2 ^ 128) :
    2 ^ 23 ≤ cutMag r ∧ cutMag r < 0x7F800000 ∧ (magUnits (cutMag r) : ℝ) / 2 ^ 149 ≤ r ∧
      r - (magUnits (cutMag r) : ℝ) / 2 ^ 149 ≤ r / 2 ^ 23 := by
  have hx1 : (2 : ℝ) ^ 23 ≤ r * 2 ^ 149 := by rwa [div_le_iff₀ (by positivity)] at h1
  have hx2 : r * 2 ^ 149 < 2 ^ 277 := by
    calc r * 2 ^ 149 < 2 ^ 128 * 2 ^ 149 := by gcongr
      _ = 2 ^ 277 := by rw [← pow_add]
  unfold cutMag
  have hr0 : 0 ≤ r * 2 ^ 149 := le_trans (by positivity) hx1
  generalize hq : ⌊r * 2 ^ 149⌋₊ = q
  have hq1 : (q : ℝ) ≤ r * 2 ^ 149 := hq ▸ Nat.floor_le hr0
  have hq2 : r * 2 ^ 149 < q + 1 := hq ▸ Nat.lt_floor_add_one _
  have hq23 : 2 ^ 23 ≤ q := hq ▸ Nat.le_floor (by exact_mod_cast hx1)
  have hq277 : q < 2 ^ 277 := by exact_mod_cast lt_of_le_of_lt hq1 hx2
  have hq0 : q ≠ 0 := by omega
  obtain ⟨e, he⟩ : ∃ e, Nat.log2 q = e + 23 := ⟨Nat.log2 q - 23, by
    have := (Nat.le_log2 hq0).2 hq23; omega⟩
  have hlo : 2 ^ (e + 23) ≤ q := he ▸ Nat.log2_self_le hq0
  have hhi : q < 2 ^ (e + 24) := by
    have := Nat.lt_log2_self (n := q); rw [he] at this; exact this
  have he253 : e ≤ 253 := by
    by_contra hc
    have h277 : 277 ≤ e + 23 := Nat.add_le_add_right (not_le.1 hc) 23
    exact not_lt.2 hlo (lt_of_lt_of_le hq277 (pow_le_pow_right₀ one_le_two h277))
  have hm1 : 2 ^ 23 ≤ q / 2 ^ e := by
    rw [Nat.le_div_iff_mul_le (by positivity)]; rw [pow_add] at hlo; linarith
  have hm2 : q / 2 ^ e < 2 ^ 24 := by
    rw [Nat.div_lt_iff_lt_mul (by positivity)]; rw [pow_add] at hhi; linarith
  simp only [he, Nat.add_sub_cancel]
  have hmag : magUnits (e * 2 ^ 23 + q / 2 ^ e) = q / 2 ^ e * 2 ^ e := magUnits_scaled (by omega) (.inr hm1)
  rw [hmag]
  have hdm := Nat.div_add_mod q (2 ^ e)
  have hmod := Nat.mod_lt q (show 0 < 2 ^ e by positivity)
  have c1 : q / 2 ^ e * 2 ^ e ≤ q := Nat.div_mul_le_self _ _
  have c2 : q + 1 ≤ q / 2 ^ e * 2 ^ e + 2 ^ e := by rw [Nat.mul_comm (q / 2 ^ e)]; omega
  have c3 : 2 ^ e * 2 ^ 23 ≤ q := by rw [← pow_add]; exact hlo
  clear hdm hmod hmag hq277 hhi hlo hx2 hq hq0
  generalize q / 2 ^ e * 2 ^ e = u at c1 c2 ⊢
  generalize q / 2 ^ e = m at hm1 hm2 ⊢
  have d1 : (u : ℝ) ≤ q := by exact_mod_cast c1
  have d2 : (q : ℝ) + 1 ≤ u + 2 ^ e := by exact_mod_cast c2
  have d3 : (2 : ℝ) ^ e * 2 ^ 23 ≤ q := by exact_mod_cast c3
  refine ⟨by omega, by omega, ?_, ?_⟩
  · rw [div_le_iff₀ (by positivity)]; linarith
  · have : r - (u : ℝ) / 2 ^ 149 = (r * 2 ^ 149 - u) / 2 ^ 149 := by field_simp
    rw [this, div_le_div_iff₀ (by positivity) (by positivity)]
    linarith [mul_le_mul_of_nonneg_right (show r * 2 ^ 149 - u ≤ 2 ^ e by linarith) (show (0 : ℝ) ≤ 2 ^ 23 by positivity)]

/-- A positive real of normal size as a word. -/
noncomputable def cutPos (r : ℝ) : Word := packWord false (cutMag r)

theorem extUnits_pack (sg : Bool) {m : Nat} (hm : m < 0x7F800000) :
    extUnits (packWord sg m) = if sg then -(magUnits m : Int) else magUnits m := by
  unfold extUnits
  rw [show isInf (packWord sg m) = false by simp [isInf, magBits_packWord sg (lt31 hm.le)]; omega,
    signBit_packWord sg (lt31 hm.le), magBits_packWord sg (lt31 hm.le)]
  simp

theorem cutPos_spec {r : ℝ} (h1 : 2 ^ 23 / 2 ^ 149 ≤ r) (h2 : r < 2 ^ 128) :
    value (cutPos r) ≤ r ∧ r - value (cutPos r) ≤ r / 2 ^ 23 ∧ fLe Config.expUnder (cutPos r) = true ∧
      fLe (cutPos r) Config.expOver = true := by
  obtain ⟨a, b, c, d⟩ := cutMag_spec h1 h2
  have hv : value (cutPos r) = (magUnits (cutMag r) : ℝ) / 2 ^ 149 := by
    simp [value, cutPos, extUnits_pack false b]
  rw [hv, fLe_iff, fLe_iff]
  have hn : isNaN (cutPos r) = false := not_nan_packWord _ b.le
  have hk : orderKey (cutPos r) = cutMag r := by simp [cutPos, orderKey_packWord false (lt31 b.le)]
  refine ⟨c, d, ⟨by decide, hn, ?_⟩, ⟨hn, by decide, ?_⟩⟩
  · rw [hk, show orderKey Config.expUnder = (2 : Int) ^ 23 by decide]; exact_mod_cast a
  · rw [hk, show orderKey Config.expOver = 0x7F7FFFFF by decide]; exact_mod_cast Nat.le_of_lt_succ b

/-- A real as a word; one below the normal numbers as zero. -/
noncomputable def cut (r : ℝ) : Word :=
  if |r| < 2 ^ 23 / 2 ^ 149 then 0x00000000#32 else packWord (decide (r < 0)) (cutMag |r|)

theorem value_zero : value 0x00000000#32 = 0 := by
  have : extUnits 0x00000000#32 = 0 := by decide +kernel
  simp [value, this]

theorem cut_spec {r : ℝ} (h2 : |r| < 2 ^ 128) :
    isFinite (cut r) = true ∧ |value (cut r) - r| ≤ |r| / 2 ^ 23 + 2 ^ 23 / 2 ^ 149 := by
  unfold cut
  split_ifs with h
  · refine ⟨by decide, ?_⟩
    rw [value_zero, zero_sub, abs_neg]
    have := abs_nonneg r
    linarith [div_nonneg this (show (0 : ℝ) ≤ 2 ^ 23 by positivity)]
  · obtain ⟨a, b, c, d⟩ := cutMag_spec (not_lt.1 h) h2
    refine ⟨by rw [finite_iff, magBits_packWord _ (lt31 b.le)]; exact b, ?_⟩
    have hv : |value (packWord (decide (r < 0)) (cutMag |r|)) - r| = |r| - (magUnits (cutMag |r|) : ℝ) / 2 ^ 149 := by
      unfold value
      rw [extUnits_pack _ b]
      by_cases hr : r < 0
      · rw [abs_of_neg hr] at c ⊢
        simp only [hr, decide_true, if_true]
        push_cast
        rw [abs_of_nonneg (by rw [neg_div]; linarith)]
        ring
      · rw [abs_of_nonneg (not_lt.1 hr)] at c ⊢
        simp only [hr, decide_false, Bool.false_eq_true, if_false]
        push_cast
        rw [abs_of_nonpos (by linarith)]
        ring
    rw [hv]
    linarith [show (0 : ℝ) ≤ 2 ^ 23 / 2 ^ 149 by positivity]

/-! ## The configuration -/

/-- f32(ln 2) and its products with −1, 2 and 3, each rounded once. -/
abbrev ln2 : Word := 0x3F317218#32

noncomputable def idealSin (x : Word) : Word := if x = 0x80000000#32 then x else cut (Real.sin (value x))

noncomputable def idealCos (x : Word) : Word :=
  if x = 0x00000000#32 ∨ x = 0x80000000#32 then Const.one else cut (Real.cos (value x))

noncomputable def idealLog (x : Word) : Word :=
  if x = Const.one then Const.zero
  else if x = Const.two then ln2
  else if fLe Const.fltMin x = true ∧ fLe x Const.fltMax = true then cut (Real.log (value x))
  else Config.logSentinel

noncomputable def idealExp (x : Word) : Word :=
  if x = 0x00000000#32 ∨ x = 0x80000000#32 then Const.one
  else if x = fMul 0xBF800000#32 ln2 then 0x3F000000#32
  else if x = fMul 0x3F800000#32 ln2 then 0x40000000#32
  else if x = fMul 0x40000000#32 ln2 then 0x40800000#32
  else if x = fMul 0x40400000#32 ln2 then 0x41000000#32
  else if fGt x Config.expHi = true then Config.expOver
  else if fLt x Config.expFlushX = true then Config.expUnder
  else cutPos (min (max (Real.exp (value x)) (value Config.expUnder)) (value Config.expOver))

/-- The real functions cut to 24 bits, with the fixed values of R185 and R187. -/
noncomputable def idealFm : FM := ⟨idealSin, idealCos, idealLog, idealExp⟩

/-! ## It meets the contract -/

theorem value_expUnder : value Config.expUnder = 2 ^ 23 / 2 ^ 149 := by
  have : extUnits Config.expUnder = 2 ^ 23 := by decide +kernel
  rw [value, this]; norm_num

theorem value_expOver : value Config.expOver = (2 ^ 24 - 1) * 2 ^ 253 / 2 ^ 149 := by
  have : extUnits Config.expOver = (2 ^ 24 - 1) * 2 ^ 253 := by decide +kernel
  rw [value, this]; norm_num

/-- A power of two near the exponential of a word near its logarithm. -/
theorem exp_near {p : Word} {u : Int} {n : ℝ} {k : Int} (hu : extUnits p = u) (hn : n = 2 ^ k) (h1 : 1 / 2 ≤ n) (h8 : n ≤ 8)
    (hd : |(u : ℝ) / 2 ^ 149 - k * Real.log 2| ≤ 5 / 10000000) :
    |n - min (max (Real.exp (value p)) (value Config.expUnder)) (value Config.expOver)| ≤
      (Config.epsFm : ℝ) * min (max (Real.exp (value p)) (value Config.expUnder)) (value Config.expOver) := by
  have hv : value p = (u : ℝ) / 2 ^ 149 := by rw [value, hu]
  rw [hv]
  generalize (u : ℝ) / 2 ^ 149 = v at hd
  have hk : Real.exp (k * Real.log 2) = n := by
    rw [hn, mul_comm, Real.exp_mul, Real.exp_log (by norm_num), Real.rpow_intCast]
  have hkey : |n - Real.exp v| ≤ 1 / 1000000 * Real.exp v := by
    have e1 : n = Real.exp v * Real.exp (k * Real.log 2 - v) := by rw [← Real.exp_add, ← hk]; congr 1; ring
    have e2 : |Real.exp (k * Real.log 2 - v) - 1| ≤ 1 / 1000000 := by
      have habs : |k * Real.log 2 - v| ≤ 5 / 10000000 := by rw [abs_sub_comm]; exact hd
      calc _ ≤ 2 * |k * Real.log 2 - v| := Real.abs_exp_sub_one_le (by linarith)
        _ ≤ _ := by linarith
    calc |n - Real.exp v| = |Real.exp v * (Real.exp (k * Real.log 2 - v) - 1)| := by rw [mul_sub, ← e1, mul_one]
      _ = Real.exp v * |Real.exp (k * Real.log 2 - v) - 1| := by rw [abs_mul, abs_of_pos (Real.exp_pos v)]
      _ ≤ _ := by rw [mul_comm]; gcongr
  have hb := abs_le.1 hkey
  have hc : min (max (Real.exp v) (value Config.expUnder)) (value Config.expOver) = Real.exp v := by
    rw [value_expUnder, value_expOver, max_eq_left, min_eq_left]
    · have : Real.exp v ≤ 9 := by linarith
      exact this.trans (by norm_num)
    · have : 1 / 4 ≤ Real.exp v := by linarith
      exact le_trans (by norm_num) this
  rw [hc, show (Config.epsFm : ℝ) = 1 / 1000000 by norm_num [Config.epsFm]]
  exact hkey

theorem eps_eq : (Config.epsFm : ℝ) = 1 / 1000000 := by norm_num [Config.epsFm]

theorem cut_near {r : ℝ} (h : |r| < 2 ^ 128) : |value (cut r) - r| ≤ (Config.epsFm : ℝ) * max 1 |r| := by
  refine (cut_spec h).2.trans ?_
  rw [eps_eq]
  have h1 := le_max_left 1 |r|
  have h2 := le_max_right 1 |r|
  have : (2 : ℝ) ^ 23 / 2 ^ 149 ≤ 1 / 2 ^ 23 := by norm_num
  calc |r| / 2 ^ 23 + 2 ^ 23 / 2 ^ 149 ≤ max 1 |r| / 2 ^ 23 + max 1 |r| / 2 ^ 23 := by
        refine add_le_add (by gcongr) (this.trans ?_)
        gcongr
    _ ≤ _ := by ring_nf; nlinarith

theorem small_near {r : ℝ} (h : |r| ≤ 1) : isFinite (cut r) = true ∧ |value (cut r) - r| ≤ (Config.epsFm : ℝ) := by
  have h128 : |r| < 2 ^ 128 := h.trans_lt (by norm_num)
  refine ⟨(cut_spec h128).1, (cut_near h128).trans ?_⟩
  rw [max_eq_left h, mul_one]

theorem value_bounds {x : Word} (h1 : fLe Const.fltMin x = true) (h2 : fLe x Const.fltMax = true) :
    2 ^ 23 / 2 ^ 149 ≤ value x ∧ value x < 2 ^ 128 := by
  rw [fLe_iff, show orderKey Const.fltMin = (2 ^ 23 : Nat) by decide] at h1
  rw [fLe_iff, show orderKey Const.fltMax = (0x7F7FFFFF : Nat) by decide] at h2
  have hs : signBit x = false := by
    cases hs : signBit x
    · rfl
    · have := h1.2.2; simp only [orderKey, hs, if_true] at this; omega
  have hk : orderKey x = magBits x := by simp [orderKey, hs]
  rw [hk] at h1 h2
  have hf : magBits x < 0x7F800000 := by omega
  have hx : extUnits x = magUnits (magBits x) := by
    conv_lhs => rw [← packWord_self x, hs, extUnits_pack false hf]
    simp
  have l1 : magUnits (2 ^ 23) ≤ magUnits (magBits x) := magUnits_strictMono.monotone (by omega)
  rw [show magUnits (2 ^ 23) = 2 ^ 23 by decide] at l1
  have l2 := magUnits_lt_inf hf
  rw [value, hx]
  push_cast
  constructor
  · gcongr; exact_mod_cast l1
  · rw [div_lt_iff₀ (by positivity)]
    calc (magUnits (magBits x) : ℝ) < ((2 ^ 25 - 1) * 2 ^ 252 : Nat) := by exact_mod_cast l2
      _ ≤ _ := by norm_num

theorem ideal_log_near {x : Word} (h1 : fLe Const.fltMin x = true) (h2 : fLe x Const.fltMax = true) :
    isFinite (idealLog x) = true ∧
      |value (idealLog x) - Real.log (value x)| ≤ (Config.epsFm : ℝ) * max 1 |Real.log (value x)| := by
  unfold idealLog
  split_ifs with a b
  · subst a
    have : value Const.one = 1 := by
      have : extUnits Const.one = 2 ^ 149 := by decide +kernel
      rw [value, this]; norm_num
    refine ⟨by decide, ?_⟩
    rw [this, Real.log_one, value_zero]
    norm_num [Config.epsFm]
  · subst b
    have e2 : value Const.two = 2 := by
      have : extUnits Const.two = 2 ^ 150 := by decide +kernel
      rw [value, this]; norm_num
    have e3 : value ln2 = 11629080 / 2 ^ 24 := by
      have : extUnits ln2 = 11629080 * 2 ^ 125 := by decide +kernel
      rw [value, this]; norm_num
    refine ⟨by decide, ?_⟩
    rw [e2, e3, eps_eq]
    have g1 := Real.log_two_gt_d9
    have g2 := Real.log_two_lt_d9
    have : |(11629080 / 2 ^ 24 : ℝ) - Real.log 2| ≤ 1 / 1000000 := by
      rw [abs_le]; constructor <;> norm_num <;> linarith
    exact this.trans (by linarith [le_max_left 1 |Real.log 2|])
  · obtain ⟨l, u⟩ := value_bounds h1 h2
    have hpos : 0 < value x := lt_of_lt_of_le (by positivity) l
    have hb : |Real.log (value x)| < 2 ^ 128 := by
      rw [abs_lt]
      constructor
      · have := Real.one_sub_inv_le_log_of_pos hpos
        have hi : (value x)⁻¹ ≤ 2 ^ 126 := by
          rw [inv_le_comm₀ hpos (by positivity)]
          exact le_trans (by norm_num) l
        have : (2 : ℝ) ^ 126 < 2 ^ 128 := by norm_num
        linarith
      · linarith [Real.log_le_sub_one_of_pos hpos]
    exact ⟨(cut_spec hb).1, cut_near hb⟩
  · rename_i h
    exact absurd (And.intro h1 h2) h

theorem ideal_exp_near (x : Word) (h1 : fLt x Config.expFlushX = false) (h2 : fGt x Config.expHi = false) :
    |value (idealExp x) - min (max (Real.exp (value x)) (value Config.expUnder)) (value Config.expOver)| ≤
      (Config.epsFm : ℝ) * min (max (Real.exp (value x)) (value Config.expUnder)) (value Config.expOver) := by
  have g1 := Real.log_two_gt_d9
  have g2 := Real.log_two_lt_d9
  unfold idealExp
  split_ifs with a b c d e
  · have : value Const.one = 1 := by
      have : extUnits Const.one = 2 ^ 149 := by decide +kernel
      rw [value, this]; norm_num
    have hu : extUnits x = 0 := by rcases a with rfl | rfl <;> decide +kernel
    rw [this]
    exact exp_near hu (k := 0) (by norm_num) (by norm_num) (by norm_num) (by norm_num)
  · have : value 0x3F000000#32 = 2⁻¹ := by
      have : extUnits 0x3F000000#32 = 2 ^ 148 := by decide +kernel
      rw [value, this]; norm_num
    rw [this]
    have hu : extUnits x = -(11629080 * 2 ^ 125) := by subst b; decide +kernel
    refine exp_near hu (k := -1) (by norm_num) (by norm_num) (by norm_num) ?_
    rw [abs_le]; constructor <;> norm_num <;> linarith
  · have : value 0x40000000#32 = 2 := by
      have : extUnits 0x40000000#32 = 2 ^ 150 := by decide +kernel
      rw [value, this]; norm_num
    rw [this]
    have hu : extUnits x = 11629080 * 2 ^ 125 := by subst c; decide +kernel
    refine exp_near hu (k := 1) (by norm_num) (by norm_num) (by norm_num) ?_
    rw [abs_le]; constructor <;> norm_num <;> linarith
  · have : value 0x40800000#32 = 4 := by
      have : extUnits 0x40800000#32 = 2 ^ 151 := by decide +kernel
      rw [value, this]; norm_num
    rw [this]
    have hu : extUnits x = 11629080 * 2 ^ 126 := by subst d; decide +kernel
    refine exp_near hu (k := 2) (by norm_num) (by norm_num) (by norm_num) ?_
    rw [abs_le]; constructor <;> norm_num <;> linarith
  · have : value 0x41000000#32 = 8 := by
      have : extUnits 0x41000000#32 = 2 ^ 152 := by decide +kernel
      rw [value, this]; norm_num
    rw [this]
    have hu : extUnits x = 8721810 * 2 ^ 127 := by subst e; decide +kernel
    refine exp_near hu (k := 3) (by norm_num) (by norm_num) (by norm_num) ?_
    rw [abs_le]; constructor <;> norm_num <;> linarith
  · simp_all
  · simp_all
  · have hlo : value Config.expUnder ≤ value Config.expOver := by
      rw [value_expUnder, value_expOver]; norm_num
    generalize hr : min (max (Real.exp (value x)) (value Config.expUnder)) (value Config.expOver) = r
    have r1 : value Config.expUnder ≤ r := hr ▸ le_min (le_max_right _ _) hlo
    have r2 : r ≤ value Config.expOver := hr ▸ min_le_right _ _
    rw [value_expUnder] at r1
    rw [value_expOver] at r2
    obtain ⟨p, q, -, -⟩ := cutPos_spec r1 (r2.trans_lt (by norm_num))
    rw [abs_of_nonpos (by linarith), eps_eq, neg_sub]
    have hr0 : 0 ≤ r := le_trans (by positivity) r1
    refine q.trans ?_
    rw [div_le_iff₀ (by positivity)]
    nlinarith

theorem ideal_exp_range (x : Word) :
    fLe Config.expUnder (idealExp x) = true ∧ fLe (idealExp x) Config.expOver = true := by
  unfold idealExp
  split_ifs
  any_goals decide
  have hlo : value Config.expUnder ≤ value Config.expOver := by
    rw [value_expUnder, value_expOver]; norm_num
  have r1 : value Config.expUnder ≤ min (max (Real.exp (value x)) (value Config.expUnder)) (value Config.expOver) :=
    le_min (le_max_right _ _) hlo
  have r2 : min (max (Real.exp (value x)) (value Config.expUnder)) (value Config.expOver) ≤ value Config.expOver :=
    min_le_right _ _
  generalize min (max (Real.exp (value x)) (value Config.expUnder)) (value Config.expOver) = r at r1 r2 ⊢
  rw [value_expUnder] at r1
  rw [value_expOver] at r2
  exact (cutPos_spec r1 (r2.trans_lt (by norm_num))).2.2

theorem ideal_pow (b e v : Word) (habs : fAbs b = Const.two) (hv : idealExp (fMul e ln2) = v) :
    fmPow idealFm b e = powSign b e v := by
  have : idealLog Const.two = ln2 := by
    unfold idealLog; rw [if_neg (by decide), if_pos rfl]
  simp only [fmPow, idealFm, habs, this, hv]

/-- The contract of the FastMath unit can be met. -/
theorem idealFm_contract : AscContract idealFm := by
  have lt_le : ∀ x, fLe Config.expFlushX x = true → fLt x Config.expFlushX = false := by
    intro x h
    rw [fLe_iff] at h
    cases hh : fLt x Config.expFlushX
    · rfl
    · rw [fLt_iff] at hh; omega
  have gt_le : ∀ x, fLe x Config.expHi = true → fGt x Config.expHi = false := by
    intro x h
    rw [fLe_iff] at h
    cases hh : fGt x Config.expHi
    · rfl
    · rw [fGt, fLt_iff] at hh; omega
  have e0 : idealExp (fMul 0x00000000#32 ln2) = Const.one := by
    unfold idealExp; rw [if_pos (by decide +kernel)]
  have em1 : idealExp (fMul 0xBF800000#32 ln2) = 0x3F000000#32 := by
    unfold idealExp; rw [if_neg (by decide +kernel), if_pos rfl]
  have e1 : idealExp (fMul 0x3F800000#32 ln2) = 0x40000000#32 := by
    unfold idealExp; rw [if_neg (by decide +kernel), if_neg (by decide +kernel), if_pos rfl]
  have e2 : idealExp (fMul 0x40000000#32 ln2) = 0x40800000#32 := by
    unfold idealExp; rw [if_neg (by decide +kernel), if_neg (by decide +kernel), if_neg (by decide +kernel), if_pos rfl]
  have e3 : idealExp (fMul 0x40400000#32 ln2) = 0x41000000#32 := by
    unfold idealExp
    rw [if_neg (by decide +kernel), if_neg (by decide +kernel), if_neg (by decide +kernel), if_neg (by decide +kernel),
      if_pos rfl]
  exact {
    sinNear := fun x _ _ => by
      show isFinite (idealSin x) = true ∧ _
      unfold idealFm idealSin
      dsimp only
      split_ifs with h
      · subst h
        have : value 0x80000000#32 = 0 := by
          have : extUnits 0x80000000#32 = 0 := by decide +kernel
          simp [value, this]
        rw [this, Real.sin_zero]
        exact ⟨by decide, by norm_num [Config.epsFm]⟩
      · exact small_near (Real.abs_sin_le_one _)
    cosNear := fun x _ _ => by
      show isFinite (idealCos x) = true ∧ _
      unfold idealFm idealCos
      dsimp only
      split_ifs with h
      · have : value x = 0 := by
          have : extUnits x = 0 := by rcases h with rfl | rfl <;> decide +kernel
          simp [value, this]
        have h1 : value Const.one = 1 := by
          have : extUnits Const.one = 2 ^ 149 := by decide +kernel
          rw [value, this]; norm_num
        rw [this, Real.cos_zero, h1]
        exact ⟨by decide, by norm_num [Config.epsFm]⟩
      · exact small_near (Real.abs_cos_le_one _)
    logNear := fun x h1 h2 => ideal_log_near h1 h2
    logSentinel := fun x h => by
      show idealLog x = _
      have hx : fLe Const.fltMin x = false := by
        cases hh : fLe Const.fltMin x
        · rfl
        · rw [fLe_iff, show orderKey Const.fltMin = 2 ^ 23 by decide] at hh
          rw [fLe_iff, fLt_iff, fLt_iff, show orderKey Const.fltMin = 2 ^ 23 by decide,
            show orderKey Const.zero = 0 by decide] at h
          omega
      unfold idealLog
      rw [if_neg (by rintro rfl; revert hx; decide), if_neg (by rintro rfl; revert hx; decide), if_neg (by simp [hx])]
    expNear := fun x h1 h2 => ideal_exp_near x (lt_le x h1) (gt_le x h2)
    expOver := fun x h => by
      show idealExp x = _
      unfold idealExp
      rw [if_neg (by rintro (rfl | rfl) <;> revert h <;> decide), if_neg (by rintro rfl; revert h; decide +kernel),
        if_neg (by rintro rfl; revert h; decide +kernel), if_neg (by rintro rfl; revert h; decide +kernel),
        if_neg (by rintro rfl; revert h; decide +kernel), if_pos h]
    expUnder := fun x h => by
      show idealExp x = _
      have h' : fGt x Config.expHi = false := gt_le x (by
        rw [fLt_iff, show orderKey Config.expFlushX = -0x42AEAC50 by decide] at h
        rw [fLe_iff, show orderKey Config.expHi = 0x42B17218 by decide]
        exact ⟨h.1, by decide, by omega⟩)
      unfold idealExp
      rw [if_neg (by rintro (rfl | rfl) <;> revert h <;> decide), if_neg (by rintro rfl; revert h; decide +kernel),
        if_neg (by rintro rfl; revert h; decide +kernel), if_neg (by rintro rfl; revert h; decide +kernel),
        if_neg (by rintro rfl; revert h; decide +kernel), if_neg (by simp [h']), if_pos h]
    expRange := fun x _ => ideal_exp_range x
    sinZero := by
      show idealSin 0x00000000#32 = _ ∧ idealSin 0x80000000#32 = _
      refine ⟨?_, by unfold idealSin; rw [if_pos rfl]⟩
      unfold idealSin cut
      rw [if_neg (by decide), value_zero, Real.sin_zero, if_pos (by norm_num)]
    cosZero := by
      show idealCos 0x00000000#32 = _ ∧ idealCos 0x80000000#32 = _
      unfold idealCos
      rw [if_pos (.inl rfl), if_pos (.inr rfl)]
      exact ⟨rfl, rfl⟩
    logOne := by
      show idealLog 0x3F800000#32 = _
      unfold idealLog
      rw [if_pos rfl]
    expZero := by
      show idealExp 0x00000000#32 = _ ∧ idealExp 0x80000000#32 = _
      unfold idealExp
      rw [if_pos (.inl rfl), if_pos (.inr rfl)]
      exact ⟨rfl, rfl⟩
    powExact := by
      refine ⟨?_, ?_, ?_, ?_, ?_⟩
      · rw [ideal_pow _ _ _ (by decide) em1]; decide +kernel
      · rw [ideal_pow _ _ _ (by decide) e0]; decide +kernel
      · rw [ideal_pow _ _ _ (by decide) e1]; decide +kernel
      · rw [ideal_pow _ _ _ (by decide) e2]; decide +kernel
      · rw [ideal_pow _ _ _ (by decide) e3]; decide +kernel }

end Sys2Proof.Laws
end

