-- ==== Sys2Proof/Laws/Decode.lean ====
section
/-! SUPPORT. The fields of a command word, what masking and extracting do to them, and what a word that decodes says. -/

namespace Sys2Proof.Laws

/-! ## A field at its place lies under its own bits -/

theorem putD_bits (r : BitVec 4) : putD r &&& 0x03C00000#32 = putD r := by revert r; decide
theorem putS1_bits (r : BitVec 4) : putS1 r &&& 0x003C0000#32 = putS1 r := by revert r; decide
theorem putS2_bits (r : BitVec 4) : putS2 r &&& 0x0003C000#32 = putS2 r := by revert r; decide
theorem putS3_bits (r : BitVec 4) : putS3 r &&& 0x00003C00#32 = putS3 r := by revert r; decide
theorem putCtx_bits (c : BitVec 6) : putCtx c &&& 0x00003F00#32 = putCtx c := by revert c; decide
theorem putS2_lane_bits (l : BitVec 4) (h : l.toNat < 4) : putS2 l &&& 0x0000C000#32 = putS2 l := by
  revert l; decide

theorem putImm_bits (v : BitVec 16) : putImm v &&& 0x0000FFFF#32 = putImm v := by
  apply BitVec.eq_of_getLsbD_eq
  intro i hi
  interval_cases i <;> simp [putImm]

theorem putCr_bits (v : BitVec 12) : putCr v &&& 0x00000FFF#32 = putCr v := by
  apply BitVec.eq_of_getLsbD_eq
  intro i hi
  interval_cases i <;> simp [putCr]

/-- A word under bits that a mask leaves out is nothing under the mask. -/
theorem and_of_bits {x b m : Word} (hx : x &&& b = x) (hm : b &&& m = 0#32) : x &&& m = 0#32 := by
  rw [← hx, BitVec.and_assoc, hm, BitVec.and_zero]

theorem op_and (o : BitVec 6) (m : Word) (hm : m &&& 0xFC000000#32 = 0xFC000000#32) :
    (o.setWidth 32 <<< 26) &&& m = o.setWidth 32 <<< 26 := by
  have h : (o.setWidth 32 <<< 26 : Word) &&& 0xFC000000#32 = o.setWidth 32 <<< 26 := by revert o; decide
  rw [← h, BitVec.and_assoc, BitVec.and_comm 0xFC000000#32 m, hm]

theorem or_and (a b m : Word) : (a ||| b) &&& m = (a &&& m) ||| (b &&& m) := by
  apply BitVec.eq_of_getLsbD_eq
  intro i hi
  simp [Bool.and_or_distrib_right]

/-- The opcode of a word is that of its masked word, for a mask that keeps bits 31:26. -/
theorem fieldOp_and (w m : Word) (hm : m &&& 0xFC000000#32 = 0xFC000000#32) : fieldOp (w &&& m) = fieldOp w := by
  have h : fieldOp m = 0x3F#6 := by
    have h1 : fieldOp (m &&& 0xFC000000#32) = fieldOp m := by
      apply BitVec.eq_of_getLsbD_eq
      intro i hi
      interval_cases i <;> simp [fieldOp]
    rw [← h1, hm]; rfl
  apply BitVec.eq_of_getLsbD_eq
  intro i hi
  have hb : (fieldOp m).getLsbD i = true := by rw [h]; revert hi; revert i; decide
  simp only [fieldOp, BitVec.getLsbD_extractLsb', BitVec.getLsbD_and] at hb ⊢
  simp only [hi, decide_true, Bool.true_and] at hb ⊢
  rw [hb, Bool.and_true]

/-- Every mask of the table keeps the opcode, and every pattern holds its row's. -/
theorem opTable_masks : ∀ r ∈ opTable, r.mask &&& 0xFC000000#32 = 0xFC000000#32 ∧ fieldOp r.pattern = r.op := by
  intro r hr
  simp only [opTable, opRowsMove, opRowsFmu, opRowsUnits, List.cons_append, List.nil_append, List.mem_cons,
    List.not_mem_nil, or_false] at hr
  rcases hr with h | h | h | h | h | h | h | h | h | h | h | h | h | h | h | h | h | h | h | h | h | h | h | h | h <;>
    subst h <;> exact ⟨by decide, by decide⟩

theorem rowOf_mem {op : BitVec 6} {r : OpRow} (h : rowOf op = some r) : r ∈ opTable ∧ r.op = op := by
  refine ⟨List.mem_of_find?_eq_some h, ?_⟩
  simpa using List.find?_some h

/-- No two rows have one opcode: a row of the table is the row of its opcode. -/
theorem rowOf_self : ∀ r ∈ opTable, ∃ q, rowOf r.op = some q ∧ q.op = r.op ∧ q.mask = r.mask ∧ q.pattern = r.pattern := by
  intro r hr
  simp only [opTable, opRowsMove, opRowsFmu, opRowsUnits, List.cons_append, List.nil_append, List.mem_cons,
    List.not_mem_nil, or_false] at hr
  rcases hr with h | h | h | h | h | h | h | h | h | h | h | h | h | h | h | h | h | h | h | h | h | h | h | h | h <;>
    subst h <;> exact ⟨_, rfl, rfl, rfl, rfl⟩

/-- Everything a decoding says: the row of the opcode, the masked bits equal to its pattern, and the command built. -/
theorem decode_ok {w : Word} {i : Instr} (h : decode w = .ok i) :
    ∃ r, rowOf (fieldOp w) = some r ∧ w &&& r.mask = r.pattern ∧ i = r.build w := by
  unfold decode at h
  split at h
  · cases h
  · next r hr =>
    split at h
    · next hm => exact ⟨r, hr, hm, by cases h; rfl⟩
    · cases h

/-- Everything a rejection says. -/
theorem decode_error {w : Word} {e : DecodeError} (h : decode w = .error e) :
    (rowOf (fieldOp w) = none ∧ e = .illegalOpcode) ∨
    ∃ r, rowOf (fieldOp w) = some r ∧ w &&& r.mask ≠ r.pattern ∧ e = .reservedField (w &&& r.mask &&& ~~~ r.pattern) := by
  unfold decode at h
  split at h
  · next hr => exact .inl ⟨hr, by cases h; rfl⟩
  · next r hr =>
    split at h
    · cases h
    · next hm => exact .inr ⟨r, hr, hm, by cases h; rfl⟩

/-- The row of an opcode decodes the words under its mask. -/
theorem decode_of_row {w : Word} {r : OpRow} (hr : rowOf (fieldOp w) = some r) (hm : w &&& r.mask = r.pattern) :
    decode w = .ok (r.build w) := by
  simp only [decode, hr, hm, if_true]

end Sys2Proof.Laws
end

