-- ==== Sys2Proof/Laws/State.lean ====
section
/-! SUPPORT. What each named update of the state leaves alone, one lemma per field, and what it sets; the values
of the parameters in ASC-1, and what a host access can do. -/

namespace Sys2Proof.Laws

open Sys2Proof.Machine

/-! ## What the parameters of R6 come to in ASC-1 -/

@[simp] theorem portBytes_eq : portBytes = 4 := rfl
theorem implParams_eq : Config.implParams = 0x400A1004#32 := rfl
theorem implParams2_eq : Config.implParams2 = 0x04000258#32 := rfl

/-! ## The port -/

theorem portTarget_dmem {addr : BitVec 19} (h : addr.toNat < 0x40000) : portTarget addr = .dmem (addr.toNat / 4) := by
  simp [portTarget, Config.dmemWords, h]

theorem portTarget_cmd {addr : BitVec 19} (h : 0x40000 ≤ addr.toNat) (h' : addr.toNat < 0x41000) :
    portTarget addr = .cmd ((addr.toNat - 0x40000) / 4) := by
  simp [portTarget, Config.dmemWords, Config.cmdWords, Nat.not_lt.2 h, h']

theorem portTarget_cr {addr : BitVec 19} (h : 0x50000 ≤ addr.toNat) (h' : addr.toNat < 0x54000) :
    portTarget addr = .cr (BitVec.ofNat 12 ((addr.toNat - 0x50000) / 4)) := by
  simp [portTarget, Config.dmemWords, Config.cmdWords, Config.crSpace, h, h',
    show ¬ addr.toNat < 262144 by omega, show ¬ addr.toNat < 266240 by omega]

/-- An aligned word access outside the windows, or with nothing running, reaches its target. -/
theorem portAccess_reaches {s : State} {addr : BitVec 19} (k : PortTarget → Result) (ha : addr.toNat % 4 = 0)
    (hr : s.runState ≠ .running ∨ (portTarget addr).inWindow = false) : portAccess s addr 4 k = k (portTarget addr) := by
  rcases hr with h | h <;> simp [portAccess, ha, h]

/-- Everything a port access can be: a refusal for its form, a refusal while RUNNING, or the access. -/
theorem portAccess_cases (s : State) (addr : BitVec 19) (width : Nat) (k : PortTarget → Result) :
    ((width ≠ 4 ∨ addr.toNat % 4 ≠ 0) ∧ portAccess s addr width k = .refused .hostAccessNotAligned32) ∨
    (width = 4 ∧ addr.toNat % 4 = 0 ∧ s.runState = .running ∧ (portTarget addr).inWindow = true ∧
      portAccess s addr width k = .refused .hostAccessWhileRunning) ∨
    (width = 4 ∧ addr.toNat % 4 = 0 ∧ (s.runState ≠ .running ∨ (portTarget addr).inWindow = false) ∧
      portAccess s addr width k = k (portTarget addr)) := by
  by_cases h1 : width ≠ 4 ∨ addr.toNat % 4 ≠ 0
  · exact .inl ⟨h1, by simp [portAccess, h1]⟩
  · obtain ⟨hw, ha⟩ : width = 4 ∧ addr.toNat % 4 = 0 := by simpa [not_or] using h1
    subst hw
    by_cases h2 : s.runState = .running ∧ (portTarget addr).inWindow = true
    · exact .inr (.inl ⟨rfl, ha, h2.1, h2.2, by simp [portAccess, ha, h2]⟩)
    · have h3 : s.runState ≠ .running ∨ (portTarget addr).inWindow = false := by
        rcases not_and_or.1 h2 with h | h
        · exact .inl h
        · exact .inr (by simpa using h)
      exact .inr (.inr ⟨rfl, ha, h3, portAccess_reaches k ha h3⟩)

/-! ## The named updates -/

section setV
variable (s : State) (r : VReg) (v : Lanes)

@[simp] theorem setV_runState : (s.setV r v).runState = s.runState := rfl
@[simp] theorem setV_done : (s.setV r v).done = s.done := rfl
@[simp] theorem setV_cp : (s.setV r v).cp = s.cp := rfl
@[simp] theorem setV_faultCp : (s.setV r v).faultCp = s.faultCp := rfl
@[simp] theorem setV_faultWord : (s.setV r v).faultWord = s.faultWord := rfl
@[simp] theorem setV_faultInfo : (s.setV r v).faultInfo = s.faultInfo := rfl
@[simp] theorem setV_ovtIterCount : (s.setV r v).ovtIterCount = s.ovtIterCount := rfl
@[simp] theorem setV_renderCount : (s.setV r v).renderCount = s.renderCount := rfl
@[simp] theorem setV_fastpathCount : (s.setV r v).fastpathCount = s.fastpathCount := rfl
@[simp] theorem setV_sampleRate : (s.setV r v).sampleRate = s.sampleRate := rfl
@[simp] theorem setV_bufSize : (s.setV r v).bufSize = s.bufSize := rfl
@[simp] theorem setV_kernel : (s.setV r v).kernel = s.kernel := rfl
@[simp] theorem setV_noteFreq : (s.setV r v).noteFreq = s.noteFreq := rfl
@[simp] theorem setV_eg : (s.setV r v).eg = s.eg := rfl
@[simp] theorem setV_dmem : (s.setV r v).dmem = s.dmem := rfl
@[simp] theorem setV_cmd : (s.setV r v).cmd = s.cmd := rfl
@[simp] theorem setV_epoch : (s.setV r v).epoch = s.epoch := rfl
@[simp] theorem setV_inputs : (s.setV r v).inputs = s.inputs := rfl
@[simp] theorem setV_portData : (s.setV r v).portData = s.portData := rfl

end setV

section setEg
variable (s : State) (c : Ctx) (e : EgContext)

@[simp] theorem setEg_runState : (s.setEg c e).runState = s.runState := rfl
@[simp] theorem setEg_done : (s.setEg c e).done = s.done := rfl
@[simp] theorem setEg_cp : (s.setEg c e).cp = s.cp := rfl
@[simp] theorem setEg_faultCp : (s.setEg c e).faultCp = s.faultCp := rfl
@[simp] theorem setEg_faultWord : (s.setEg c e).faultWord = s.faultWord := rfl
@[simp] theorem setEg_faultInfo : (s.setEg c e).faultInfo = s.faultInfo := rfl
@[simp] theorem setEg_vregs : (s.setEg c e).vregs = s.vregs := rfl
@[simp] theorem setEg_ovtIterCount : (s.setEg c e).ovtIterCount = s.ovtIterCount := rfl
@[simp] theorem setEg_renderCount : (s.setEg c e).renderCount = s.renderCount := rfl
@[simp] theorem setEg_fastpathCount : (s.setEg c e).fastpathCount = s.fastpathCount := rfl
@[simp] theorem setEg_sampleRate : (s.setEg c e).sampleRate = s.sampleRate := rfl
@[simp] theorem setEg_bufSize : (s.setEg c e).bufSize = s.bufSize := rfl
@[simp] theorem setEg_kernel : (s.setEg c e).kernel = s.kernel := rfl
@[simp] theorem setEg_noteFreq : (s.setEg c e).noteFreq = s.noteFreq := rfl
@[simp] theorem setEg_dmem : (s.setEg c e).dmem = s.dmem := rfl
@[simp] theorem setEg_cmd : (s.setEg c e).cmd = s.cmd := rfl
@[simp] theorem setEg_epoch : (s.setEg c e).epoch = s.epoch := rfl
@[simp] theorem setEg_inputs : (s.setEg c e).inputs = s.inputs := rfl
@[simp] theorem setEg_portData : (s.setEg c e).portData = s.portData := rfl

end setEg

section writeDmem
variable (s : State) (a : Nat) (w : Word)

@[simp] theorem writeDmem_runState : (s.writeDmem a w).runState = s.runState := rfl
@[simp] theorem writeDmem_done : (s.writeDmem a w).done = s.done := rfl
@[simp] theorem writeDmem_cp : (s.writeDmem a w).cp = s.cp := rfl
@[simp] theorem writeDmem_faultCp : (s.writeDmem a w).faultCp = s.faultCp := rfl
@[simp] theorem writeDmem_faultWord : (s.writeDmem a w).faultWord = s.faultWord := rfl
@[simp] theorem writeDmem_faultInfo : (s.writeDmem a w).faultInfo = s.faultInfo := rfl
@[simp] theorem writeDmem_vregs : (s.writeDmem a w).vregs = s.vregs := rfl
@[simp] theorem writeDmem_ovtIterCount : (s.writeDmem a w).ovtIterCount = s.ovtIterCount := rfl
@[simp] theorem writeDmem_renderCount : (s.writeDmem a w).renderCount = s.renderCount := rfl
@[simp] theorem writeDmem_fastpathCount : (s.writeDmem a w).fastpathCount = s.fastpathCount := rfl
@[simp] theorem writeDmem_sampleRate : (s.writeDmem a w).sampleRate = s.sampleRate := rfl
@[simp] theorem writeDmem_bufSize : (s.writeDmem a w).bufSize = s.bufSize := rfl
@[simp] theorem writeDmem_kernel : (s.writeDmem a w).kernel = s.kernel := rfl
@[simp] theorem writeDmem_noteFreq : (s.writeDmem a w).noteFreq = s.noteFreq := rfl
@[simp] theorem writeDmem_eg : (s.writeDmem a w).eg = s.eg := rfl
@[simp] theorem writeDmem_cmd : (s.writeDmem a w).cmd = s.cmd := rfl
@[simp] theorem writeDmem_epoch : (s.writeDmem a w).epoch = s.epoch := rfl
@[simp] theorem writeDmem_inputs : (s.writeDmem a w).inputs = s.inputs := rfl
@[simp] theorem writeDmem_portData : (s.writeDmem a w).portData = s.portData := rfl

end writeDmem

section writeCmd
variable (s : State) (k : Nat) (w : Word)

@[simp] theorem writeCmd_runState : (s.writeCmd k w).runState = s.runState := rfl
@[simp] theorem writeCmd_done : (s.writeCmd k w).done = s.done := rfl
@[simp] theorem writeCmd_cp : (s.writeCmd k w).cp = s.cp := rfl
@[simp] theorem writeCmd_faultCp : (s.writeCmd k w).faultCp = s.faultCp := rfl
@[simp] theorem writeCmd_faultWord : (s.writeCmd k w).faultWord = s.faultWord := rfl
@[simp] theorem writeCmd_faultInfo : (s.writeCmd k w).faultInfo = s.faultInfo := rfl
@[simp] theorem writeCmd_vregs : (s.writeCmd k w).vregs = s.vregs := rfl
@[simp] theorem writeCmd_ovtIterCount : (s.writeCmd k w).ovtIterCount = s.ovtIterCount := rfl
@[simp] theorem writeCmd_renderCount : (s.writeCmd k w).renderCount = s.renderCount := rfl
@[simp] theorem writeCmd_fastpathCount : (s.writeCmd k w).fastpathCount = s.fastpathCount := rfl
@[simp] theorem writeCmd_sampleRate : (s.writeCmd k w).sampleRate = s.sampleRate := rfl
@[simp] theorem writeCmd_bufSize : (s.writeCmd k w).bufSize = s.bufSize := rfl
@[simp] theorem writeCmd_kernel : (s.writeCmd k w).kernel = s.kernel := rfl
@[simp] theorem writeCmd_noteFreq : (s.writeCmd k w).noteFreq = s.noteFreq := rfl
@[simp] theorem writeCmd_eg : (s.writeCmd k w).eg = s.eg := rfl
@[simp] theorem writeCmd_dmem : (s.writeCmd k w).dmem = s.dmem := rfl
@[simp] theorem writeCmd_epoch : (s.writeCmd k w).epoch = s.epoch := rfl
@[simp] theorem writeCmd_inputs : (s.writeCmd k w).inputs = s.inputs := rfl
@[simp] theorem writeCmd_portData : (s.writeCmd k w).portData = s.portData := rfl

end writeCmd

section writeVec
variable (s : State) (a : Nat) (v : Lanes)

@[simp] theorem writeVec_runState : (s.writeVec a v).runState = s.runState := by simp only [State.writeVec, writeDmem_runState]
@[simp] theorem writeVec_done : (s.writeVec a v).done = s.done := by simp only [State.writeVec, writeDmem_done]
@[simp] theorem writeVec_cp : (s.writeVec a v).cp = s.cp := by simp only [State.writeVec, writeDmem_cp]
@[simp] theorem writeVec_faultCp : (s.writeVec a v).faultCp = s.faultCp := by simp only [State.writeVec, writeDmem_faultCp]
@[simp] theorem writeVec_faultWord : (s.writeVec a v).faultWord = s.faultWord := by simp only [State.writeVec, writeDmem_faultWord]
@[simp] theorem writeVec_faultInfo : (s.writeVec a v).faultInfo = s.faultInfo := by simp only [State.writeVec, writeDmem_faultInfo]
@[simp] theorem writeVec_vregs : (s.writeVec a v).vregs = s.vregs := by simp only [State.writeVec, writeDmem_vregs]
@[simp] theorem writeVec_ovtIterCount : (s.writeVec a v).ovtIterCount = s.ovtIterCount := by simp only [State.writeVec, writeDmem_ovtIterCount]
@[simp] theorem writeVec_renderCount : (s.writeVec a v).renderCount = s.renderCount := by simp only [State.writeVec, writeDmem_renderCount]
@[simp] theorem writeVec_fastpathCount : (s.writeVec a v).fastpathCount = s.fastpathCount := by simp only [State.writeVec, writeDmem_fastpathCount]
@[simp] theorem writeVec_sampleRate : (s.writeVec a v).sampleRate = s.sampleRate := by simp only [State.writeVec, writeDmem_sampleRate]
@[simp] theorem writeVec_bufSize : (s.writeVec a v).bufSize = s.bufSize := by simp only [State.writeVec, writeDmem_bufSize]
@[simp] theorem writeVec_kernel : (s.writeVec a v).kernel = s.kernel := by simp only [State.writeVec, writeDmem_kernel]
@[simp] theorem writeVec_noteFreq : (s.writeVec a v).noteFreq = s.noteFreq := by simp only [State.writeVec, writeDmem_noteFreq]
@[simp] theorem writeVec_eg : (s.writeVec a v).eg = s.eg := by simp only [State.writeVec, writeDmem_eg]
@[simp] theorem writeVec_cmd : (s.writeVec a v).cmd = s.cmd := by simp only [State.writeVec, writeDmem_cmd]
@[simp] theorem writeVec_epoch : (s.writeVec a v).epoch = s.epoch := by simp only [State.writeVec, writeDmem_epoch]
@[simp] theorem writeVec_inputs : (s.writeVec a v).inputs = s.inputs := by simp only [State.writeVec, writeDmem_inputs]
@[simp] theorem writeVec_portData : (s.writeVec a v).portData = s.portData := by simp only [State.writeVec, writeDmem_portData]

end writeVec

section takeFault
variable (s : State) (c : FaultCause) (w info : Word)

@[simp] theorem takeFault_done : (s.takeFault c w info).done = s.done := rfl
@[simp] theorem takeFault_cp : (s.takeFault c w info).cp = s.cp := rfl
@[simp] theorem takeFault_vregs : (s.takeFault c w info).vregs = s.vregs := rfl
@[simp] theorem takeFault_ovtIterCount : (s.takeFault c w info).ovtIterCount = s.ovtIterCount := rfl
@[simp] theorem takeFault_renderCount : (s.takeFault c w info).renderCount = s.renderCount := rfl
@[simp] theorem takeFault_fastpathCount : (s.takeFault c w info).fastpathCount = s.fastpathCount := rfl
@[simp] theorem takeFault_sampleRate : (s.takeFault c w info).sampleRate = s.sampleRate := rfl
@[simp] theorem takeFault_bufSize : (s.takeFault c w info).bufSize = s.bufSize := rfl
@[simp] theorem takeFault_kernel : (s.takeFault c w info).kernel = s.kernel := rfl
@[simp] theorem takeFault_noteFreq : (s.takeFault c w info).noteFreq = s.noteFreq := rfl
@[simp] theorem takeFault_eg : (s.takeFault c w info).eg = s.eg := rfl
@[simp] theorem takeFault_dmem : (s.takeFault c w info).dmem = s.dmem := rfl
@[simp] theorem takeFault_cmd : (s.takeFault c w info).cmd = s.cmd := rfl
@[simp] theorem takeFault_epoch : (s.takeFault c w info).epoch = s.epoch := rfl
@[simp] theorem takeFault_inputs : (s.takeFault c w info).inputs = s.inputs := rfl
@[simp] theorem takeFault_portData : (s.takeFault c w info).portData = s.portData := rfl

end takeFault

/-! ## What the updates set -/

@[simp] theorem takeFault_runState (s : State) (c : FaultCause) (w info : Word) :
    (s.takeFault c w info).runState = .faulted c := rfl
@[simp] theorem takeFault_faultCp (s : State) (c : FaultCause) (w info : Word) :
    (s.takeFault c w info).faultCp = s.cp.setWidth 32 := rfl
@[simp] theorem takeFault_faultWord (s : State) (c : FaultCause) (w info : Word) :
    (s.takeFault c w info).faultWord = w := rfl
@[simp] theorem takeFault_faultInfo (s : State) (c : FaultCause) (w info : Word) :
    (s.takeFault c w info).faultInfo = info := rfl

@[simp] theorem getV_setV_same (s : State) (r : VReg) (v : Lanes) : (s.setV r v).getV r = v := by
  simp [State.getV, State.setV]

theorem getV_setV_ne (s : State) (v : Lanes) {r q : VReg} (h : q ≠ r) : (s.setV r v).getV q = s.getV q := by
  have : r.toNat ≠ q.toNat := fun e => h (BitVec.eq_of_toNat_eq e.symm)
  simp [State.getV, State.setV, this]

@[simp] theorem getEg_setEg_same (s : State) (c : Ctx) (e : EgContext) : (s.setEg c e).getEg c = e := by
  simp [State.getEg, State.setEg]

theorem getEg_setEg_ne (s : State) (e : EgContext) {c q : Ctx} (h : q ≠ c) : (s.setEg c e).getEg q = s.getEg q := by
  have : c.toNat ≠ q.toNat := fun e => h (BitVec.eq_of_toNat_eq e.symm)
  simp [State.getEg, State.setEg, this]

@[simp] theorem getEg_setV (s : State) (r : VReg) (v : Lanes) (c : Ctx) : (s.setV r v).getEg c = s.getEg c := rfl
@[simp] theorem getV_setEg (s : State) (c : Ctx) (e : EgContext) (r : VReg) : (s.setEg c e).getV r = s.getV r := rfl
@[simp] theorem getV_writeDmem (s : State) (a : Nat) (w : Word) (r : VReg) : (s.writeDmem a w).getV r = s.getV r := rfl
@[simp] theorem getEg_writeDmem (s : State) (a : Nat) (w : Word) (c : Ctx) : (s.writeDmem a w).getEg c = s.getEg c := rfl
@[simp] theorem getV_takeFault (s : State) (c : FaultCause) (w i : Word) (r : VReg) :
    (s.takeFault c w i).getV r = s.getV r := rfl
@[simp] theorem getEg_takeFault (s : State) (f : FaultCause) (w i : Word) (c : Ctx) :
    (s.takeFault f w i).getEg c = s.getEg c := rfl

/-! ## The end of a command -/

/-- Before index 1023 cp moves on and nothing else changes (R150). -/
theorem complete_of_lt (s : State) (h : s.cp ≠ 1023#10) : s.complete = { s with cp := s.cp + 1#10 } := by
  have : s.cp.toNat ≠ 1023 := fun e => h (BitVec.eq_of_toNat_eq (by simpa using e))
  simp [State.complete, this]

/-- At index 1023 CP_OVERRUN is taken (60_exceptions.md R331). -/
theorem complete_of_last (s : State) (h : s.cp = 1023#10) : s.complete = s.takeFault .cpOverrun 0#32 1024#32 := by
  simp [State.complete, h]

@[simp] theorem complete_done (s : State) : s.complete.done = s.done := by
  unfold State.complete; split <;> rfl
@[simp] theorem complete_vregs (s : State) : s.complete.vregs = s.vregs := by
  unfold State.complete; split <;> rfl
@[simp] theorem complete_ovtIterCount (s : State) : s.complete.ovtIterCount = s.ovtIterCount := by
  unfold State.complete; split <;> rfl
@[simp] theorem complete_renderCount (s : State) : s.complete.renderCount = s.renderCount := by
  unfold State.complete; split <;> rfl
@[simp] theorem complete_fastpathCount (s : State) : s.complete.fastpathCount = s.fastpathCount := by
  unfold State.complete; split <;> rfl
@[simp] theorem complete_sampleRate (s : State) : s.complete.sampleRate = s.sampleRate := by
  unfold State.complete; split <;> rfl
@[simp] theorem complete_bufSize (s : State) : s.complete.bufSize = s.bufSize := by
  unfold State.complete; split <;> rfl
@[simp] theorem complete_kernel (s : State) : s.complete.kernel = s.kernel := by
  unfold State.complete; split <;> rfl
@[simp] theorem complete_noteFreq (s : State) : s.complete.noteFreq = s.noteFreq := by
  unfold State.complete; split <;> rfl
@[simp] theorem complete_eg (s : State) : s.complete.eg = s.eg := by
  unfold State.complete; split <;> rfl
@[simp] theorem complete_dmem (s : State) : s.complete.dmem = s.dmem := by
  unfold State.complete; split <;> rfl
@[simp] theorem complete_cmd (s : State) : s.complete.cmd = s.cmd := by
  unfold State.complete; split <;> rfl
@[simp] theorem complete_epoch (s : State) : s.complete.epoch = s.epoch := by
  unfold State.complete; split <;> rfl
@[simp] theorem complete_inputs (s : State) : s.complete.inputs = s.inputs := by
  unfold State.complete; split <;> rfl
@[simp] theorem complete_portData (s : State) : s.complete.portData = s.portData := by
  unfold State.complete; split <;> rfl

@[simp] theorem getV_complete (s : State) (r : VReg) : s.complete.getV r = s.getV r := by
  simp [State.getV]
@[simp] theorem getEg_complete (s : State) (c : Ctx) : s.complete.getEg c = s.getEg c := by
  simp [State.getEg]

end Sys2Proof.Laws
end

