-- ==== Sys2Proof/Laws/Memory.lean ====
section
/-! SUPPORT. The two memories: read after write, writes that leave other addresses alone, and the canonical form, which
every operation keeps. -/

namespace Sys2Proof.Laws

open Sys2Proof.Machine

/-! ## Lists of bytes -/

theorem listed_enlist (m : Memory) (a x : Nat) (b : Byte) :
    (m.enlist a b).listed x = if a = x then some b else m.listed x := by
  induction m with
  | nil => simp [Memory.enlist, Memory.listed]
  | cons c m ih =>
    obtain ⟨k, c⟩ := c
    simp only [Memory.enlist]
    split
    · simp [Memory.listed]
    · split
      · next h1 h2 => subst h2; by_cases hx : a = x <;> simp [Memory.listed, hx]
      · next h1 h2 =>
        simp only [Memory.listed, ih]
        by_cases hk : k = x
        · simp [hk, show ¬ a = x by omega]
        · simp [hk]

theorem listed_delist (m : Memory) (a x : Nat) :
    Memory.listed (m.delist a) x = if a = x then none else Memory.listed m x := by
  induction m with
  | nil => simp [Memory.delist, Memory.listed]
  | cons c m ih =>
    obtain ⟨k, c⟩ := c
    by_cases hk : k = a
    · have e : Memory.delist ((k, c) :: m) a = Memory.delist m a := by simp [Memory.delist, hk]
      rw [e, ih]
      by_cases hx : a = x <;> simp [Memory.listed, hk, hx]
    · have e : Memory.delist ((k, c) :: m) a = (k, c) :: Memory.delist m a := by simp [Memory.delist, hk]
      rw [e]
      simp only [Memory.listed, ih]
      by_cases hx : k = x
      · simp [hx, show ¬ a = x by omega]
      · simp [hx]

/-- A byte reads as what was last stored there; a store leaves every other address alone. -/
theorem read_write (sp : Space) (m : Memory) (a x : Nat) (b : Byte) :
    Memory.read sp (Memory.write sp m a b) x = if a = x then some b else Memory.read sp m x := by
  unfold Memory.read Memory.write
  by_cases h : sp.unlisted a = some b
  · rw [if_pos h, listed_delist]
    by_cases hx : a = x
    · subst hx; simp [h]
    · simp [hx]
  · rw [if_neg h, listed_enlist]
    by_cases hx : a = x <;> simp [hx]

theorem read_writeWord (sp : Space) (m : Memory) (a x : Nat) (w : Word) :
    Memory.read sp (Memory.writeWord sp m a w) x =
      if x / 4 = a then some (byteOf w (x % 4)) else Memory.read sp m x := by
  simp only [Memory.writeWord, read_write]
  by_cases h : x / 4 = a
  · have : x % 4 = 0 ∨ x % 4 = 1 ∨ x % 4 = 2 ∨ x % 4 = 3 := by omega
    rcases this with e | e | e | e
    all_goals
      rw [e]
      simp only [h, if_true]
      split_ifs <;> first | rfl | omega
  · simp only [h, if_false]
    split_ifs <;> first | rfl | omega

/-! ## Bytes and words of the state -/

/-- A store of word a sets its four bytes and leaves every other byte of data memory alone. -/
theorem dmemByte_writeDmem (s : State) (a x : Nat) (w : Word) :
    (s.writeDmem a w).dmemByte x = if x / 4 = a then byteOf w (x % 4) else s.dmemByte x := by
  simp only [State.dmemByte, State.writeDmem, read_writeWord]
  split_ifs <;> rfl

theorem dmemByte_writeDmem_ne (s : State) (w : Word) {a x : Nat} (h : x / 4 ≠ a) :
    (s.writeDmem a w).dmemByte x = s.dmemByte x := by simp [dmemByte_writeDmem, h]

/-- A store of word k of command RAM sets its four bytes and leaves every other byte of it alone. -/
theorem cmdByte_writeCmd (s : State) (k x : Nat) (w : Word) :
    (s.writeCmd k w).cmdByte x = if x / 4 = k then byteOf w (x % 4) else s.cmdByte x := by
  simp only [State.cmdByte, State.writeCmd, read_writeWord]
  split_ifs <;> rfl

/-- The four bytes of a word make the word (20_memory.md R97). -/
theorem wordOf_byteOf (w : Word) : wordOf (byteOf w 0) (byteOf w 1) (byteOf w 2) (byteOf w 3) = w := by
  apply BitVec.eq_of_getLsbD_eq
  intro i hi
  simp only [wordOf, byteOf, BitVec.getLsbD_append, BitVec.getLsbD_extractLsb']
  interval_cases i <;> simp

@[simp] theorem dmemWord_writeDmem_same (s : State) (a : Nat) (w : Word) : (s.writeDmem a w).dmemWord a = w := by
  have h1 : (4 * a + 1) / 4 = a := by omega
  have h2 : (4 * a + 2) / 4 = a := by omega
  have h3 : (4 * a + 3) / 4 = a := by omega
  simp [State.dmemWord, dmemByte_writeDmem, h1, h2, h3, Nat.add_mod, wordOf_byteOf]

theorem dmemWord_writeDmem_ne (s : State) (w : Word) {a x : Nat} (h : x ≠ a) :
    (s.writeDmem a w).dmemWord x = s.dmemWord x := by
  have h0 : 4 * x / 4 ≠ a := by omega
  have h1 : (4 * x + 1) / 4 ≠ a := by omega
  have h2 : (4 * x + 2) / 4 ≠ a := by omega
  have h3 : (4 * x + 3) / 4 ≠ a := by omega
  simp only [State.dmemWord, dmemByte_writeDmem_ne _ _ h0, dmemByte_writeDmem_ne _ _ h1, dmemByte_writeDmem_ne _ _ h2,
    dmemByte_writeDmem_ne _ _ h3]

@[simp] theorem cmdWord_writeCmd_same (s : State) (k : Nat) (w : Word) : (s.writeCmd k w).cmdWord k = w := by
  have h1 : (4 * k + 1) / 4 = k := by omega
  have h2 : (4 * k + 2) / 4 = k := by omega
  have h3 : (4 * k + 3) / 4 = k := by omega
  simp [State.cmdWord, cmdByte_writeCmd, h1, h2, h3, Nat.add_mod, wordOf_byteOf]

/-- The byte of a word of data memory (20_memory.md R97). -/
theorem dmemWord_congr (s t : State) (a : Nat) (h : ∀ x, x / 4 = a → t.dmemByte x = s.dmemByte x) :
    t.dmemWord a = s.dmemWord a := by
  simp only [State.dmemWord]
  rw [h _ (by omega), h _ (by omega), h _ (by omega), h _ (by omega)]

/-! ## Reads after the other updates -/

@[simp] theorem dmemByte_setV (s : State) (r : VReg) (v : Lanes) (a : Nat) : (s.setV r v).dmemByte a = s.dmemByte a := rfl
@[simp] theorem dmemByte_setEg (s : State) (c : Ctx) (e : EgContext) (a : Nat) : (s.setEg c e).dmemByte a = s.dmemByte a := rfl
@[simp] theorem dmemByte_takeFault (s : State) (c : FaultCause) (w i : Word) (a : Nat) :
    (s.takeFault c w i).dmemByte a = s.dmemByte a := rfl
@[simp] theorem dmemByte_writeCmd (s : State) (k a : Nat) (w : Word) : (s.writeCmd k w).dmemByte a = s.dmemByte a := rfl
@[simp] theorem dmemByte_complete (s : State) (a : Nat) : s.complete.dmemByte a = s.dmemByte a := by
  simp [State.dmemByte]
@[simp] theorem cmdByte_setV (s : State) (r : VReg) (v : Lanes) (a : Nat) : (s.setV r v).cmdByte a = s.cmdByte a := rfl
@[simp] theorem cmdByte_setEg (s : State) (c : Ctx) (e : EgContext) (a : Nat) : (s.setEg c e).cmdByte a = s.cmdByte a := rfl
@[simp] theorem cmdByte_takeFault (s : State) (c : FaultCause) (w i : Word) (a : Nat) :
    (s.takeFault c w i).cmdByte a = s.cmdByte a := rfl
@[simp] theorem cmdByte_writeDmem (s : State) (x a : Nat) (w : Word) : (s.writeDmem x w).cmdByte a = s.cmdByte a := rfl
@[simp] theorem cmdByte_writeVec (s : State) (x a : Nat) (v : Lanes) : (s.writeVec x v).cmdByte a = s.cmdByte a := by
  simp only [State.writeVec, cmdByte_writeDmem]
@[simp] theorem cmdByte_complete (s : State) (a : Nat) : s.complete.cmdByte a = s.cmdByte a := by
  simp [State.cmdByte]

/-- MemWrite of four words from a (20_memory.md R96): the word a + l takes lane l, every other byte stays. -/
theorem dmemByte_writeVec (s : State) (a x : Nat) (v : Lanes) :
    (s.writeVec a v).dmemByte x =
      if x / 4 = a then byteOf v.l0 (x % 4) else if x / 4 = a + 1 then byteOf v.l1 (x % 4)
      else if x / 4 = a + 2 then byteOf v.l2 (x % 4) else if x / 4 = a + 3 then byteOf v.l3 (x % 4)
      else s.dmemByte x := by
  simp only [State.writeVec, dmemByte_writeDmem]
  split_ifs <;> first | rfl | omega

/-! ## The canonical form -/

/-- The canonical form of a list, entry by entry: strictly above `lo`. -/
theorem wf_cons (sp : Space) (k : Nat) (b : Byte) (m : Memory) :
    Memory.wf sp ((k, b) :: m) = true ↔
      (∀ c ∈ m, k < c.1) ∧ sp.unlisted k ≠ some b ∧ sp.holds k = true ∧ Memory.wf sp m = true := by
  simp [Memory.wf, and_assoc]

theorem mem_enlist (m : Memory) (a : Nat) (b : Byte) (c : Host.Cell) (h : c ∈ m.enlist a b) : c = (a, b) ∨ c ∈ m := by
  induction m with
  | nil => simpa [Memory.enlist] using h
  | cons d m ih =>
    obtain ⟨k, d⟩ := d
    simp only [Memory.enlist] at h
    split at h
    · simpa using h
    · split at h
      · simp only [List.mem_cons] at h ⊢; tauto
      · simp only [List.mem_cons] at h ⊢
        rcases h with h | h
        · tauto
        · rcases ih h with h | h <;> tauto

theorem enlist_wf (sp : Space) (m : Memory) (a : Nat) (b : Byte) (hm : Memory.wf sp m = true)
    (hu : sp.unlisted a ≠ some b) (hs : sp.holds a = true) : Memory.wf sp (m.enlist a b) = true := by
  induction m with
  | nil => simp [Memory.enlist, Memory.wf, hu, hs]
  | cons d m ih =>
    obtain ⟨k, d⟩ := d
    have hm' := hm
    rw [wf_cons] at hm
    simp only [Memory.enlist]
    split
    · next h =>
      rw [wf_cons]
      refine ⟨fun c hc => ?_, hu, hs, hm'⟩
      rcases List.mem_cons.1 hc with rfl | hc
      · exact h
      · exact lt_trans h (hm.1 c hc)
    · split
      · next h => subst h; rw [wf_cons]; exact ⟨hm.1, hu, hs, hm.2.2.2⟩
      · next h1 h2 =>
        rw [wf_cons]
        refine ⟨fun c hc => ?_, hm.2.1, hm.2.2.1, ih hm.2.2.2⟩
        rcases mem_enlist m a b c hc with rfl | hc
        · simp; omega
        · exact hm.1 c hc

theorem delist_wf (sp : Space) (m : Memory) (a : Nat) (hm : Memory.wf sp m = true) : Memory.wf sp (m.delist a) = true := by
  induction m with
  | nil => rfl
  | cons d m ih =>
    obtain ⟨k, d⟩ := d
    rw [wf_cons] at hm
    have ih' : Memory.wf sp (m.filter (fun c => c.1 != a)) = true := ih hm.2.2.2
    by_cases hk : k = a
    · simpa [Memory.delist, hk] using ih'
    · have : (Memory.delist ((k, d) :: m) a) = (k, d) :: m.filter (fun c => c.1 != a) := by simp [Memory.delist, hk]
      rw [this, wf_cons]
      exact ⟨fun c hc => hm.1 c (List.mem_filter.1 hc).1, hm.2.1, hm.2.2.1, ih'⟩

/-- A store into storage keeps the canonical form. -/
theorem write_wf (sp : Space) (m : Memory) (a : Nat) (b : Byte) (hm : Memory.wf sp m = true) (hs : sp.holds a = true) :
    Memory.wf sp (Memory.write sp m a b) = true := by
  unfold Memory.write
  split
  · exact delist_wf sp m a hm
  · next h => exact enlist_wf sp m a b hm h hs

theorem writeWord_wf (sp : Space) (m : Memory) (a : Nat) (w : Word) (hm : Memory.wf sp m = true)
    (h0 : sp.holds (4 * a) = true) (h1 : sp.holds (4 * a + 1) = true) (h2 : sp.holds (4 * a + 2) = true)
    (h3 : sp.holds (4 * a + 3) = true) : Memory.wf sp (Memory.writeWord sp m a w) = true :=
  write_wf _ _ _ _ (write_wf _ _ _ _ (write_wf _ _ _ _ (write_wf _ _ _ _ hm h0) h1) h2) h3

/-- A word outside the reserved ranges is one of the DMEM_WORDS. -/
theorem dmemWord_lt {a : Nat} (h : dmemReserved a = false) : a < Config.dmemWords := by
  simp only [dmemReserved, Bool.or_eq_false_iff, decide_eq_false_iff_not] at h
  simp only [Config.dmemWords]
  omega

/-- A store of a data-memory word outside the reserved ranges keeps the canonical form. -/
theorem writeDmem_wf (s : State) (a : Nat) (w : Word) (hm : Memory.wf .dmem s.dmem = true) (ha : dmemReserved a = false) :
    Memory.wf .dmem (s.writeDmem a w).dmem = true := by
  have e0 : 4 * a / 4 = a := by omega
  have e1 : (4 * a + 1) / 4 = a := by omega
  have e2 : (4 * a + 2) / 4 = a := by omega
  have e3 : (4 * a + 3) / 4 = a := by omega
  have hl : a < Config.dmemWords := dmemWord_lt ha
  apply writeWord_wf <;> simp [Space.holds, e0, e1, e2, e3, ha, hm, hl]

/-- A store of a command-RAM word keeps the canonical form. -/
theorem writeCmd_wf (s : State) (k : Nat) (w : Word) (hm : Memory.wf .cmd s.cmd = true) (hk : k < 1024) :
    Memory.wf .cmd (s.writeCmd k w).cmd = true := by
  apply writeWord_wf
  · exact hm
  all_goals simp only [Space.holds, Config.cmdWords, decide_eq_true_eq]; omega

theorem reset_dmem_wf : Memory.wf .dmem State.reset.dmem = true := rfl
theorem reset_cmd_wf : Memory.wf .cmd State.reset.cmd = true := rfl

end Sys2Proof.Laws
end

