-- ==== Sys2Proof/Laws/Ops.lean ====
section
/-! SUPPORT. One lemma per shared operation: everything that ending a command, raising a fault and the shapes of the
meanings can do, cited in place of their definitions. -/

namespace Sys2Proof.Laws

open Sys2Proof.Machine Sys2Proof.Safety

/-! ## Ending a command -/

theorem ended_complete (s : State) : Ended s s.complete := by
  refine ⟨complete_done s, fun h => ?_, fun h => ?_⟩
  · have hne : s.cp ≠ 1023#10 := fun e => by rw [e] at h; exact absurd h (by decide)
    rw [complete_of_lt s hne]
    refine ⟨?_, rfl, rfl, rfl, rfl⟩
    show (s.cp + 1#10).toNat = s.cp.toNat + 1
    rw [BitVec.toNat_add]
    exact Nat.mod_eq_of_lt (by simpa using (by omega : s.cp.toNat + 1 < 1024))
  · have he : s.cp = 1023#10 := BitVec.eq_of_toNat_eq (by simpa using h)
    rw [complete_of_last s he]
    refine ⟨rfl, rfl, ?_, rfl, rfl⟩
    show s.cp.setWidth 32 = 1023#32
    rw [he]; rfl

/-- Ending a command looks at the sequencer alone. -/
theorem ended_congr {s s' t : State} (hd : s'.done = s.done) (hc : s'.cp = s.cp) (hr : s'.runState = s.runState)
    (hf : SameFaultRegs s s') (h : Ended s' t) : Ended s t := by
  obtain ⟨h1, h2, h3⟩ := h
  refine ⟨h1.trans hd, fun hl => ?_, fun hl => ?_⟩
  · obtain ⟨a, b, c, d, e⟩ := h2 (by rw [hc]; exact hl)
    exact ⟨by rw [a, hc], b.trans hr, c.trans hf.1, d.trans hf.2.1, e.trans hf.2.2⟩
  · obtain ⟨a, b⟩ := h3 (by rw [hc]; exact hl)
    exact ⟨a.trans hc, b⟩

theorem complete_setV_runs (s : State) (d : VReg) (v : Lanes) : WritesOnlyV d s (s.setV d v).complete :=
  ⟨ended_congr rfl rfl rfl ⟨rfl, rfl, rfl⟩ (ended_complete (s.setV d v)),
    fun r hr => by rw [getV_complete, getV_setV_ne s v hr], fun c => by rw [getEg_complete, getEg_setV],
    ⟨complete_ovtIterCount _, complete_renderCount _, complete_fastpathCount _⟩,
    ⟨complete_sampleRate _, complete_bufSize _, complete_kernel _, complete_noteFreq _⟩,
    fun a => by rw [dmemByte_complete, dmemByte_setV], fun a => by rw [cmdByte_complete, cmdByte_setV],
    ⟨complete_epoch _, complete_inputs _, complete_portData _⟩⟩

/-- A command that only writes vector register `d`: where it ends, what `d` holds, and that nothing else changed. -/
theorem finish_setV (s : State) (d : VReg) (v : Lanes) :
    ∃ t, finish (s.setV d v) = .next t ∧ WritesOnlyV d s t ∧ t.getV d = v :=
  ⟨_, rfl, complete_setV_runs s d v, by rw [getV_complete, getV_setV_same]⟩

/-- A command that only writes envelope context `c`. -/
theorem finish_setEg (s : State) (c : Ctx) (e : EgContext) :
    ∃ t, finish (s.setEg c e) = .next t ∧ WritesOnlyEg c s t ∧ t.getEg c = e :=
  ⟨_, rfl,
    ⟨ended_congr rfl rfl rfl ⟨rfl, rfl, rfl⟩ (ended_complete (s.setEg c e)),
      fun r => by rw [getV_complete, getV_setEg], fun k hk => by rw [getEg_complete, getEg_setEg_ne s e hk],
      ⟨complete_ovtIterCount _, complete_renderCount _, complete_fastpathCount _⟩,
      ⟨complete_sampleRate _, complete_bufSize _, complete_kernel _, complete_noteFreq _⟩,
      fun a => by rw [dmemByte_complete, dmemByte_setEg], fun a => by rw [cmdByte_complete, cmdByte_setEg],
      ⟨complete_epoch _, complete_inputs _, complete_portData _⟩⟩,
    by rw [getEg_complete, getEg_setEg_same]⟩

/-! ## Raising a fault -/

/-- Raising a fault takes it with the command's own word, and changes nothing else. -/
theorem raise_next (i : Instr) (s : State) (c : FaultCause) (info : Word) :
    ∃ t, raise i s c info = .next t ∧ Faulted c (encode i) info s t := ⟨_, rfl, rfl⟩

theorem takeFault_faulted (s : State) (c : FaultCause) (w info : Word) : Faulted c w info s (s.takeFault c w info) := rfl

/-! ## The shapes of the FastMath commands -/

theorem get_map (f : Word → Word) (v : Lanes) (l : Fin 4) : (v.map f).get l = f (v.get l) := by
  fin_cases l <;> rfl

theorem get_map2 (f : Word → Word → Word) (u v : Lanes) (l : Fin 4) : (Lanes.map2 f u v).get l = f (u.get l) (v.get l) := by
  fin_cases l <;> rfl

theorem get_map3 (f : Word → Word → Word → Word) (u v w : Lanes) (l : Fin 4) :
    (Lanes.map3 f u v w).get l = f (u.get l) (v.get l) (w.get l) := by
  fin_cases l <;> rfl

theorem get_splat (w : Word) (l : Fin 4) : (Lanes.splat w).get l = w := by
  fin_cases l <;> rfl

theorem get_readVec (s : State) (a : Nat) (l : Fin 4) : (s.readVec a).get l = s.dmemWord (a + l.val) := by
  fin_cases l <;> rfl

theorem fmuUnary_next (f : Word → Word) (d v : VReg) (s : State) :
    ∃ t, fmuUnary f d v s = .next t ∧ WritesOnlyV d s t ∧ ∀ l, (t.getV d).get l = f ((s.getV v).get l) := by
  obtain ⟨t, h1, h2, h3⟩ := finish_setV s d ((s.getV v).map f)
  exact ⟨t, h1, h2, fun l => by rw [h3, get_map]⟩

theorem fmuBinary_next (f : Word → Word → Word) (d u v : VReg) (s : State) :
    ∃ t, fmuBinary f d u v s = .next t ∧ WritesOnlyV d s t ∧
      ∀ l, (t.getV d).get l = f ((s.getV u).get l) ((s.getV v).get l) := by
  obtain ⟨t, h1, h2, h3⟩ := finish_setV s d (Lanes.map2 f (s.getV u) (s.getV v))
  exact ⟨t, h1, h2, fun l => by rw [h3, get_map2]⟩

/-! ## Addresses -/

theorem dmemReserved_iff (a : Nat) : dmemReserved a = true ↔ Reserved a := by
  simp only [dmemReserved, Bool.or_eq_true, Bool.and_eq_true, decide_eq_true_eq, Reserved]
  constructor
  · rintro ((⟨h1, h2⟩ | ⟨⟨h1, h2⟩, h3⟩) | h)
    · exact .inl ⟨h1, by omega⟩
    · exact .inr (.inl ⟨a / 0x1000 - 2, by omega, by omega, by omega⟩)
    · exact .inr (.inr h)
  · rintro (⟨h1, h2⟩ | ⟨v, hv, h1, h2⟩ | h)
    · exact .inl (.inl ⟨h1, by omega⟩)
    · exact .inl (.inr ⟨⟨by omega, by omega⟩, by omega⟩)
    · exact .inr h

/-- The fault of an LDV or STV address, in order: MISALIGNED, then BAD_ADDRESS, else none. -/
theorem addressFault_cases (a : Nat) :
    (a % 4 ≠ 0 ∧ addressFault a = some .misaligned) ∨ (a % 4 = 0 ∧ Reserved a ∧ addressFault a = some .badAddress) ∨
    (a % 4 = 0 ∧ ¬ Reserved a ∧ addressFault a = none) := by
  unfold addressFault
  by_cases h : a % 4 = 0
  · by_cases hr : dmemReserved a = true
    · exact .inr (.inl ⟨h, (dmemReserved_iff a).1 hr, by simp [h, hr]⟩)
    · exact .inr (.inr ⟨h, fun hh => hr ((dmemReserved_iff a).2 hh), by simp [h, hr]⟩)
  · exact .inl ⟨h, by simp [h]⟩

end Sys2Proof.Laws
end

