-- ==== Sys2Proof/Laws/PerInstr.lean ====
section
/-! SUPPORT. One statement per command: the word that encodes it carries its opcode and meets its row of the opcode table
(30_encoding.md R130). -/

namespace Sys2Proof.Laws

/-- The encoding of a well-formed command carries its opcode and equals its row's match under the row's mask. -/
def EncodesRow.Statement (i : Instr) : Prop :=
  i.wf = true → fieldOp (encode i) = i.op ∧ ∃ r, rowOf i.op = some r ∧ encode i &&& r.mask = r.pattern

theorem or_out {a b m : Word} (ha : a &&& m = 0#32) (hb : b &&& m = 0#32) : (a ||| b) &&& m = 0#32 := by
  rw [or_and, ha, hb, BitVec.or_zero]

/-- A row of the table, and operand bits outside its mask, make the statement. -/
theorem encodesRow_of {i : Instr} (m p : Word) (hr : ∃ r, rowOf i.op = some r ∧ r.mask = m ∧ r.pattern = p)
    (hb : operandBits i &&& m = 0#32) (hp : i.op.setWidth 32 <<< 26 = p) : EncodesRow.Statement i := by
  intro _
  obtain ⟨r, hr, rfl, rfl⟩ := hr
  have hm := opTable_masks r (rowOf_mem hr).1
  have he : encode i &&& r.mask = r.pattern := by
    rw [encode, or_and, op_and _ _ hm.1, hb, BitVec.or_zero, hp]
  refine ⟨?_, r, hr, he⟩
  rw [← fieldOp_and (encode i) r.mask hm.1, he, hm.2, (rowOf_mem hr).2]

theorem EncodesRow.nop : EncodesRow.Statement .nop :=
  encodesRow_of 0xFFFFFFFF#32 0x04000000#32 ⟨_, rfl, rfl, rfl⟩
    (BitVec.zero_and) (by simp only [Instr.op]; decide)
theorem EncodesRow.endList : EncodesRow.Statement .endList :=
  encodesRow_of 0xFFFFFFFF#32 0x08000000#32 ⟨_, rfl, rfl, rfl⟩
    (BitVec.zero_and) (by simp only [Instr.op]; decide)
theorem EncodesRow.vlih (d : VReg) (imm : BitVec 16) : EncodesRow.Statement (.vlih d imm) :=
  encodesRow_of 0xFC3F0000#32 0x10000000#32 ⟨_, rfl, rfl, rfl⟩
    (or_out (and_of_bits (putD_bits d) (by decide)) (and_of_bits (putImm_bits imm) (by decide))) (by simp only [Instr.op]; decide)
theorem EncodesRow.vlil (d : VReg) (imm : BitVec 16) : EncodesRow.Statement (.vlil d imm) :=
  encodesRow_of 0xFC3F0000#32 0x14000000#32 ⟨_, rfl, rfl, rfl⟩
    (or_out (and_of_bits (putD_bits d) (by decide)) (and_of_bits (putImm_bits imm) (by decide))) (by simp only [Instr.op]; decide)
theorem EncodesRow.vmov (d s1 : VReg) : EncodesRow.Statement (.vmov d s1) :=
  encodesRow_of 0xFC03FFFF#32 0x18000000#32 ⟨_, rfl, rfl, rfl⟩
    (or_out (and_of_bits (putD_bits d) (by decide)) (and_of_bits (putS1_bits s1) (by decide))) (by simp only [Instr.op]; decide)
theorem EncodesRow.ldv (d : VReg) (addr : BitVec 16) : EncodesRow.Statement (.ldv d addr) :=
  encodesRow_of 0xFC3F0000#32 0x20000000#32 ⟨_, rfl, rfl, rfl⟩
    (or_out (and_of_bits (putD_bits d) (by decide)) (and_of_bits (putImm_bits addr) (by decide))) (by simp only [Instr.op]; decide)
theorem EncodesRow.stv (src : VReg) (addr : BitVec 16) : EncodesRow.Statement (.stv src addr) :=
  encodesRow_of 0xFC3F0000#32 0x24000000#32 ⟨_, rfl, rfl, rfl⟩
    (or_out (and_of_bits (putD_bits src) (by decide)) (and_of_bits (putImm_bits addr) (by decide))) (by simp only [Instr.op]; decide)
theorem EncodesRow.crr (d : VReg) (cr : BitVec 12) : EncodesRow.Statement (.crr d cr) :=
  encodesRow_of 0xFC3FF000#32 0x28000000#32 ⟨_, rfl, rfl, rfl⟩
    (or_out (and_of_bits (putD_bits d) (by decide)) (and_of_bits (putCr_bits cr) (by decide))) (by simp only [Instr.op]; decide)
theorem EncodesRow.crw (cr : BitVec 12) (src : VReg) : EncodesRow.Statement (.crw cr src) :=
  encodesRow_of 0xFC3FF000#32 0x2C000000#32 ⟨_, rfl, rfl, rfl⟩
    (or_out (and_of_bits (putD_bits src) (by decide)) (and_of_bits (putCr_bits cr) (by decide))) (by simp only [Instr.op]; decide)
theorem EncodesRow.fsin (d s1 : VReg) : EncodesRow.Statement (.fsin d s1) :=
  encodesRow_of 0xFC03FFFF#32 0x40000000#32 ⟨_, rfl, rfl, rfl⟩
    (or_out (and_of_bits (putD_bits d) (by decide)) (and_of_bits (putS1_bits s1) (by decide))) (by simp only [Instr.op]; decide)
theorem EncodesRow.fcos (d s1 : VReg) : EncodesRow.Statement (.fcos d s1) :=
  encodesRow_of 0xFC03FFFF#32 0x44000000#32 ⟨_, rfl, rfl, rfl⟩
    (or_out (and_of_bits (putD_bits d) (by decide)) (and_of_bits (putS1_bits s1) (by decide))) (by simp only [Instr.op]; decide)
theorem EncodesRow.flog (d s1 : VReg) : EncodesRow.Statement (.flog d s1) :=
  encodesRow_of 0xFC03FFFF#32 0x48000000#32 ⟨_, rfl, rfl, rfl⟩
    (or_out (and_of_bits (putD_bits d) (by decide)) (and_of_bits (putS1_bits s1) (by decide))) (by simp only [Instr.op]; decide)
theorem EncodesRow.fexp (d s1 : VReg) : EncodesRow.Statement (.fexp d s1) :=
  encodesRow_of 0xFC03FFFF#32 0x4C000000#32 ⟨_, rfl, rfl, rfl⟩
    (or_out (and_of_bits (putD_bits d) (by decide)) (and_of_bits (putS1_bits s1) (by decide))) (by simp only [Instr.op]; decide)
theorem EncodesRow.fpow (d base expo : VReg) : EncodesRow.Statement (.fpow d base expo) :=
  encodesRow_of 0xFC003FFF#32 0x50000000#32 ⟨_, rfl, rfl, rfl⟩
    (or_out (or_out (and_of_bits (putD_bits d) (by decide)) (and_of_bits (putS1_bits base) (by decide))) (and_of_bits (putS2_bits expo) (by decide))) (by simp only [Instr.op]; decide)
theorem EncodesRow.fsel (d mask a b : VReg) : EncodesRow.Statement (.fsel d mask a b) :=
  encodesRow_of 0xFC0003FF#32 0x54000000#32 ⟨_, rfl, rfl, rfl⟩
    (or_out (or_out (or_out (and_of_bits (putD_bits d) (by decide)) (and_of_bits (putS1_bits mask) (by decide))) (and_of_bits (putS2_bits a) (by decide))) (and_of_bits (putS3_bits b) (by decide))) (by simp only [Instr.op]; decide)
theorem EncodesRow.ffloor (d s1 : VReg) : EncodesRow.Statement (.ffloor d s1) :=
  encodesRow_of 0xFC03FFFF#32 0x58000000#32 ⟨_, rfl, rfl, rfl⟩
    (or_out (and_of_bits (putD_bits d) (by decide)) (and_of_bits (putS1_bits s1) (by decide))) (by simp only [Instr.op]; decide)
theorem EncodesRow.ffrexpm (d s1 : VReg) : EncodesRow.Statement (.ffrexpm d s1) :=
  encodesRow_of 0xFC03FFFF#32 0x5C000000#32 ⟨_, rfl, rfl, rfl⟩
    (or_out (and_of_bits (putD_bits d) (by decide)) (and_of_bits (putS1_bits s1) (by decide))) (by simp only [Instr.op]; decide)
theorem EncodesRow.ffrexpe (d s1 : VReg) : EncodesRow.Statement (.ffrexpe d s1) :=
  encodesRow_of 0xFC03FFFF#32 0x60000000#32 ⟨_, rfl, rfl, rfl⟩
    (or_out (and_of_bits (putD_bits d) (by decide)) (and_of_bits (putS1_bits s1) (by decide))) (by simp only [Instr.op]; decide)
theorem EncodesRow.fldexp (d x n : VReg) : EncodesRow.Statement (.fldexp d x n) :=
  encodesRow_of 0xFC003FFF#32 0x64000000#32 ⟨_, rfl, rfl, rfl⟩
    (or_out (or_out (and_of_bits (putD_bits d) (by decide)) (and_of_bits (putS1_bits x) (by decide))) (and_of_bits (putS2_bits n) (by decide))) (by simp only [Instr.op]; decide)
theorem EncodesRow.egtrig (ctx : Ctx) (time anticlick : VReg) : EncodesRow.Statement (.egtrig ctx time anticlick) :=
  encodesRow_of 0xFFC000FF#32 0x80000000#32 ⟨_, rfl, rfl, rfl⟩
    (or_out (or_out (and_of_bits (putS1_bits time) (by decide)) (and_of_bits (putS2_bits anticlick) (by decide))) (and_of_bits (putCtx_bits ctx) (by decide))) (by simp only [Instr.op]; decide)
theorem EncodesRow.egoff (ctx : Ctx) (time : VReg) : EncodesRow.Statement (.egoff ctx time) :=
  encodesRow_of 0xFFC3C0FF#32 0x84000000#32 ⟨_, rfl, rfl, rfl⟩
    (or_out (and_of_bits (putS1_bits time) (by decide)) (and_of_bits (putCtx_bits ctx) (by decide))) (by simp only [Instr.op]; decide)
theorem EncodesRow.egeval (d : VReg) (ctx : Ctx) (time : VReg) : EncodesRow.Statement (.egeval d ctx time) :=
  encodesRow_of 0xFC03C0FF#32 0x88000000#32 ⟨_, rfl, rfl, rfl⟩
    (or_out (or_out (and_of_bits (putD_bits d) (by decide)) (and_of_bits (putS1_bits time) (by decide))) (and_of_bits (putCtx_bits ctx) (by decide))) (by simp only [Instr.op]; decide)
theorem EncodesRow.kclr : EncodesRow.Statement .kclr :=
  encodesRow_of 0xFFFFFFFF#32 0xA0000000#32 ⟨_, rfl, rfl, rfl⟩
    (BitVec.zero_and) (by simp only [Instr.op]; decide)
theorem EncodesRow.krender (vv : BitVec 4) : EncodesRow.Statement (.krender vv) :=
  encodesRow_of 0xFC3FFFFF#32 0xA4000000#32 ⟨_, rfl, rfl, rfl⟩
    (and_of_bits (putD_bits vv) (by decide)) (by simp only [Instr.op]; decide)
theorem EncodesRow.vbcast (d s1 : VReg) (lane : BitVec 4) : EncodesRow.Statement (.vbcast d s1 lane) := by
  intro h
  have hl : lane.toNat < 4 := by simpa [Instr.wf] using h
  exact encodesRow_of (i := .vbcast d s1 lane) 0xFC033FFF#32 0x1C000000#32 ⟨_, rfl, rfl, rfl⟩
    (or_out (or_out (and_of_bits (putD_bits d) (by decide)) (and_of_bits (putS1_bits s1) (by decide)))
      (and_of_bits (putS2_lane_bits lane hl) (by decide))) (by simp only [Instr.op]; decide) h

end Sys2Proof.Laws
end

