-- ==== Sys2Proof/Tests/Slice0.lean ====
section
/-! SUPPORT. Tests. Expected values are those of 95_test_vectors.md (the file that computed them is outside the model), of
the encodings of 30_encoding.md R130 and R135 written out by hand, or of the register tables of 10_state.md. The witness
theorems at the end show, for every statement with hypotheses, concrete states and operands that meet them. -/

namespace Sys2Proof.Tests

set_option Elab.async false

open Sys2Proof.Machine Sys2Proof.Safety Sys2Proof.Laws

/-! ## Helpers -/

/-- RUNNING at command `k`, about to fetch the word `w`. -/
def fetching (k : BitVec 10) (w : Word) : State := { State.reset with cp := k }.withFetchWord 32 w.toNat

/-- RUNNING at command 0 with `i` there. -/
def at0 (i : Instr) : State := fetching 0#10 (encode i)

/-- RUNNING at command 1023 with `i` there. -/
def at1023 (i : Instr) : State := fetching 1023#10 (encode i)

/-- The state after one step. -/
def after (s : State) : State :=
  match step s with
  | .next t => t
  | .fault _ => s
  | .refused _ => s

/-- One step answers a next state. -/
def goesOn (s : State) : Bool :=
  match step s with
  | .next _ => true
  | .fault _ => false
  | .refused _ => false

theorem step_after {s : State} (h : goesOn s = true) : step s = .next (after s) := by
  unfold goesOn at h
  unfold after
  split at h <;> simp_all

/-- The state after exec. -/
def did (i : Instr) (s : State) : State :=
  match exec i s with
  | .next t => t
  | .fault _ => s
  | .refused _ => s

/-- exec answers a next state. -/
def runs (i : Instr) (s : State) : Bool :=
  match exec i s with
  | .next _ => true
  | .fault _ => false
  | .refused _ => false

theorem exec_did {i : Instr} {s : State} (h : runs i s = true) : exec i s = .next (did i s) := by
  unfold runs at h
  unfold did
  split at h <;> simp_all

/-- Register `r` holds `w` in every lane. -/
def holding (s : State) (r : VReg) (w : Word) : State := s.setV r (Lanes.splat w)

/-- Stores words from address `a` on. -/
def preset : State → Nat → List Word → State
  | s, _, [] => s
  | s, a, w :: ws => preset (s.writeDmem a w) (a + 1) ws

/-- STATUS, FAULT_CP, FAULT_WORD and FAULT_INFO after one step. -/
def faultRegs (s : State) : Word × Word × Word × Word :=
  ((after s).status, (after s).faultCp, (after s).faultWord, (after s).faultInfo)

/-! ## Decoding: the words of 95_test_vectors.md sections 5 and 6, and of R130 and R135 -/

theorem test_decode_nop : decode 0x04000000#32 = .ok .nop := by decide
theorem test_decode_end : decode 0x08000000#32 = .ok .endList := by decide
theorem test_decode_vlih : decode 0x1040C000#32 = .ok (.vlih 1 0xC000) := by decide
theorem test_decode_vlil : decode 0x14401234#32 = .ok (.vlil 1 0x1234) := by decide
theorem test_decode_vmov : decode 0x18840000#32 = .ok (.vmov 2 1) := by decide
theorem test_decode_vbcast : decode 0x1C08C000#32 = .ok (.vbcast 0 2 3) ∧ decode 0x1E144000#32 = .ok (.vbcast 8 5 1) := by
  decide
theorem test_decode_ldv : decode 0x21401000#32 = .ok (.ldv 5 0x1000) := by decide
theorem test_decode_stv : decode 0x25002800#32 = .ok (.stv 4 0x2800) := by decide
theorem test_decode_crr : decode 0x28800009#32 = .ok (.crr 2 0x009) := by decide
theorem test_decode_crw : decode 0x2C400040#32 = .ok (.crw 0x040 1) := by decide
theorem test_decode_fsin : decode 0x41D00000#32 = .ok (.fsin 7 4) := by decide
theorem test_decode_fcos : decode 0x46100000#32 = .ok (.fcos 8 4) := by decide
theorem test_decode_flog : decode 0x49880000#32 = .ok (.flog 6 2) := by decide
theorem test_decode_fexp : decode 0x4D500000#32 = .ok (.fexp 5 4) := by decide
theorem test_decode_fpow : decode 0x50C48000#32 = .ok (.fpow 3 1 2) := by decide
theorem test_decode_fsel : decode 0x56448C00#32 = .ok (.fsel 9 1 2 3) ∧ decode 0x56A44800#32 = .ok (.fsel 10 9 1 2) := by
  decide
theorem test_decode_ffloor : decode 0x5B880000#32 = .ok (.ffloor 14 2) := by decide
theorem test_decode_ffrexpm : decode 0x5EC80000#32 = .ok (.ffrexpm 11 2) := by decide
theorem test_decode_ffrexpe : decode 0x63080000#32 = .ok (.ffrexpe 12 2) := by decide
theorem test_decode_fldexp : decode 0x676F0000#32 = .ok (.fldexp 13 11 12) := by decide
theorem test_decode_egtrig : decode 0x80048500#32 = .ok (.egtrig 5 1 2) := by decide
theorem test_decode_egoff : decode 0x843C3F00#32 = .ok (.egoff 63 15) := by decide
theorem test_decode_egeval : decode 0x89080500#32 = .ok (.egeval 4 5 2) := by decide
theorem test_decode_kclr : decode 0xA0000000#32 = .ok .kclr := by decide
theorem test_decode_krender : decode 0xA4000000#32 = .ok (.krender 0) ∧ decode 0xA7000000#32 = .ok (.krender 12) := by
  decide

theorem test_decode_illegal : [0x00000000#32, 0xFFFFFFFF#32, 0x3C000000#32, 0x0C000000#32].Forall fun w =>
    decode w = .error .illegalOpcode := by decide
theorem test_decode_reserved_field :
    decode 0x04000001#32 = .error (.reservedField 0x00000001#32) ∧
    decode 0x1C0B0000#32 = .error (.reservedField 0x00030000#32) ∧
    decode 0x18000001#32 = .error (.reservedField 0x00000001#32) ∧
    decode 0x80400000#32 = .error (.reservedField 0x00400000#32) ∧
    decode 0x84004000#32 = .error (.reservedField 0x00004000#32) ∧
    decode 0xA4000001#32 = .error (.reservedField 0x00000001#32) := by decide

theorem test_decode_table_word : decodeTableWord 32 0x50C48000 = some (.fpow 3 1 2) ∧ decodeTableWord 32 0 = none := by
  decide

/-- No two rows of the opcode table share an opcode, and none of the map of Safety is missing. -/
theorem test_opcode_table : (opTable.map (fun r => (r.op.toNat, r.pattern, r.mask))) = opcodeMap ∧ legalOpcodes.Nodup := by
  decide +kernel

/-! ## Well-formed terms (30_encoding.md R129, R134) -/

theorem test_wf_refuses_lane_4 : (Instr.vbcast 0 0 4).wf = false ∧ (Instr.vbcast 0 0 3).wf = true := by decide
theorem test_wf_refuses_register_16 : Operand.vreg 16 = none ∧ Operand.vreg 15 = some 15 := by decide
theorem test_wf_refuses_imm_0x10000 : Operand.imm16 0x10000 = none ∧ Operand.imm16 0xFFFF = some 0xFFFF := by decide
theorem test_wf_refuses_cr_0x1000 : Operand.cr 0x1000 = none ∧ Operand.cr 0xFFF = some 0xFFF := by decide
theorem test_wf_refuses_ctx_64 : Operand.ctx 64 = none ∧ Operand.ctx 63 = some 63 := by decide
theorem test_wf_refuses_lane_operand_4 : Operand.lane 4 = none ∧ Operand.lane 3 = some 3 := by decide
theorem test_wf_refuses_vv_16 : Operand.vv 16 = none ∧ Operand.vv 15 = some 15 := by decide

/-! ## Assembler lines (30_encoding.md R133, R134) -/

theorem test_asm_fpow : Asm.line "fpow v3, v1,v2  # x" = some [.fpow 3 1 2] := by decide
theorem test_asm_vlf : Asm.line "  VLF v2, 0.1" = some [.vlih 2 0x3DCC, .vlil 2 0xCCCD] := by decide
theorem test_asm_crw_name : Asm.line "CRW EG3.ATTACK_SECS, v7" = some [.crw 0x161 7] := by decide
/-- Leading zeros count for nothing: the model's choice, log 16. -/
theorem test_asm_leading_zeros : Asm.line "CRW EG03.ATTACK_SECS, v07" = some [.crw 0x161 7] := by decide
theorem test_asm_refuses_vv_16 : Asm.line "KRENDER 16" = none := by decide

/-! ## Sequencing and data movement (95_test_vectors.md 5.1) -/

theorem test_nop : (after (at0 .nop)).cp = 1#10 ∧ (after (at0 .nop)).status = 0x00000001#32 := by decide +kernel
/-- F15. -/
theorem test_end : (after (at1023 .endList)).status = 0x00000002#32 ∧ (after (at1023 .endList)).cp = 1023#10 := by
  decide +kernel
theorem test_vlih : (after (at0 (.vlih 1 0xC000))).getV 1 = Lanes.splat 0xC0000000#32 := by decide +kernel
theorem test_vlil : (after (holding (at0 (.vlil 1 0x1234)) 1 0xC0000000#32)).getV 1 = Lanes.splat 0xC0001234#32 := by
  decide +kernel
theorem test_vmov : (after ((at0 (.vmov 2 1)).setV 1 ⟨1#32, 2#32, 3#32, 4#32⟩)).getV 2 = ⟨1#32, 2#32, 3#32, 4#32⟩ := by
  decide +kernel
theorem test_vbcast : (after ((at0 (.vbcast 0 2 3)).setV 2 ⟨1#32, 2#32, 3#32, 4#32⟩)).getV 0 = Lanes.splat 4#32 := by
  decide +kernel
theorem test_ldv : (after (preset (at0 (.ldv 5 0x1000)) 0x1000 [1#32, 2#32, 3#32, 4#32])).getV 5 =
    ⟨1#32, 2#32, 3#32, 4#32⟩ := by decide +kernel
theorem test_stv : ((after ((at0 (.stv 4 0x2800)).setV 4 ⟨1#32, 2#32, 3#32, 0x3F000000#32⟩)).dmemWord 0x2802,
    (after ((at0 (.stv 4 0x2800)).setV 4 ⟨1#32, 2#32, 3#32, 0x3F000000#32⟩)).dmemWord 0x2803) =
    (3#32, 0x3F000000#32) := by decide +kernel
theorem test_crr : (after (at0 (.crr 2 0x009))).getV 2 = Lanes.splat 0x400A1004#32 := by decide +kernel
/-- F16. -/
theorem test_crr_status : (after (at0 (.crr 0 0x000))).getV 0 = Lanes.splat 0x00000001#32 ∧
    (after (fetching 1#10 0x28400007#32)).getV 1 = Lanes.splat 0x00000001#32 := by decide +kernel
theorem test_crw : ((after ((at0 (.crw 0x040 1)).setV 1 ⟨0x43DC0000#32, 1#32, 2#32, 3#32⟩)).readCr (.noteFreq 0)) =
    0x43DC0000#32 := by decide +kernel
theorem test_crw_eg_flags : (after (holding (at0 (.crw 0x108 1)) 1 0xFFFFFFFF#32)).readCr (.egFlags 0) = 1#32 := by
  decide +kernel

/-! ## FastMath (95_test_vectors.md section 2) -/

theorem test_fsin : (after ((at0 (.fsin 7 4)).setV 4 ⟨0x3F800000#32, 0x42C80000#32, 0x80000000#32, 0x40C90FDB#32⟩)).getV 7 =
    ⟨0x3F576AA4#32, 0xBF01A12E#32, 0x80000000#32, 0x343BBD2E#32⟩ := by decide +kernel
theorem test_fcos : (after ((at0 (.fcos 8 4)).setV 4 ⟨0xBF800000#32, 0x46000000#32, 0x80000000#32, 0x7F800000#32⟩)).getV 8 =
    ⟨0x3F0A5140#32, 0x3E95EA1F#32, 0x3F800000#32, 0xFFC00000#32⟩ := by decide +kernel
theorem test_flog : (after ((at0 (.flog 6 2)).setV 2 ⟨0x40000000#32, 0x40200000#32, 0xBF800000#32, 0x7F800000#32⟩)).getV 6 =
    ⟨0x3F317218#32, 0x3F6A9208#32, 0xC2AEAC50#32, 0x42B17218#32⟩ := by decide +kernel
theorem test_fexp : (after ((at0 (.fexp 5 4)).setV 4 ⟨0x3F800000#32, 0x42C80000#32, 0xC2C80000#32, 0xC10BBD0D#32⟩)).getV 5 =
    ⟨0x402DF854#32, 0x7F7FFFFF#32, 0x00800000#32, 0x3928E59D#32⟩ := by decide +kernel
theorem test_fpow : (after (((at0 (.fpow 3 1 2)).setV 1 ⟨0xC0000000#32, 0xC0000000#32, 0x41200000#32, 0x00000000#32⟩).setV 2
    ⟨0x40400000#32, 0x40200000#32, 0x3F000000#32, 0xBF800000#32⟩)).getV 3 =
    ⟨0xC1000000#32, 0x00000000#32, 0x404A62C2#32, 0x7E80001A#32⟩ := by decide +kernel
theorem test_fsel : (after ((holding (holding (at0 (.fsel 10 9 1 2)) 9 0xFFFF0000#32) 1 0x3F800000#32).setV 2
    ⟨0x4000ABCD#32, 0x40200000#32, 0#32, 0xFFFFFFFF#32⟩)).getV 10 =
    ⟨0x3F80ABCD#32, 0x3F800000#32, 0x3F800000#32, 0x3F80FFFF#32⟩ := by decide +kernel
theorem test_ffloor :
    (after ((at0 (.ffloor 14 2)).setV 2 ⟨0xC0200000#32, 0x8DA24260#32, 0x80000000#32, 0x4B000001#32⟩)).getV 14 =
    ⟨0xC0400000#32, 0xBF800000#32, 0x80000000#32, 0x4B000001#32⟩ := by decide +kernel
theorem test_ffrexpm :
    (after ((at0 (.ffrexpm 11 2)).setV 2 ⟨0xC0400000#32, 0x00000001#32, 0xFF800000#32, 0x7F7FFFFF#32⟩)).getV 11 =
    ⟨0xBF400000#32, 0x00000001#32, 0xFF800000#32, 0x3F7FFFFF#32⟩ := by decide +kernel
theorem test_ffrexpe :
    (after ((at0 (.ffrexpe 12 2)).setV 2 ⟨0xC0400000#32, 0x00800000#32, 0xFF800000#32, 0x7F7FFFFF#32⟩)).getV 12 =
    ⟨0x40000000#32, 0xC2FA0000#32, 0x00000000#32, 0x43000000#32⟩ := by decide +kernel
theorem test_fldexp : (after (((at0 (.fldexp 13 11 12)).setV 11
    ⟨0x3FC00000#32, 0x00800000#32, 0x3F800000#32, 0x40400000#32⟩).setV 12
    ⟨0x40400000#32, 0xBF800000#32, 0x7FC00000#32, 0x43480000#32⟩)).getV 13 =
    ⟨0x41400000#32, 0x00400000#32, 0x00800000#32, 0x7F800000#32⟩ := by decide +kernel

/-! ## Envelopes (95_test_vectors.md section 3) -/

/-- The parameters of E2. -/
def egParamsE2 : EgParams where
  attackLevel := 0x3F800000#32
  attackSecs := 0x3DCCCCCD#32
  attackPow := 0x40000000#32
  sustainLevel := 0x3F000000#32
  decaySecs := 0x3E4CCCCD#32
  decayPow := 0x3F000000#32
  releaseSecs := 0x3F000000#32
  releasePow := 0x40000000#32

/-- Context 0 with the parameters of E2. -/
def withE2 (s : State) : State := s.setEg 0 { s.getEg 0 with params := egParamsE2 }

/-- V1 = 1.0, the trigger time of E2; V2 = 0.05; V5 lane 0 = 1.2. -/
def egOperands (s : State) : State :=
  (holding (holding s 1 0x3F800000#32) 2 0x3D4CCCCD#32).setV 5 ⟨0x3F99999A#32, 0x3FB9999A#32, 0x3FD9999A#32, 0x40000000#32⟩

/-- Context 0 triggered as in E2. -/
def triggered (s : State) : State := did (.egtrig 0 1 2) (egOperands (withE2 s))

/-- E2: at 1.0 on a context never triggered. -/
theorem test_egtrig : (triggered State.reset).getEg 0 =
    { params := egParamsE2, autoRelease := false, state := {
        triggered := true
        tTrigger := 0x3F800000#32
        tZeroEnd := 0x3F800000#32
        tAttackEnd := 0x3F8CCCCD#32
        tDecayEnd := 0x3FA66667#32
        tRelease := 0x7F800000#32
        tOffEnd := 0x7F800000#32
        onLevel := 0x00000000#32
        offLevel := 0x00000000#32 } } := by decide +kernel

/-- P2, commands 21 and 22: off at 1.2, then the release at 1.2, 1.45, 1.7 and 2.0. -/
theorem test_egoff : (did (.egeval 6 0 5) (did (.egoff 0 5) (triggered State.reset))).getV 6 =
    ⟨0x3F257D86#32, 0x3EF83C49#32, 0x00000000#32, 0x00000000#32⟩ := by decide +kernel

/-- P2, commands 17 and 18: 1.0, 1.05, 1.1 and 1.2 after the trigger. -/
theorem test_egeval : (did (.egeval 4 0 3) ((triggered State.reset).setV 3
    ⟨0x3F800000#32, 0x3F866666#32, 0x3F8CCCCD#32, 0x3F99999A#32⟩)).getV 4 =
    ⟨0x00000000#32, 0x3E7FFFD8#32, 0x3F800000#32, 0x3F257D86#32⟩ := by decide +kernel

/-! ## Kernel (95_test_vectors.md section 4) -/

/-- The common setup: BUFSIZE 4, 440 Hz, one overtone, the curves of voice 0, OUT cleared. -/
def voice (s : State) : State :=
  preset (preset (preset (preset
    { s with
      bufSize := 4#32
      noteFreq := s.noteFreq.set 0 0x43DC0000#32
      kernel := { s.kernel with overtoneCount := 1#32 } }
    0x2000 [0#32, 0#32, 0#32, 0#32])
    0x2400 [0x3F800000#32, 0x3F800000#32, 0x3F800000#32, 0x3F800000#32])
    0x2800 [0x3F000000#32, 0x3F000000#32, 0x3F000000#32, 0x3F000000#32])
    0x1000 [0#32, 0#32, 0#32, 0#32, 0#32, 0#32, 0#32, 0#32]

/-- The words of OUT. -/
def outWords (s : State) : List Word := (List.range 8).map (fun k => s.dmemWord (0x1000 + k))

theorem test_kclr : outWords (after (preset (voice (at0 .kclr)) 0x1000 [1#32, 2#32, 3#32, 4#32, 5#32, 6#32, 7#32, 8#32])) =
    List.replicate 8 0#32 := by decide +kernel

/-- K1. -/
theorem test_krender : (outWords (after (voice (at0 (.krender 0)))), (after (voice (at0 (.krender 0)))).dmemWord 0xC000,
    (after (voice (at0 (.krender 0)))).ovtIterCount) =
    ([0#32, 0#32, 0x3D004DC4#32, 0x3D004DC4#32, 0x3D800D3F#32, 0x3D800D3F#32, 0x3DBF72D2#32, 0x3DBF72D2#32],
      0x3E80634A#32, 1#32) := by decide +kernel

/-! ## Faults (95_test_vectors.md 5.2, 5.3) -/

theorem test_fault_F1 : faultRegs (at0 (.krender 12)) = (0x00000804#32, 0#32, 0xA7000000#32, 0x0000000C#32) := by
  decide +kernel
theorem test_fault_F3 : faultRegs (at0 .kclr) = (0x00000904#32, 0#32, 0xA0000000#32, 0#32) := by decide +kernel
theorem test_fault_F4 : faultRegs (at0 (.ldv 0 0x1802)) = (0x00000404#32, 0#32, 0x20001802#32, 0x00001802#32) := by
  decide +kernel
theorem test_fault_F6 : faultRegs (at0 (.stv 0 0x2C00)) = (0x00000304#32, 0#32, 0x24002C00#32, 0x00002C00#32) := by
  decide +kernel
theorem test_fault_F11 : faultRegs (at0 (.crr 0 0x111)) = (0x00000504#32, 0#32, 0x28000111#32, 0x00000111#32) := by
  decide +kernel
theorem test_fault_F10 : faultRegs (at0 (.crw 0x109 0)) = (0x00000604#32, 0#32, 0x2C000109#32, 0x00000109#32) := by
  decide +kernel
/-- F13, at its command 2. -/
theorem test_fault_F13 : faultRegs (holding (fetching 2#10 0x2DC00011#32) 7 6#32) =
    (0x00000704#32, 2#32, 0x2DC00011#32, 0x00000006#32) := by decide +kernel
theorem test_fault_F14 : faultRegs (at1023 .nop) = (0x00000A04#32, 1023#32, 0#32, 0x00000400#32) := by decide +kernel
theorem test_fault_illegal : faultRegs (fetching 0#10 0xFFFFFFFF#32) = (0x00000104#32, 0#32, 0xFFFFFFFF#32, 0xFFFFFFFF#32) := by
  decide +kernel
theorem test_fault_reserved_field : faultRegs (fetching 0#10 0x1C0B0000#32) =
    (0x00000204#32, 0#32, 0x1C0B0000#32, 0x00030000#32) := by decide +kernel

/-! ## The host (60_exceptions.md R351, R352; 70_reset_and_hazards.md R370) -/

theorem test_host_go : (after { State.reset with inputs := [.write 0x60000#19 4 0xFFFFFC05#32] }).cp = 5#10 ∧
    (after { State.reset with inputs := [.write 0x60000#19 4 0xFFFFFC05#32] }).status = 1#32 := by decide +kernel
theorem test_host_read : (after { State.reset with inputs := [.read 0x50040#19 4] }).portData = 0x472C4400#32 := by
  decide +kernel
theorem test_host_reset : (after { after (at0 .kclr) with inputs := [.reset] }).status = 0#32 := by decide +kernel

/-! ## Witnesses: encodings -/

theorem witness_DecodeReadsBackEveryEncodedCommand :
    (Instr.vbcast 15 15 3).wf = true ∧ (Instr.fsel 15 15 15 15).wf = true ∧ (Instr.krender 15).wf = true := by decide

theorem witness_EveryDecodedWordIsTheEncodingOfItsCommand :
    decode 0x57FFFC00#32 = .ok (.fsel 15 15 15 15) ∧ decode 0x2FC00FFF#32 = .ok (.crw 0xFFF 15) := by decide

/-- An unassigned opcode at each end of the range and between two families; a row's word with a bad bit, and a good one. -/
theorem witness_DecodingFollowsTheOpcodeMapOverAllWords :
    ([0x00000000#32, 0x0C000000#32, 0x6BFFFFFF#32, 0xFFFFFFFF#32].Forall fun w =>
      Fetches (fetching 0#10 w) w ∧ (w >>> 26).toNat ∉ legalOpcodes) ∧
    (Fetches (fetching 1023#10 0x1C010000#32) 0x1C010000#32 ∧ (0x07, 0x1C000000#32, 0xFC033FFF#32) ∈ opcodeMap ∧
      ((0x1C010000#32 : Word) >>> 26).toNat = 0x07 ∧ 0x1C010000#32 &&& 0xFC033FFF#32 ≠ 0x1C000000#32) ∧
    (Fetches (fetching 0#10 0x1FFCC000#32) 0x1FFCC000#32 ∧ ((0x1FFCC000#32 : Word) >>> 26).toNat = 0x07 ∧
      0x1FFCC000#32 &&& 0xFC033FFF#32 = 0x1C000000#32) := by
  unfold Fetches
  decide +kernel

/-- What `EncodedBy` asks of a word and a state, for every row: a word of the row, and a fetched word of the row's opcode with
its must-be-zero bits set. -/
theorem witness_EncodedBy :
    ∀ r ∈ opcodeMap, r.2.1 &&& r.2.2 = r.2.1 ∧
      Fetches (fetching 0#10 (r.2.1 ||| r.2.2 &&& 0x03FFFFFF#32)) (r.2.1 ||| r.2.2 &&& 0x03FFFFFF#32) ∧
      (r.2.1 ||| r.2.2 &&& 0x03FFFFFF#32) &&& 0xFC000000#32 = r.2.1 &&& 0xFC000000#32 ∧
      (r.2.1 ||| r.2.2 &&& 0x03FFFFFF#32) &&& r.2.2 ≠ r.2.1 := by
  unfold Fetches
  decide +kernel

theorem witness_PseudoInstructionVliLoadsItsImmediate : (fetching 1021#10 0x04000000#32).cp.toNat < 1022 := by decide

/-! ## Witnesses: the sequencer -/

theorem witness_StepRunsTheDecodedCommand :
    ([0#10, 1023#10].Forall fun k => (fetching k 0x50C48000#32).runState = .running ∧
      decode ((fetching k 0x50C48000#32).cmdWord (fetching k 0x50C48000#32).cp.toNat) = .ok (.fpow 3 1 2) ∧
      (fetching k 0x50C48000#32).inputs = []) ∧
    { fetching 0#10 0x50C48000#32 with inputs := [.pass] }.inputs = .pass :: [] := by decide +kernel

/-- Each clause: IDLE to RUNNING by GO; RUNNING to RUNNING, FAULTED and IDLE; FAULTED left by reset. -/
theorem witness_RunStateFollowsItsTransitions :
    (State.reset.runState ≠ .running ∧ State.reset.inputs = []) ∧
    (∃ s t, step s = .next t ∧ s.runState = .idle ∧ t.runState = .running) ∧
    (∃ s t, step s = .next t ∧ s.runState = .running ∧ t.runState = .running) ∧
    (∃ s t, step s = .next t ∧ s.runState = .running ∧ t.runState = .faulted .cpOverrun) ∧
    (∃ s t, step s = .next t ∧ s.runState = .running ∧ t.runState = .idle) ∧
    (∃ s t, step s = .next t ∧ s.runState = .faulted .bufsizeUnset ∧ t.runState = .idle) ∧
    (State.reset.runState ≠ .running ∧ (0x7FFFC#19).toNat % 4 = 0) := by
  refine ⟨by decide, ⟨{ State.reset with inputs := [.write 0x60000#19 4 0#32] }, _, step_after ?_, ?_, ?_⟩,
    ⟨at0 .nop, _, step_after ?_, ?_, ?_⟩, ⟨at1023 .nop, _, step_after ?_, ?_, ?_⟩,
    ⟨at1023 .endList, _, step_after ?_, ?_, ?_⟩,
    ⟨{ after (at0 .kclr) with inputs := [.reset] }, _, step_after ?_, ?_, ?_⟩, by decide⟩ <;> decide +kernel

theorem witness_EveryCommandListTerminates :
    [0#10, 1023#10].Forall fun k =>
      (fetching k 0x04000000#32).runState = .running ∧ (fetching k 0x04000000#32).inputs = [] := by
  decide

theorem witness_StatusAndIrqShowTheRunState :
    (after (at1023 .nop)).runState = .faulted .cpOverrun ∧
    (∀ c, State.reset.runState ≠ .faulted c) ∧
    ((at0 .nop).runState = .running ∧ (at0 .nop).done = false) := by
  refine ⟨by decide +kernel, fun c => nofun, by decide⟩

theorem witness_FaultEntrySavesTheCommandAndHalts :
    (at0 .nop).inputs = [] ∧ ([0#19, 0x7FFFC#19].Forall fun a => a.toNat % 4 = 0) := by decide

theorem witness_FaultsLeaveTheRestOfTheStateAlone :
    ∃ s t w, Fetches s w ∧ step s = .next t ∧ t.runState = .faulted .badAddress := by
  refine ⟨at0 (.ldv 0 0x1800), _, 0x20001800#32, ?_, step_after ?_, ?_⟩
  · unfold Fetches; decide +kernel
  all_goals decide +kernel

theorem witness_CpOverrunKeepsTheEffectsOfTheLastCommand :
    (Instr.vlih 1 0xC000 ≠ .endList ∧ (at1023 (.vlih 1 0xC000)).runState = .running ∧
      (at1023 (.vlih 1 0xC000)).cp = 1023#10) ∧
    (∃ u, (∀ d, Instr.vlih 1 0xC000 ≠ .crr d 0x007#12) ∧ (1022#10 : BitVec 10) ≠ 1023#10 ∧
      exec (.vlih 1 0xC000) { at1023 (.vlih 1 0xC000) with cp := 1022#10 } = .next u ∧ u.runState = .running) ∧
    (at1023 .endList).cp = 1023#10 := by
  refine ⟨by decide, ⟨did (.vlih 1 0xC000) { at1023 (.vlih 1 0xC000) with cp := 1022#10 }, fun d => nofun, by decide,
    exec_did ?_, ?_⟩, by decide⟩ <;> decide +kernel

/-- A fetched word for each cause. -/
theorem witness_EachFaultCauseHasItsRaiserAndInformation :
    ([(FaultCause.illegalOpcode, 0xFFFFFFFF#32), (.reservedField, 0x04000001#32), (.badAddress, 0x20001800#32),
        (.misaligned, 0x24002C01#32), (.badCr, 0x28000111#32), (.roWrite, 0x2C000109#32),
        (.badIndex, 0xA6800000#32), (.bufsizeUnset, 0xA4000000#32)].Forall fun p =>
      Fetches (fetching 0#10 p.2) p.2 ∧ goesOn (fetching 0#10 p.2) = true ∧
        (after (fetching 0#10 p.2)).runState = .faulted p.1) ∧
    (Fetches (holding (fetching 0#10 0x2DC00011#32) 7 1028#32) 0x2DC00011#32 ∧
      goesOn (holding (fetching 0#10 0x2DC00011#32) 7 1028#32) = true ∧
      (after (holding (fetching 0#10 0x2DC00011#32) 7 1028#32)).runState = .faulted .badValue) ∧
    (Fetches (at1023 .nop) 0x04000000#32 ∧ goesOn (at1023 .nop) = true ∧
      (after (at1023 .nop)).runState = .faulted .cpOverrun) := by
  unfold Fetches
  decide +kernel

theorem witness_EndStopsWithDoneSet :
    (State.reset.writeCmd 0 0x08000000#32).runState = .idle ∧ (State.reset.writeCmd 0 0x08000000#32).inputs = [] ∧
    (State.reset.writeCmd 0 0x08000000#32).cmdWord 0 = 0x08000000#32 := by decide +kernel

/-! ## Witnesses: data movement -/

/-- The edges of the reserved ranges, and the three clauses of LDV and STV. -/
theorem witness_LoadVectorReadsFourAlignedWords :
    (0x17FE#16).toNat % 4 ≠ 0 ∧
    ([0x1800#16, 0x1FFC#16, 0x2C00#16, 0xBFFC#16, 0xEEE0#16, 0xFFFC#16].Forall fun a => a.toNat % 4 = 0 ∧ Reserved a.toNat) ∧
    ([0x0000#16, 0x17FC#16, 0x2000#16, 0x2BFC#16, 0x3000#16, 0xBBFC#16, 0xC000#16, 0xEEDC#16].Forall fun a =>
      a.toNat % 4 = 0 ∧ ¬ Reserved a.toNat) := by
  unfold Reserved
  decide

theorem witness_StoreVectorWritesFourAlignedWordsAlone :
    (0xFFFF#16).toNat % 4 ≠ 0 ∧ ((0xEEE0#16).toNat % 4 = 0 ∧ Reserved (0xEEE0#16).toNat) ∧
    ((0xEEDC#16).toNat % 4 = 0 ∧ ¬ Reserved (0xEEDC#16).toNat) := by
  unfold Reserved
  decide

theorem witness_LoadAfterStoreReturnsTheVector :
    (fetching 1021#10 0x25002800#32).cp.toNat < 1022 ∧ (0xEEDC#16).toNat % 4 = 0 ∧ ¬ Reserved (0xEEDC#16).toNat := by
  unfold Reserved
  decide

/-- A reserved number at each end of each range, a row of each access type, and the numbers beside the ranges. -/
theorem witness_ControlRegisterReadsFollowTheMap :
    (∀ n ∈ [0x00B, 0x00F, 0x012, 0x01F, 0x02F, 0x03F, 0x04A, 0x0FF, 0x111, 0x8FF, 0x900, 0xFFF], CrReserved n ∧ n < 4096) ∧
    (∀ n ∈ [0x000, 0x00A, 0x010, 0x011, 0x020, 0x02E, 0x040, 0x049, 0x100, 0x110, 0x8E0, 0x8F0], ¬ CrReserved n) ∧
    (∃ w, CrRow State.reset 0x000 .ro w) ∧ (∃ w, CrRow State.reset 0x011 .legalOnly w) ∧
    (∃ w, CrRow State.reset 0x049 .rw w) ∧ (∃ w, CrRow State.reset 0x8E8 .warl w) ∧ (∃ w, CrRow State.reset 0x8F0 .ro w) ∧
    ((at0 .nop).runState = .running ∧ (at0 .nop).done = false) := by
  refine ⟨by unfold CrReserved; decide, by unfold CrReserved; decide, ⟨_, .status⟩, ⟨_, .bufSize⟩, ⟨_, .noteFreq 9⟩,
    ⟨_, .egFlags 63⟩, ⟨_, .offLevel 63⟩, by decide⟩

theorem witness_ControlRegisterWritesFollowTheMap :
    CrReserved (0x111#12).toNat ∧ (∃ w, CrRow State.reset (0x109#12).toNat .ro w) ∧
    ([0#32, 2#32, 1028#32, 0xFFFFFFFC#32].Forall fun v => ¬ LegalBufSize (((holding State.reset 7 v).getV 7).get 0)) ∧
    ([4#32, 1024#32].Forall fun v => LegalBufSize (((holding State.reset 7 v).getV 7).get 0)) ∧
    (∃ w, CrRow State.reset (0x010#12).toNat .rw w) ∧ (∃ w, CrRow State.reset (0x8E7#12).toNat .rw w) ∧
    (0x8E8#12).toNat = 0x100 + 32 * (63#6 : Ctx).toNat + 8 := by
  refine ⟨by unfold CrReserved; decide, ⟨_, .tTrigger 0⟩, by unfold LegalBufSize; decide +kernel,
    by unfold LegalBufSize; decide +kernel, ⟨_, .sampleRate⟩, ⟨_, .releasePow 63⟩, by decide⟩

/-! ## Witnesses: FastMath and binary32 -/

theorem witness_ReferenceMeetsTheExactClausesOfTheContract :
    ([0x80000000#32, 0xFF800000#32].Forall fun x => fLe x 0x00000000#32 = true) ∧
    ([0x00000001#32, 0x007FFFFF#32].Forall fun x => fLt 0x00000000#32 x = true ∧ fLt x 0x00800000#32 = true) ∧
    ([0x42B17219#32, 0x7F800000#32].Forall fun x => fGt x 0x42B17218#32 = true) ∧
    ([0xC2AEAC51#32, 0xFF800000#32].Forall fun x => fLt x 0xC2AEAC50#32 = true) ∧ isNaN 0xC2AEAC50#32 = false := by decide

/-- Words at both sides of |y| = 2^31, infinities and NaNs. -/
theorem witness_ReferenceSineAndCosineFollowTheirPseudocode :
    ([0x7F800001#32, 0xFFFFFFFF#32].Forall fun y => isNaN y = true) ∧
    ([0x4F000000#32, 0xCF000000#32, 0x7F800000#32, 0xFF800000#32].Forall fun y => 2 ^ 180 ≤ (extUnits y).natAbs) ∧
    ([0x4EFFFFFF#32, 0xCEFFFFFF#32, 0x80000000#32].Forall fun y => isNaN y = false ∧ (extUnits y).natAbs < 2 ^ 180) := by
  decide +kernel

/-- The signs of the base, and exponents that are no integer, odd and even. -/
theorem witness_PowerFollowsItsSignPolicyInEveryConfiguration :
    fLt 0x80000000#32 0x00000000#32 = false ∧ fLt 0xC0000000#32 0x00000000#32 = true ∧
    (¬ (isFinite 0x40200000#32 = true ∧ extUnits 0x40200000#32 % 2 ^ 149 = 0)) ∧
    (¬ (isFinite 0x7F800000#32 = true ∧ extUnits 0x7F800000#32 % 2 ^ 149 = 0)) ∧
    ([0x40400000#32, 0xBF800000#32, 0x4B7FFFFF#32].Forall fun e =>
      (isFinite e = true ∧ extUnits e % 2 ^ 149 = 0) ∧ extUnits e / 2 ^ 149 % 2 = 1) ∧
    ([0x40000000#32, 0x80000000#32, 0x4B800000#32].Forall fun e =>
      (isFinite e = true ∧ extUnits e % 2 ^ 149 = 0) ∧ extUnits e / 2 ^ 149 % 2 = 0) := by decide +kernel

/-- A configuration that meets the contract with the bounds of ASC-1, and operands for each clause. -/
theorem witness_ZeroExponentAndZeroBaseForEveryConfiguration :
    Contract (Config.epsFm : ℝ) (Config.trigDomain : ℝ) idealFm ∧
    isFinite 0xFF7FFFFF#32 = true ∧ fLt 0xFF7FFFFF#32 0x00000000#32 = true ∧ isFinite 0x7F800000#32 = false :=
  ⟨idealFm_contract, by decide, by decide, by decide⟩

theorem witness_FloorIsExact :
    isFinite 0x80000001#32 = true ∧ isFinite 0x7F7FFFFF#32 = true ∧ isFinite 0x7F800000#32 = false ∧
    isFinite 0xFFC00000#32 = false := by decide

theorem witness_FrexpSplitsNormalValuesExactly :
    ([0x00800000#32, 0xFF7FFFFF#32].Forall fun x =>
      ((x : Word).extractLsb' 23 8).toNat ≠ 0 ∧ (x.extractLsb' 23 8).toNat ≠ 255) ∧
    ([0x007FFFFF#32].Forall fun x => ((x : Word).extractLsb' 23 8).toNat = 0) ∧
    ([0x7F800000#32, 0xFFC00000#32].Forall fun x => ((x : Word).extractLsb' 23 8).toNat = 255) := by decide

/-- NaNs, infinities of both signs, zeros of both signs and finite values at each end: every clause has its operands. -/
theorem witness_EveryOperationRoundsOnceToNearestEven :
    ([0x00000001#32, 0x80000000#32, 0x7F7FFFFF#32].Forall fun a => isFinite a = true ∧ isNaN a = false ∧ isInf a = false) ∧
    extUnits 0x00000001#32 ≠ 0 ∧ ([0x00000000#32, 0x80000000#32].Forall fun a => isFinite a = true ∧ extUnits a = 0) ∧
    ([0x7F800000#32, 0xFF800000#32].Forall fun a =>
      isInf a = true ∧ isNaN a = false ∧ isFinite a = false ∧ extUnits a ≠ 0 ∧ signBit a = decide (a = 0xFF800000#32)) ∧
    ([0x7F800001#32, 0xFFFFFFFF#32].Forall fun a => isNaN a = true) := by
  decide +kernel

theorem witness_ConversionsBetweenIntegersAndBinary32 :
    (-(2 ^ 24 - 1) : Int).natAbs < 2 ^ 24 ∧ isNaN 0x7F800001#32 = true ∧ isNaN 0x7F800000#32 = false ∧
    isFinite 0x7F7FFFFF#32 = true ∧ 31 < 32 := by decide

/-! ## Witnesses: envelopes -/

/-- A context with all durations 0.5, triggered at 1.0, at the sustain level 1.0 from 2.0 on. -/
def egSustaining : EgContext where
  params := { EgParams.reset with attackSecs := 0x3F000000#32, decaySecs := 0x3F000000#32, releaseSecs := 0x3F000000#32 }
  autoRelease := false
  state := {
    triggered := true
    tTrigger := 0x3F800000#32
    tZeroEnd := 0x3F800000#32
    tAttackEnd := 0x3FC00000#32
    tDecayEnd := 0x40000000#32
    tRelease := 0x7F800000#32
    tOffEnd := 0x7F800000#32
    onLevel := 0x00000000#32
    offLevel := 0x00000000#32 }

/-- That context as context 0, V1 = 3.0 the time and V2 = 0.5 the anticlick time. -/
def sustaining : State := holding (holding (State.reset.setEg 0 egSustaining) 1 0x40400000#32) 2 0x3F000000#32

theorem witness_TriggerSchedulesTheEnvelope :
    (State.reset.getEg 63).autoRelease = false ∧
    ((State.reset.setEg 63 { EgContext.reset with autoRelease := true }).getEg 63).autoRelease = true := by decide +kernel

theorem witness_OffTruncatesTheEnvelopeAndSchedulesRelease :
    (State.reset.getEg 0).state.triggered = false ∧ (sustaining.getEg 0).state.triggered = true := by decide +kernel

theorem witness_EvaluationSelectsTheSegmentOfItsTime : isNaN 0x7F800001#32 = true := by decide

/-- A proper segment and an empty one; a progress at each end, just inside each end and below zero. -/
theorem witness_ProgressStaysBetweenZeroAndOne :
    fGt 0x00000001#32 0x00000000#32 = true ∧ fGt 0x3F800000#32 0x3F800000#32 = false ∧
    fLe 0x80000000#32 0x00000000#32 = true ∧ fGe 0x3F800000#32 0x3F800000#32 = true ∧
    ([0x00000001#32, 0x3F7FFFFF#32].Forall fun p => fLe p 0x00000000#32 = false ∧ fGe p 0x3F800000#32 = false) := by decide

theorem witness_OffContinuesFromTheSampledLevel :
    (sustaining.getEg 0).state.triggered = true ∧ isFinite ((sustaining.getV 1).get 0) = true ∧
    egEval fastMath (sustaining.getEg 0) ((sustaining.getV 1).get 0) = 0x3F800000#32 ∧ isFinite 0x3F800000#32 = true ∧
    fGt (sustaining.getEg 0).params.releaseSecs 0x00000000#32 = true ∧
    fGt (sustaining.getEg 0).params.releasePow 0x00000000#32 = true ∧
    fLt ((sustaining.getV 1).get 0) (fAdd ((sustaining.getV 1).get 0) (sustaining.getEg 0).params.releaseSecs) = true ∧
    runs (.egoff 0 1) sustaining = true := by decide +kernel

theorem witness_RetriggerContinuesFromTheSampledLevel :
    (sustaining.getEg 0).state.triggered = true ∧ isFinite ((sustaining.getV 1).get 0) = true ∧
    isFinite (egEval fastMath (sustaining.getEg 0) ((sustaining.getV 1).get 0)) = true ∧
    runs (.egtrig 0 1 2) sustaining = true ∧
    fLt ((sustaining.getV 1).get 0) ((did (.egtrig 0 1 2) sustaining).getEg 0).state.tZeroEnd = true := by decide +kernel

theorem witness_SustainHoldsAndEmptySegmentsAreSkipped :
    (egSustaining.state.triggered = true ∧ egSustaining.state.tRelease = 0x7F800000#32 ∧
      ([0x40000000#32, 0x7F7FFFFF#32].Forall fun t => isFinite t = true ∧ fLe egSustaining.state.tZeroEnd t = true ∧
        fLe egSustaining.state.tAttackEnd t = true ∧ fLe egSustaining.state.tDecayEnd t = true)) ∧
    fLe EgContext.reset.state.tAttackEnd EgContext.reset.state.tZeroEnd = true ∧
    fLe EgContext.reset.state.tDecayEnd EgContext.reset.state.tAttackEnd = true := by decide

theorem witness_EnvelopeTimestampsStayInOrder :
    (isFinite ((sustaining.getV 1).get 0) = true ∧ Duration ((sustaining.getV 2).get 0) ∧
      Duration (sustaining.getEg 0).params.attackSecs ∧ Duration (sustaining.getEg 0).params.decaySecs ∧
      Duration (sustaining.getEg 0).params.releaseSecs ∧
      isNaN (fMul ((sustaining.getV 2).get 0) (fAbs (egEval fastMath (sustaining.getEg 0) ((sustaining.getV 1).get 0)))) =
        false ∧
      runs (.egtrig 0 1 2) sustaining = true) ∧
    (fLe (sustaining.getEg 0).state.tTrigger ((sustaining.getV 1).get 0) = true ∧ EgInOrder (sustaining.getEg 0).state ∧
      runs (.egoff 0 1) sustaining = true) := by
  unfold Duration EgInOrder
  decide +kernel

theorem witness_EnvelopeStateIsWrittenByItsCommandsAlone :
    ∃ s t, step s = .next t ∧ (s.getEg 0).state.triggered = true ∧ (t.getEg 0).state ≠ (s.getEg 0).state := by
  refine ⟨holding (holding ((at0 (.egoff 0 1)).setEg 0 egSustaining) 1 0x40400000#32) 2 0x3F000000#32, _, step_after ?_,
    ?_, ?_⟩ <;> decide +kernel

/-! ## Witnesses: the kernel -/

theorem witness_ClearZeroesTheBufferOfTheAccumulator :
    State.reset.bufSize = 0#32 ∧ ([4#32, 1024#32].Forall fun v => LegalBufSize { State.reset with bufSize := v }.bufSize) := by
  unfold LegalBufSize
  decide

theorem witness_RenderChecksComeBeforeAnyChange :
    10 ≤ (10#4).toNat ∧ 10 ≤ (15#4).toNat ∧ (9#4).toNat < 10 ∧ State.reset.bufSize = 0#32 := by decide

/-- K2: −0 counts as silence. -/
theorem witness_SilentRenderOnlyCounts :
    (preset (voice State.reset) 0x2800 [0#32, 0x80000000#32, 0#32, 0#32]).bufSize ≠ 0#32 ∧
    Kr.Silent (preset (voice State.reset) 0x2800 [0#32, 0x80000000#32, 0#32, 0#32]) 0 := by
  unfold Kr.Silent Kr.vol
  decide +kernel

/-- K1, with one overtone placed. -/
theorem witness_RenderEqualsItsClosedForm :
    LegalBufSize (voice State.reset).bufSize ∧ ¬ Kr.Silent (voice State.reset) 0 ∧ 0 ∈ Kr.placed (voice State.reset) ∧
    1 ∉ Kr.placed (voice State.reset) := by
  unfold LegalBufSize Kr.Silent Kr.vol
  decide +kernel

theorem reset_ots_word (a : Nat) (h : dmemIsOts a = true) : State.reset.dmemWord a = 0#32 := by
  have hb : ∀ k, k < 4 → State.reset.dmemByte (4 * a + k) = 0#8 := by
    intro k hk
    have : (4 * a + k) / 4 = a := by omega
    simp [State.dmemByte, Memory.read, Memory.listed, State.reset, State.resetAt, Space.unlisted, this, h]
  have h0 := hb 0 (by omega)
  rw [Nat.add_zero] at h0
  simp [State.dmemWord, h0, hb, wordOf]

theorem witness_OvertonePhasesStayInRange :
    (State.reset.bufSize = 0#32 ∧ OtsInRange State.reset) ∧
    ∃ s w i t, LegalBufSize s.bufSize ∧ Fetches s w ∧ decode w = .ok i ∧ (∀ r a, i ≠ .stv r a) ∧ step s = .next t := by
  refine ⟨⟨by decide, fun v hv i hi => ?_⟩, ⟨voice (at0 (.krender 0)), 0xA4000000#32, .krender 0, _, ?_, ?_, by decide,
    fun r a => nofun, step_after ?_⟩⟩
  · rw [reset_ots_word _ (by simp [dmemIsOts]; omega), reset_ots_word _ (by simp [dmemIsOts]; omega)]
    unfold PhaseInRange
    decide
  · unfold LegalBufSize; decide
  · unfold Fetches; decide +kernel
  · decide +kernel

/-- The setup of K1, and the same with another cutoff control. -/
theorem witness_CutoffControlDoesNotReachThePhases :
    LegalBufSize (voice State.reset).bufSize ∧
    (voice State.reset).writeDmem 0x2400 0#32 =
      { voice State.reset with dmem := ((voice State.reset).writeDmem 0x2400 0#32).dmem } ∧
    (∀ a, ¬ (0x2400 + 0x1000 * (0 : Fin 10).val ≤ a / 4 ∧ a / 4 < 0x2800 + 0x1000 * (0 : Fin 10).val) →
      ((voice State.reset).writeDmem 0x2400 0#32).dmemByte a = (voice State.reset).dmemByte a) ∧
    ((voice State.reset).writeDmem 0x2400 0#32).dmemWord 0x2400 ≠ (voice State.reset).dmemWord 0x2400 ∧
    runs (.krender 0) (voice State.reset) = true ∧
    runs (.krender 0) ((voice State.reset).writeDmem 0x2400 0#32) = true := by
  refine ⟨by unfold LegalBufSize; decide, rfl, fun a ha => ?_, by decide +kernel, by decide +kernel, by decide +kernel⟩
  exact dmemByte_writeDmem_ne _ _ (by intro h; apply ha; omega)

/-! ## Witnesses: what stays, the invariant, reset -/

theorem witness_NoCommandWritesTheCommandRam : (at0 .nop).inputs = [] ∧ goesOn (at0 .nop) = true := by decide +kernel

theorem witness_CountersChangeOnlyByKrender :
    goesOn (voice (at0 (.krender 0))) = true ∧
    ((at0 (.krender 12)).runState = .running ∧ runs (.krender 12) (at0 (.krender 12)) = true ∧
      (did (.krender 12) (at0 (.krender 12))).runState = .faulted .badIndex) := by decide +kernel

theorem witness_FaultRegistersAreWrittenByFaultsAlone :
    goesOn (at0 .kclr) = true ∧ (after (at0 .kclr)).faultWord ≠ (at0 .kclr).faultWord := by decide +kernel

/-- The invariant holds in states of each kind: after reset, of a running machine with words stored, and of a faulted one. -/
theorem witness_EveryStepKeepsTheInvariant :
    Inv State.reset ∧ Inv (at0 .nop) ∧ goesOn (at0 .nop) = true ∧ Inv (after (at1023 .nop)) := by
  have cleared : ∀ s : State, s.eg = State.reset.eg → ∀ c, (s.getEg c).state = EgState.reset := by
    intro s hs c
    simp [State.getEg, hs, State.reset, State.resetAt, EgContext.reset]
  refine ⟨⟨by decide, by decide, .inl (by decide), by decide, fun _ => by decide, fun c => nofun, by decide,
    fun c _ => cleared _ rfl c⟩, ⟨by decide +kernel, by decide +kernel, .inl (by decide), by decide, fun _ => by decide,
    fun c => nofun, by decide, fun c _ => cleared _ rfl c⟩, by decide +kernel, ⟨by decide +kernel, by decide +kernel,
    .inl (by decide +kernel), by decide +kernel, fun h => (h .cpOverrun (by decide +kernel)).elim, fun c _ => by decide +kernel,
    fun _ => by decide +kernel, fun c _ => cleared _ (by decide +kernel) c⟩⟩

theorem witness_ResetGivesEveryRegisterItsValue :
    { after (at0 .kclr) with inputs := [.reset] }.inputs = .reset :: [] := rfl

/-! ## Witnesses: the host -/

theorem witness_GoStartsTheSequencerFromIdleAlone :
    ([0#32, 0xFFFFFFFF#32].Forall fun g => { State.reset with inputs := [.write 0x60000#19 4 g] }.runState = .idle) ∧
    (at0 .nop).runState ≠ .idle ∧ (after (at0 .kclr)).runState ≠ .idle ∧
    { State.reset with inputs := [.read 0x60000#19 4] }.inputs = .read 0x60000#19 4 :: [] := by decide +kernel

/-- The edges of the port's windows. -/
theorem witness_HostReadsFollowThePortMap :
    State.reset.runState ≠ .running ∧ (after (at0 .kclr)).runState ≠ .running ∧
    (∀ a ∈ [0x0000, 0x17FF, 0x2000, 0x2BFF, 0xC000, 0xEEDF], a < 65536 ∧ ¬ Reserved a) ∧
    (∀ a ∈ [0x1800, 0x1FFF, 0x2C00, 0xBFFF, 0xEEE0, 0xFFFF], a < 65536 ∧ Reserved a) ∧
    (∃ w, CrRow State.reset 0x8F0 .ro w) ∧ CrReserved 0xFFF ∧
    ([0x41000#19, 0x4FFFC#19].Forall fun a => 0x41000 ≤ a.toNat ∧ a.toNat < 0x50000 ∧ a.toNat % 4 = 0) ∧
    ([0x54000#19, 0x5FFFC#19, 0x60000#19].Forall fun a => 0x54000 ≤ a.toNat ∧ a.toNat < 0x60004 ∧ a.toNat % 4 = 0) ∧
    ([0x60008#19, 0x7FFFC#19].Forall fun a => 0x60008 ≤ a.toNat ∧ a.toNat % 4 = 0) := by
  refine ⟨by decide, by decide +kernel, by unfold Reserved; decide, by unfold Reserved; decide, ⟨_, .offLevel 63⟩,
    by unfold CrReserved; decide, by decide, by decide, by decide⟩

theorem witness_HostWritesFollowThePortMap :
    State.reset.runState ≠ .running ∧ (∃ w, CrRow State.reset 0x02E .rw w) ∧ (∃ w, CrRow State.reset 0x007 .ro w) ∧
    LegalBufSize 1024#32 ∧ ¬ LegalBufSize 1028#32 ∧ ¬ LegalBufSize 0#32 ∧
    ((0x5FFFC#19).toNat % 4 = 0 ∧ 0x54000 ≤ (0x5FFFC#19).toNat ∧ (0x5FFFC#19).toNat < 0x60000) := by
  refine ⟨by decide, ⟨_, .stereoWidth⟩, ⟨_, .cpReg⟩, by unfold LegalBufSize; decide, by unfold LegalBufSize; decide,
    by unfold LegalBufSize; decide, by decide⟩

theorem witness_HostBreachesAreRefused :
    (2 ≠ 4 ∨ (0#19).toNat % 4 ≠ 0) ∧ (4 ≠ 4 ∨ (3#19).toNat % 4 ≠ 0) ∧
    ((at0 .nop).runState = .running ∧
      ([0#19, 0x40FFC#19].Forall fun a => a.toNat % 4 = 0 ∧ a.toNat < 0x41000) ∧
      ([0x50000#19, 0x53FFC#19].Forall fun a => a.toNat % 4 = 0 ∧ 0x50000 ≤ a.toNat ∧ a.toNat < 0x54000)) := by decide

theorem witness_HostMovesLeaveTheVectorRegistersAlone :
    { State.reset with inputs := [.write 0x50040#19 4 1#32] }.inputs = .write 0x50040#19 4 1#32 :: [] ∧
    goesOn { State.reset with inputs := [.write 0x50040#19 4 1#32] } = true ∧
    hostRead State.reset 0x50040#19 4 = .next { State.reset with portData := 0x472C4400#32 } := by
  refine ⟨rfl, by decide +kernel, rfl⟩

end Sys2Proof.Tests
end

section
/-! Comparisons and conversions of binary32 values (00_scope.md R12, R13). -/

namespace Sys2Proof.Proofs

open Sys2Proof.Machine Sys2Proof.Safety Sys2Proof.Laws

/-! ## The value of a word grows with its place in the order -/

/-- The value of a place in the order: magUnits of its magnitude, with its sign. -/
def keyUnits (k : Int) : Int := k.sign * magUnits k.natAbs

theorem keyUnits_neg (k : Int) : keyUnits (-k) = -keyUnits k := by simp [keyUnits]

theorem keyUnits_natCast (m : Nat) : keyUnits m = magUnits m := by
  rcases Nat.eq_zero_or_pos m with rfl | hm
  · rfl
  · rw [keyUnits, Int.sign_natCast_of_ne_zero hm.ne', one_mul, Int.natAbs_natCast]

theorem keyUnits_strictMono : StrictMono keyUnits := by
  refine strictMono_of_odd_strictMonoOn_nonneg keyUnits_neg fun a ha b hb hab => ?_
  lift a to Nat using ha
  lift b to Nat using hb
  rw [keyUnits_natCast, keyUnits_natCast]
  exact_mod_cast magUnits_strictMono (Int.ofNat_lt.1 hab)

/-- Infinity stands where the next power of two would. -/
theorem magUnits_inf : magUnits 0x7F800000 = 2 ^ 277 := by
  rw [show 0x7F800000 = 254 * 2 ^ 23 + 2 ^ 23 by norm_num, magUnits_scaled (by norm_num) (by norm_num), ← pow_add]

theorem extUnits_eq (x : Word) :
    extUnits x = if signBit x then -(magUnits (magBits x) : Int) else magUnits (magBits x) := by
  unfold extUnits
  by_cases h : isInf x = true
  · rw [if_pos h, (inf_iff x).1 h, magUnits_inf]; norm_cast
  · rw [if_neg h]

theorem extUnits_eq_keyUnits (x : Word) : extUnits x = keyUnits (orderKey x) := by
  rw [extUnits_eq, orderKey]
  cases signBit x
  · exact (keyUnits_natCast _).symm
  · exact (keyUnits_natCast _ ▸ keyUnits_neg _).symm

theorem extUnits_lt_iff (a b : Word) : extUnits a < extUnits b ↔ orderKey a < orderKey b := by
  rw [extUnits_eq_keyUnits, extUnits_eq_keyUnits, keyUnits_strictMono.lt_iff_lt]

theorem extUnits_le_iff (a b : Word) : extUnits a ≤ extUnits b ↔ orderKey a ≤ orderKey b := by
  rw [extUnits_eq_keyUnits, extUnits_eq_keyUnits, keyUnits_strictMono.le_iff_le]

theorem extUnits_eq_iff (a b : Word) : extUnits a = extUnits b ↔ orderKey a = orderKey b := by
  rw [extUnits_eq_keyUnits, extUnits_eq_keyUnits, keyUnits_strictMono.injective.eq_iff]

/-! ## Comparisons by value (R12) -/

theorem fLt_iff_extUnits (a b : Word) :
    fLt a b = true ↔ isNaN a = false ∧ isNaN b = false ∧ extUnits a < extUnits b := by
  rw [fLt_iff, extUnits_lt_iff]

theorem fLe_iff_extUnits (a b : Word) :
    fLe a b = true ↔ isNaN a = false ∧ isNaN b = false ∧ extUnits a ≤ extUnits b := by
  rw [fLe_iff, extUnits_le_iff]

theorem fEq_iff_extUnits (a b : Word) :
    fEq a b = true ↔ isNaN a = false ∧ isNaN b = false ∧ extUnits a = extUnits b := by
  rw [extUnits_eq_iff]; simp [fEq, and_assoc]

/-- Settles O33: the place in the order determines the value and grows with it, and min, max and clamp are defined as the
rule writes them. -/
theorem comparisonsOrderByValue : Obligations.ComparisonsOrderByValue := by
  unfold Obligations.ComparisonsOrderByValue
  refine ⟨fLt_iff_extUnits, fLe_iff_extUnits, fun a b => ?_, fun a b => ?_, fEq_iff_extUnits, by decide, fun _ _ => rfl,
    fun _ _ => rfl, fun _ _ _ => rfl⟩
  · rw [fGt, fLt_iff_extUnits, and_left_comm]
  · rw [fGe, fLe_iff_extUnits, and_left_comm]

/-! ## Whole numbers that binary32 holds exactly -/

/-- Some finite magnitude has exactly the value u. -/
def Representable (u : Nat) : Prop := ∃ k < 0x7F800000, magUnits k = u

theorem roundUnits_representable {u : Nat} (h : Representable u) :
    roundUnits u 1 < 0x7F800000 ∧ magUnits (roundUnits u 1) = u := by
  obtain ⟨k, hk, rfl⟩ := h
  rw [roundUnits_exact hk]
  exact ⟨hk, rfl⟩

theorem representable_magUnits {x : Word} (h : isFinite x = true) : Representable (magUnits (magBits x)) :=
  ⟨_, (finite_iff x).1 h, rfl⟩

/-- A whole number below 2^24, shifted up to a significand of full 24 bits. -/
theorem representable_whole {n : Nat} (hn : n < 2 ^ 24) : Representable (n * 2 ^ 149) := by
  rcases Nat.eq_zero_or_pos n with rfl | hpos
  · exact ⟨0, by norm_num, by rw [Nat.zero_mul]; rfl⟩
  · have hlog : Nat.log2 n ≤ 23 := Nat.le_of_lt_succ ((Nat.log2_lt hpos.ne').2 hn)
    obtain ⟨e, he⟩ : ∃ e, Nat.log2 n + e = 23 := ⟨_, Nat.add_sub_cancel' hlog⟩
    have hlo : 2 ^ 23 ≤ n * 2 ^ e := by
      rw [← he, pow_add]; exact Nat.mul_le_mul_right _ (Nat.log2_self_le hpos.ne')
    have hhi : n * 2 ^ e < 2 ^ 24 := by
      rw [show 24 = Nat.log2 n + 1 + e by omega, pow_add]
      exact Nat.mul_lt_mul_of_pos_right Nat.lt_log2_self (by positivity)
    refine ⟨(149 - e) * 2 ^ 23 + n * 2 ^ e, by omega, ?_⟩
    rw [magUnits_scaled hhi.le (.inr hlo), Nat.mul_assoc, ← pow_add, show e + (149 - e) = 149 by omega]

/-! ## f32(i) -/

theorem fOfInt_rounds (i : Int) :
    RoundsTo (i.natAbs * 2 ^ 149) 1 (magBits (fOfInt i)) ∧ signBit (fOfInt i) = decide (i < 0) := by
  have hlt := lt31 (roundUnits_le_inf (i.natAbs * 2 ^ 149) 1)
  rw [fOfInt, magBits_packWord _ hlt, signBit_packWord _ hlt]
  exact ⟨roundUnits_roundsTo _ _ one_pos, rfl⟩

theorem extUnits_fOfInt {i : Int} (h : i.natAbs < 2 ^ 24) : extUnits (fOfInt i) = i * 2 ^ 149 := by
  obtain ⟨hlt, hval⟩ := roundUnits_representable (representable_whole h)
  rw [fOfInt, extUnits_pack _ hlt, hval]
  by_cases hi : i < 0
  · rw [if_pos (decide_eq_true hi)]; omega
  · rw [if_neg (by simpa using hi)]; omega

/-! ## trunc_s32 -/

theorem truncInt_eq {x : Word} (h : isFinite x = true) : truncInt x = (extUnits x).tdiv (2 ^ 149) := by
  rw [extUnits_finite h, truncInt, signedUnits]
  cases signBit x
  · exact Int.ofNat_tdiv _ _
  · exact (congrArg Neg.neg (Int.ofNat_tdiv _ _)).trans (Int.neg_tdiv _ _).symm

theorem toInt_truncS32_nan {x : Word} (h : isNaN x = true) : (truncS32 x).toInt = -2 ^ 31 := by
  rw [truncS32, if_pos h]; rfl

theorem toInt_truncS32_finite {x : Word} (h : isFinite x = true) :
    (truncS32 x).toInt = max (-2 ^ 31) (min (2 ^ 31 - 1) (truncInt x)) := by
  have hm := (finite_iff x).1 h
  rw [truncS32, if_neg (by rw [nan_iff]; omega), if_neg (by rw [inf_iff]; omega)]
  split_ifs with hlo hhi
  · rw [show (0x80000000#32).toInt = -2 ^ 31 by decide]; omega
  · rw [show (0x7FFFFFFF#32).toInt = 2 ^ 31 - 1 by decide]; omega
  · rw [BitVec.toInt_ofInt_eq_self (by norm_num) (by omega) (by omega)]; omega

theorem toInt_truncS32_inf {x : Word} (h : isInf x = true) :
    (truncS32 x).toInt = max (-2 ^ 31) (min (2 ^ 31 - 1) ((extUnits x).tdiv (2 ^ 149))) := by
  have hm := (inf_iff x).1 h
  rw [truncS32, if_neg (by rw [nan_iff]; omega), if_pos h, extUnits, if_pos h]
  cases signBit x <;> decide +kernel

theorem toInt_truncS32 {x : Word} (h : isNaN x = false) :
    (truncS32 x).toInt = max (-2 ^ 31) (min (2 ^ 31 - 1) ((extUnits x).tdiv (2 ^ 149))) := by
  by_cases hf : isFinite x = true
  · rw [toInt_truncS32_finite hf, truncInt_eq hf]
  · refine toInt_truncS32_inf ((inf_iff x).2 ?_)
    rw [finite_iff] at hf
    have : ¬ 0x7F800000 < magBits x := by rw [← nan_iff, h]; simp
    omega

/-! ## floor -/

/-- floorMag is the magnitude of the integer floor of the value. -/
theorem signed_floorMag {x : Word} (h : isFinite x = true) :
    (if signBit x then -(floorMag x : Int) else floorMag x) = extUnits x / 2 ^ 149 := by
  rw [extUnits_finite h, floorMag, signedUnits]
  cases signBit x
  · rfl
  · simp only [if_true]; omega

/-- A value of whole ones is its own floor; any other is below 2^23. -/
theorem representable_floorMag {x : Word} (h : isFinite x = true) : Representable (floorMag x * 2 ^ 149) := by
  obtain ⟨s, r, hk, hr, hs⟩ := mag_split (magBits x)
  have hu : units x = r * 2 ^ s := by rw [units_eq, hk, magUnits_scaled hr.le hs]
  rcases Nat.lt_or_ge s 149 with hs149 | hs149
  · refine representable_whole ?_
    have hle : units x ≤ 2 ^ 24 * 2 ^ 148 := by
      rw [hu]; exact Nat.mul_le_mul hr.le (Nat.pow_le_pow_right two_pos (by omega))
    unfold floorMag
    split <;> omega
  · have hdvd : 2 ^ 149 ∣ units x := by rw [hu]; exact Dvd.dvd.mul_left (pow_dvd_pow 2 hs149) r
    have hfloor : floorMag x * 2 ^ 149 = units x := by
      unfold floorMag
      split <;> omega
    rw [hfloor, units_eq]
    exact representable_magUnits h

theorem fFloor_exact {x : Word} (h : isFinite x = true) :
    isFinite (fFloor x) = true ∧ extUnits (fFloor x) = extUnits x / 2 ^ 149 * 2 ^ 149 := by
  obtain ⟨hlt, hval⟩ := roundUnits_representable (representable_floorMag h)
  rw [fFloor, if_pos h, finite_iff, magBits_packWord _ (lt31 hlt.le), extUnits_pack _ hlt, hval, ← signed_floorMag h]
  refine ⟨hlt, ?_⟩
  split <;> push_cast <;> ring

/-! ## abs and neg, bit by bit -/

theorem getLsbD_fAbs (x : Word) (k : Nat) : (fAbs x).getLsbD k = (x.getLsbD k && k != 31) := by
  rw [fAbs, BitVec.getLsbD_and]
  rcases Nat.lt_or_ge k 32 with hk | hk
  · congr 1
    revert k; decide
  · rw [BitVec.getLsbD_of_ge x k hk, Bool.false_and, Bool.false_and]

theorem getLsbD_fNeg (x : Word) {k : Nat} (hk : k < 32) : (fNeg x).getLsbD k = (x.getLsbD k ^^ k == 31) := by
  rw [fNeg, BitVec.getLsbD_xor]
  congr 1
  revert k; decide

/-- Settles O34: whole numbers below 2^24 and exact floors are representable, so rounding leaves them as they are; trunc_s32
is the truncated value cut to 32 bits; abs and neg act on bit 31 alone. -/
theorem conversionsBetweenIntegersAndBinary32 : Obligations.ConversionsBetweenIntegersAndBinary32 := by
  unfold Obligations.ConversionsBetweenIntegersAndBinary32
  exact ⟨fOfInt_rounds, fun _ => extUnits_fOfInt, fun _ => toInt_truncS32_nan, fun _ => toInt_truncS32,
    fun _ => fFloor_exact, getLsbD_fAbs, fun x _ => getLsbD_fNeg x⟩

end Sys2Proof.Proofs
end

section
/-! Decoding and encoding of command words (30_encoding.md R121 to R131, R135). -/

namespace Sys2Proof.Proofs

open Sys2Proof.Machine Sys2Proof.Safety Sys2Proof.Laws

/-! ## A field read from a word and put back -/

/-- Reading the n bits from lo up and putting them back keeps these bits of the word. -/
theorem shiftLeft_extractLsb' (w : Word) (lo n : Nat) :
    (w.extractLsb' lo n).setWidth 32 <<< lo = w &&& (BitVec.allOnes n).setWidth 32 <<< lo := by
  apply BitVec.eq_of_getLsbD_eq
  intro i hi
  rcases Nat.lt_or_ge i lo with h | h
  · simp [h]
  · simp [Nat.add_sub_cancel' h, Nat.not_lt.2 h, Bool.and_comm, hi]

theorem putD_fieldD (w : Word) : putD (fieldD w) = w &&& 0x03C00000#32 := shiftLeft_extractLsb' w 22 4
theorem putS1_fieldS1 (w : Word) : putS1 (fieldS1 w) = w &&& 0x003C0000#32 := shiftLeft_extractLsb' w 18 4
theorem putS2_fieldS2 (w : Word) : putS2 (fieldS2 w) = w &&& 0x0003C000#32 := shiftLeft_extractLsb' w 14 4
theorem putS3_fieldS3 (w : Word) : putS3 (fieldS3 w) = w &&& 0x00003C00#32 := shiftLeft_extractLsb' w 10 4
theorem putCtx_fieldCtx (w : Word) : putCtx (fieldCtx w) = w &&& 0x00003F00#32 := shiftLeft_extractLsb' w 8 6
theorem putImm_fieldImm (w : Word) : putImm (fieldImm w) = w &&& 0x0000FFFF#32 := by
  simpa [putImm, fieldImm] using shiftLeft_extractLsb' w 0 16
theorem putCr_fieldCr (w : Word) : putCr (fieldCr w) = w &&& 0x00000FFF#32 := by
  simpa [putCr, fieldCr] using shiftLeft_extractLsb' w 0 12

theorem and_every_bit (w : Word) : w &&& 0xFFFFFFFF#32 = w := BitVec.and_allOnes

/-! ## What a row of the opcode table builds -/

/-- A row's match word is its opcode with every operand field 0. -/
theorem opTable_pattern : ∀ r ∈ opTable, r.op.setWidth 32 <<< 26 = r.pattern := by decide

/-- A row builds a command of its own opcode. -/
theorem op_build : ∀ r ∈ opTable, ∀ w, (r.build w).op = r.op := by
  simp [opTable, opRowsMove, opRowsFmu, opRowsUnits, Instr.op]

/-- Every bit of a word lies in an operand field of the command that a row builds or under the row's mask. -/
theorem operandBits_build_or_masked :
    ∀ r ∈ opTable, ∀ w, operandBits (r.build w) ||| (w &&& r.mask) = w := by
  simp [opTable, opRowsMove, opRowsFmu, opRowsUnits, operandBits, putD_fieldD, putS1_fieldS1, putS2_fieldS2, putS3_fieldS3,
    putCtx_fieldCtx, putImm_fieldImm, putCr_fieldCr, ← BitVec.and_or_distrib_left, and_every_bit]

/-- A row's command encodes to the word that it was built from. -/
theorem encode_build {r : OpRow} (hr : r ∈ opTable) {w : Word} (hm : w &&& r.mask = r.pattern) :
    encode (r.build w) = w := by
  calc encode (r.build w) = r.pattern ||| operandBits (r.build w) := by rw [encode, op_build r hr, opTable_pattern r hr]
    _ = operandBits (r.build w) ||| (w &&& r.mask) := by rw [hm, BitVec.or_comm]
    _ = w := operandBits_build_or_masked r hr w

/-! ## The opcode table is the map of the statements -/

theorem map_opTable : opTable.map (fun r => (r.op.toNat, r.pattern, r.mask)) = opcodeMap := rfl

theorem toNat_fieldOp (w : Word) : (fieldOp w).toNat = (w >>> 26).toNat := by
  have hlt : w.toNat >>> 26 < 2 ^ 6 := by rw [Nat.shiftRight_eq_div_pow]; exact Nat.div_lt_of_lt_mul w.isLt
  rw [fieldOp, BitVec.extractLsb'_toNat, BitVec.toNat_ushiftRight, Nat.mod_eq_of_lt hlt]

theorem rowOf_eq_none {op : BitVec 6} (h : op.toNat ∉ legalOpcodes) : rowOf op = none := by
  rw [rowOf, List.find?_eq_none]
  intro r hr heq
  refine h ?_
  rw [← eq_of_beq heq, legalOpcodes, ← map_opTable, List.map_map]
  exact List.mem_map_of_mem hr

/-- An entry of the map is the row of its opcode. -/
theorem rowOf_of_mem_opcodeMap {op : BitVec 6} {p m : Word} (h : (op.toNat, p, m) ∈ opcodeMap) :
    ∃ r, rowOf op = some r ∧ r.pattern = p ∧ r.mask = m := by
  rw [← map_opTable, List.mem_map] at h
  obtain ⟨q, hq, heq⟩ := h
  obtain ⟨hop, rfl, rfl⟩ : q.op.toNat = op.toNat ∧ q.pattern = p ∧ q.mask = m := by simpa using heq
  obtain ⟨r, hr, -, hmask, hpattern⟩ := rowOf_self q hq
  exact ⟨r, BitVec.eq_of_toNat_eq hop ▸ hr, hpattern, hmask⟩

/-! ## The three answers of the decoder (R131) -/

theorem decode_of_not_legal {w : Word} (h : (w >>> 26).toNat ∉ legalOpcodes) : decode w = .error .illegalOpcode := by
  rw [decode, rowOf_eq_none (by rwa [toNat_fieldOp])]

theorem decode_of_reserved {w : Word} {r : OpRow} (hr : rowOf (fieldOp w) = some r) (hm : w &&& r.mask ≠ r.pattern) :
    decode w = .error (.reservedField (w &&& r.mask &&& ~~~ r.pattern)) := by
  simp only [decode, hr, hm, if_false, offendingBits]

/-! ## The step of a fetched word (40_control_and_data_movement.md R150) -/

theorem step_of_decode_ok {s : State} {w : Word} {i : Instr} (hf : Fetches s w) (hd : decode w = .ok i) :
    step s = exec i s := by
  obtain ⟨hrun, hin, rfl⟩ := hf
  simp only [step, stepBody, hin, sequencerStep, hrun, fetchWord, hd]

theorem step_of_decode_error {s : State} {w : Word} {e : DecodeError} (hf : Fetches s w) (hd : decode w = .error e) :
    step s = .next (rejectWord s w e) := by
  obtain ⟨hrun, hin, rfl⟩ := hf
  simp only [step, stepBody, hin, sequencerStep, hrun, fetchWord, hd]

theorem step_of_not_legal {s : State} {w : Word} (hf : Fetches s w) (h : (w >>> 26).toNat ∉ legalOpcodes) :
    ∃ t, step s = .next t ∧ Faulted .illegalOpcode w w s t :=
  ⟨_, step_of_decode_error hf (decode_of_not_legal h), takeFault_faulted _ _ _ _⟩

theorem step_of_reserved {s : State} {w : Word} {r : OpRow} (hf : Fetches s w) (hr : rowOf (fieldOp w) = some r)
    (hm : w &&& r.mask ≠ r.pattern) :
    ∃ t, step s = .next t ∧ Faulted .reservedField w (w &&& r.mask &&& ~~~ r.pattern) s t :=
  ⟨_, step_of_decode_error hf (decode_of_reserved hr hm), takeFault_faulted _ _ _ _⟩

/-- Settles O3: the opcode selects a row of the table or none, the row's mask tells a command from a bad field, and a row
covers every bit of a word by its mask or an operand field. -/
theorem decodingFollowsTheOpcodeMapOverAllWords : Obligations.DecodingFollowsTheOpcodeMapOverAllWords := by
  unfold Obligations.DecodingFollowsTheOpcodeMapOverAllWords
  refine ⟨fun s w => step_of_not_legal, ?_, by decide, by decide⟩
  rintro s w _ pattern mask hf hmem rfl
  rw [← toNat_fieldOp] at hmem ⊢
  obtain ⟨r, hr, rfl, rfl⟩ := rowOf_of_mem_opcodeMap hmem
  obtain ⟨hrow, hop⟩ := rowOf_mem hr
  refine ⟨step_of_reserved hf hr, fun hm => ?_⟩
  have hd := decode_of_row hr hm
  exact ⟨r.build w, hd, encode_build hrow hm, by rw [op_build r hrow, hop], step_of_decode_ok hf hd⟩

/-- Settles O4: six fixed words, each encoded and decoded by computation. -/
theorem workedEncodingsDecodeAsWritten : Obligations.WorkedEncodingsDecodeAsWritten := by
  unfold Obligations.WorkedEncodingsDecodeAsWritten
  decide

end Sys2Proof.Proofs
end

section
/-! Control flow and data movement (40_control_and_data_movement.md R151 to R158): the rows of the opcode table as
encodings, the commands that end the list or write one register, LDV and STV. -/

namespace Sys2Proof.Proofs

open Sys2Proof.Machine Sys2Proof.Safety Sys2Proof.Laws

/-! ## A row of the opcode table is an encoding (30_encoding.md R130, R131) -/

/-- A mask that keeps bits 31:26 tells the opcode. -/
theorem fieldOp_eq_of_and_eq {w x m : Word} (hm : m &&& 0xFC000000#32 = 0xFC000000#32) (h : w &&& m = x &&& m) :
    fieldOp w = fieldOp x := by
  rw [← fieldOp_and w m hm, h, fieldOp_and x m hm]

theorem encodedBy_of_rowOf (op : BitVec 6) {mnemonic : String} {pattern mask : Word} {build : Word → Instr}
    (hr : rowOf op = some ⟨op, mnemonic, pattern, mask, build⟩) : EncodedBy pattern mask build := by
  obtain ⟨hmask, hop⟩ := opTable_masks _ (rowOf_mem hr).1
  refine ⟨fun w hw => ?_, fun s w hf hw hne => ?_⟩
  · have hwop : fieldOp w = op := by rw [← fieldOp_and w mask hmask, hw, hop]
    exact decode_of_row (hwop ▸ hr) hw
  · have hwop : fieldOp w = op := (fieldOp_eq_of_and_eq (by decide) hw).trans hop
    exact step_of_reserved hf (hwop ▸ hr) hne

/-! ## NOP and END -/

/-- The end of a command leaves alone everything but the sequencer. -/
theorem complete_frame (s : State) :
    Ended s s.complete ∧ SameV s s.complete ∧ SameEg s s.complete ∧ SameCounters s s.complete ∧
      SameParams s s.complete ∧ SameDmem s s.complete ∧ SameCmd s s.complete ∧ SameModel s s.complete :=
  ⟨ended_complete s, getV_complete s, getEg_complete s,
    ⟨complete_ovtIterCount s, complete_renderCount s, complete_fastpathCount s⟩,
    ⟨complete_sampleRate s, complete_bufSize s, complete_kernel s, complete_noteFreq s⟩,
    dmemByte_complete s, cmdByte_complete s, ⟨complete_epoch s, complete_inputs s, complete_portData s⟩⟩

/-- Settles O14: NOP is the end of a command and nothing else. -/
theorem nopOnlyAdvancesCp : Obligations.NopOnlyAdvancesCp := by
  unfold Obligations.NopOnlyAdvancesCp
  exact ⟨encodedBy_of_rowOf 0x01#6 rfl, fun s => ⟨s.complete, rfl, complete_frame s⟩⟩

theorem exec_endList (s : State) : exec .endList s = .next { s with runState := .idle, done := true } := rfl

theorem status_idle_done {s : State} (hr : s.runState = .idle) (hd : s.done = true) : s.status = 0x00000002#32 := by
  simp only [State.status, State.statusCause, State.statusFault, State.statusRun, hr, hd]
  decide

/-- After a GO at 0 from IDLE the step fetches CMD[0]. -/
theorem fetches_hostGo_zero {s : State} {w : Word} (hr : s.runState = .idle) (hi : s.inputs = [])
    (hw : s.cmdWord 0 = w) :
    Fetches (hostGo s 0x00000000#32) w := by
  simp only [hostGo, hr]
  exact ⟨rfl, hi, hw⟩

theorem hostGo_zero_cp {s : State} (hr : s.runState = .idle) : (hostGo s 0x00000000#32).cp = 0#10 := by
  simp [hostGo, hr]

/-- Settles O15: END sets the run state and DONE alone, whatever the index. -/
theorem endStopsWithDoneSet : Obligations.EndStopsWithDoneSet := by
  unfold Obligations.EndStopsWithDoneSet
  refine ⟨encodedBy_of_rowOf 0x02#6 rfl, fun s => ?_, fun s hr hi hw => ?_⟩
  · exact ⟨_, exec_endList s, rfl, rfl, status_idle_done rfl rfl, rfl, ⟨rfl, rfl, rfl⟩, fun _ => rfl, fun _ => rfl,
      ⟨rfl, rfl, rfl⟩, ⟨rfl, rfl, rfl, rfl⟩, fun _ => rfl, fun _ => rfl, ⟨rfl, rfl, rfl⟩⟩
  · have hdecode : decode 0x08000000#32 = .ok .endList := by decide
    have hstep := step_of_decode_ok (fetches_hostGo_zero hr hi hw) hdecode
    exact ⟨_, hstep.trans (exec_endList _), hostGo_zero_cp hr, status_idle_done rfl rfl⟩

/-! ## Commands that write one vector register -/

/-- A command that puts one word in every lane of `d`. -/
theorem finish_setV_splat (s : State) (d : VReg) (w : Word) :
    ∃ t, finish (s.setV d (Lanes.splat w)) = .next t ∧ WritesOnlyV d s t ∧ ∀ l, (t.getV d).get l = w := by
  obtain ⟨t, ht, hframe, hd⟩ := finish_setV s d (Lanes.splat w)
  exact ⟨t, ht, hframe, fun l => by rw [hd, get_splat]⟩

/-- A command that applies a function of one lane to every lane of `d`. -/
theorem finish_setV_map (s : State) (d : VReg) (f : Word → Word) :
    ∃ t, finish (s.setV d ((s.getV d).map f)) = .next t ∧ WritesOnlyV d s t ∧
      ∀ l, (t.getV d).get l = f ((s.getV d).get l) := by
  obtain ⟨t, ht, hframe, hd⟩ := finish_setV s d ((s.getV d).map f)
  exact ⟨t, ht, hframe, fun l => by rw [hd, get_map]⟩

/-- Settles O16: both commands write `d` alone, one from its immediate, the other lane by lane from `d` itself. -/
theorem immediateLoadsSetUpperAndLowerHalves : Obligations.ImmediateLoadsSetUpperAndLowerHalves := by
  unfold Obligations.ImmediateLoadsSetUpperAndLowerHalves
  exact ⟨encodedBy_of_rowOf 0x04#6 rfl, encodedBy_of_rowOf 0x05#6 rfl,
    fun d imm s => finish_setV_splat s d (immHigh imm), fun d imm s => finish_setV_map s d (immLow imm)⟩

theorem laneOf_ofNat (v : Lanes) (l : Fin 4) : laneOf v (BitVec.ofNat 4 l.val) = v.get l := by
  fin_cases l <;> rfl

theorem exec_vbcast (d v : VReg) (lane : Fin 4) (s : State) :
    exec (.vbcast d v (BitVec.ofNat 4 lane.val)) s = finish (s.setV d (Lanes.splat ((s.getV v).get lane))) := by
  have hlane : (BitVec.ofNat 4 lane.val).toNat < Config.lanes := by
    rw [BitVec.toNat_ofNat, Nat.mod_eq_of_lt (by omega)]
    exact lane.isLt
  rw [← laneOf_ofNat]
  exact if_pos hlane

/-- Settles O17: both commands write `d` alone, with a value read from `v` in the state before. -/
theorem moveAndBroadcastCopyRegisterLanes : Obligations.MoveAndBroadcastCopyRegisterLanes := by
  unfold Obligations.MoveAndBroadcastCopyRegisterLanes
  refine ⟨encodedBy_of_rowOf 0x06#6 rfl, encodedBy_of_rowOf 0x07#6 rfl, fun d v s => finish_setV s d (s.getV v),
    fun d v lane s => ?_⟩
  rw [exec_vbcast]
  exact finish_setV_splat s d _

/-! ## The address of LDV and STV -/

theorem addressFault_of_misaligned {a : Nat} (h : a % 4 ≠ 0) : addressFault a = some .misaligned := by
  simp [addressFault, h]

theorem addressFault_of_reserved {a : Nat} (h : a % 4 = 0) (hr : Reserved a) : addressFault a = some .badAddress := by
  simp [addressFault, h, (dmemReserved_iff a).2 hr]

theorem addressFault_of_storage {a : Nat} (h : a % 4 = 0) (hr : ¬ Reserved a) : addressFault a = none := by
  simp [addressFault, h, mt (dmemReserved_iff a).1 hr]

/-! ## LDV -/

theorem exec_ldv_of_fault (d : VReg) {a : BitVec 16} (s : State) {cause : FaultCause}
    (h : addressFault a.toNat = some cause) : exec (.ldv d a) s = raise (.ldv d a) s cause (a.setWidth 32) := by
  simp [exec, execLdv, h]

theorem exec_ldv_of_storage (d : VReg) {a : BitVec 16} (s : State) (h : addressFault a.toNat = none) :
    exec (.ldv d a) s = finish (s.setV d (s.readVec a.toNat)) := by
  simp [exec, execLdv, h]

/-- Settles O18: the address decides between the two faults and the load of four words. -/
theorem loadVectorReadsFourAlignedWords : Obligations.LoadVectorReadsFourAlignedWords := by
  unfold Obligations.LoadVectorReadsFourAlignedWords
  refine ⟨encodedBy_of_rowOf 0x08#6 rfl, fun d a s => ⟨fun h => ?_, fun h hr => ?_, fun h hr => ?_⟩⟩
  · rw [exec_ldv_of_fault d s (addressFault_of_misaligned h)]
    exact raise_next _ _ _ _
  · rw [exec_ldv_of_fault d s (addressFault_of_reserved h hr)]
    exact raise_next _ _ _ _
  · rw [exec_ldv_of_storage d s (addressFault_of_storage h hr)]
    obtain ⟨t, ht, hframe, hd⟩ := finish_setV s d (s.readVec a.toNat)
    exact ⟨t, ht, hframe, fun l => by rw [hd, get_readVec]⟩

/-! ## STV -/

theorem dmemByte_writeVec_outside (s : State) (v : Lanes) {a x : Nat} (h : ¬ (a ≤ x / 4 ∧ x / 4 < a + 4)) :
    (s.writeVec a v).dmemByte x = s.dmemByte x := by
  rw [dmemByte_writeVec, if_neg (by omega), if_neg (by omega), if_neg (by omega), if_neg (by omega)]

theorem dmemWord_writeVec (s : State) (a : Nat) (v : Lanes) (l : Fin 4) :
    (s.writeVec a v).dmemWord (a + l.val) = v.get l := by
  fin_cases l <;> simp [State.writeVec, dmemWord_writeDmem_ne, Lanes.get]

@[simp] theorem dmemWord_complete (s : State) (a : Nat) : s.complete.dmemWord a = s.dmemWord a :=
  dmemWord_congr s s.complete a fun x _ => dmemByte_complete s x

/-- A store of a vector changes data memory alone. -/
theorem writeVec_eq (s : State) (a : Nat) (v : Lanes) : ∃ m, s.writeVec a v = { s with dmem := m } :=
  ⟨(s.writeVec a v).dmem, by simp only [State.writeVec, State.writeDmem]⟩

/-- A command that only stores a vector at words a to a + 3. -/
theorem finish_writeVec (s : State) (a : Nat) (v : Lanes) :
    ∃ t, finish (s.writeVec a v) = .next t ∧ WritesOnlyDmem (fun x => a ≤ x ∧ x < a + 4) s t ∧
      ∀ l : Fin 4, t.dmemWord (a + l.val) = v.get l := by
  have hdmem : SameDmemOutside (fun x => a ≤ x ∧ x < a + 4) s (s.writeVec a v).complete := fun x hx => by
    rw [dmemByte_complete, dmemByte_writeVec_outside s v hx]
  have hwords (l : Fin 4) : (s.writeVec a v).complete.dmemWord (a + l.val) = v.get l := by
    rw [dmemWord_complete, dmemWord_writeVec]
  obtain ⟨m, hm⟩ := writeVec_eq s a v
  rw [hm] at hdmem hwords ⊢
  obtain ⟨hended, hv, heg, hcounters, hparams, -, hcmd, hmodel⟩ := complete_frame { s with dmem := m }
  exact ⟨_, rfl, ⟨ended_congr rfl rfl rfl ⟨rfl, rfl, rfl⟩ hended, hv, heg, hcounters, hparams, hdmem, hcmd, hmodel⟩,
    hwords⟩

theorem exec_stv_of_fault (v : VReg) {a : BitVec 16} (s : State) {cause : FaultCause}
    (h : addressFault a.toNat = some cause) : exec (.stv v a) s = raise (.stv v a) s cause (a.setWidth 32) := by
  simp [exec, execStv, h]

theorem exec_stv_of_storage (v : VReg) {a : BitVec 16} (s : State) (h : addressFault a.toNat = none) :
    exec (.stv v a) s = finish (s.writeVec a.toNat (s.getV v)) := by
  simp [exec, execStv, h]

/-- Settles O19: the address decides between the two faults and the store of four words. -/
theorem storeVectorWritesFourAlignedWordsAlone : Obligations.StoreVectorWritesFourAlignedWordsAlone := by
  unfold Obligations.StoreVectorWritesFourAlignedWordsAlone
  refine ⟨encodedBy_of_rowOf 0x09#6 rfl, fun v a s => ⟨fun h => ?_, fun h hr => ?_, fun h hr => ?_⟩⟩
  · rw [exec_stv_of_fault v s (addressFault_of_misaligned h)]
    exact raise_next _ _ _ _
  · rw [exec_stv_of_fault v s (addressFault_of_reserved h hr)]
    exact raise_next _ _ _ _
  · rw [exec_stv_of_storage v s (addressFault_of_storage h hr)]
    exact finish_writeVec s a.toNat (s.getV v)

end Sys2Proof.Proofs
end

section
/-! The control registers (10_state.md R35 to R48) and the commands CRR and CRW (40_control_and_data_movement.md R159,
R160): the map of the model against the map of the statements, then reads and writes. -/

namespace Sys2Proof.Proofs

open Sys2Proof.Machine Sys2Proof.Safety Sys2Proof.Laws

/-! ## The number of a register -/

/-- The number of a named register (10_state.md R36 to R48); crOf reads it back. -/
def crNum : CrName → Nat
  | .status => 0x000
  | .faultCp => 0x001
  | .faultWord => 0x002
  | .faultInfo => 0x003
  | .ovtIterCount => 0x004
  | .renderCount => 0x005
  | .fastpathCount => 0x006
  | .cpReg => 0x007
  | .implId => 0x008
  | .implParams => 0x009
  | .implParams2 => 0x00A
  | .sampleRate => 0x010
  | .bufSize => 0x011
  | .kernel k => 0x020 + k.val
  | .noteFreq v => 0x040 + v.val
  | .egParam c k => 0x100 + 32 * c.toNat + k.val
  | .egFlags c => 0x100 + 32 * c.toNat + 8
  | .egState c k => 0x100 + 32 * c.toNat + (9 + k.val)

theorem crLow_num {n : Nat} {r : CrName} (h : crLow n = some r) : crNum r = n := by
  unfold crLow at h
  split at h <;> cases h <;> rfl

theorem crEg_num {c : Ctx} {k : Nat} {r : CrName} (h : crEg c k = some r) : crNum r = 0x100 + 32 * c.toNat + k := by
  unfold crEg at h
  split_ifs at h <;> cases h <;> simp only [crNum] <;> omega

/-- The register that a number names has that number. -/
theorem crOf_num {n : BitVec 12} {r : CrName} (h : crOf n = some r) : crNum r = n.toNat := by
  unfold crOf at h
  split_ifs at h with hlow hkernel hgap hnote heg
  · exact crLow_num h
  · cases h; simp only [crNum]; omega
  · cases h; simp only [crNum]; omega
  · simp only [Bool.and_eq_true, decide_eq_true_eq, Config.nEg] at heg
    rw [crEg_num h, BitVec.toNat_ofNat]
    omega

theorem crOf_eg {n : BitVec 12} {c : Ctx} {k : Nat} (h : n.toNat = 0x100 + 32 * c.toNat + k) (hk : k < 32) :
    crOf n = crEg c k := by
  have hc : c.toNat < 64 := c.isLt
  have hctx : (n.toNat - 0x100) / 32 = c.toNat := by omega
  have hreg : (n.toNat - 0x100) % 32 = k := by omega
  unfold crOf
  rw [if_neg (by omega), dif_neg (by omega), if_neg (by omega), dif_neg (by simp only [Config.maxVV]; omega),
    if_pos (by simp only [Config.nEg, Bool.and_eq_true, decide_eq_true_eq]; omega), hctx, hreg, BitVec.ofNat_toNat,
    BitVec.setWidth_eq]

/-- A number that is that of a register names it. -/
theorem crOf_crNum {n : BitVec 12} {r : CrName} (h : n.toNat = crNum r) : crOf n = some r := by
  cases r
  case kernel k => simp [crOf, h, crNum]
  case noteFreq v => simp [crOf, h, crNum, show ¬ 64 + v.val < 32 by omega, show ¬ 64 + v.val - 32 < 15 by omega]
  case egParam c k => rw [crOf_eg h (by omega)]; simp [crEg]
  case egFlags c => rw [crOf_eg h (by omega)]; simp [crEg]
  case egState c k => rw [crOf_eg h (by omega)]; simp [crEg, show ¬ 9 + k.val < 8 by omega, show 9 + k.val ≠ 8 by omega]
  all_goals simp [crOf, h, crNum, crLow]

theorem crNum_lt (r : CrName) : crNum r < 4096 := by
  cases r
  case noteFreq v => have hv : v.val < 10 := v.isLt; simp only [crNum]; omega
  case egParam c k => have hc : c.toNat < 64 := c.isLt; simp only [crNum]; omega
  case egFlags c => have hc : c.toNat < 64 := c.isLt; simp only [crNum]; omega
  case egState c k => have hc : c.toNat < 64 := c.isLt; simp only [crNum]; omega
  all_goals simp only [crNum]; omega

theorem crNum_injective : Function.Injective crNum := by
  intro r q h
  have hr : (BitVec.ofNat 12 (crNum r)).toNat = crNum r := by
    rw [BitVec.toNat_ofNat, Nat.mod_eq_of_lt (crNum_lt r)]
  exact Option.some.inj ((crOf_crNum hr).symm.trans (crOf_crNum (hr.trans h)))

/-! ## The reserved numbers -/

theorem crLow_eq_none_iff :
    ∀ n < 0x020, crLow n = none ↔ (0x00B ≤ n ∧ n ≤ 0x00F) ∨ (0x012 ≤ n ∧ n ≤ 0x01F) := by decide

theorem crEg_eq_none_iff (c : Ctx) (k : Nat) : crEg c k = none ↔ 17 ≤ k := by
  unfold crEg
  split_ifs <;> simp <;> omega

theorem crOf_eq_none_iff (n : BitVec 12) : crOf n = none ↔ CrReserved n.toNat := by
  unfold crOf CrReserved
  simp only [Bool.and_eq_true, decide_eq_true_eq, Config.maxVV, Config.nEg]
  split_ifs with hlow hkernel hgap hnote heg
  · rw [crLow_eq_none_iff _ hlow]; omega
  · simp; omega
  · simp; omega
  · simp; omega
  · rw [crEg_eq_none_iff]; omega
  · simp; omega

/-! ## The rows of the map -/

theorem egFlagsWord_eq (e : EgContext) :
    egFlagsWord e = BitVec.ofNat 32 ((if e.autoRelease then 1 else 0) + (if e.state.triggered then 2 else 0)) := by
  unfold egFlagsWord
  cases e.autoRelease <;> cases e.state.triggered <;> rfl

/-- Every named register has its row. -/
theorem crRow_crNum (s : State) (r : CrName) : CrRow s (crNum r) r.access (s.readCr r) := by
  cases r
  case kernel k =>
    fin_cases k
    exacts [.overtoneCount, .sumStart, .ampPowBase, .ampIdxMul, .hsIdxMul, .hsOffset, .hsExp, .boostCenter, .boostSharp,
      .boostExp, .boostDb, .rmRate, .rmDepth, .rmPhaseOfs, .stereoWidth]
  case egParam c k =>
    fin_cases k
    exacts [.attackLevel c, .attackSecs c, .attackPow c, .sustainLevel c, .decaySecs c, .decayPow c, .releaseSecs c,
      .releasePow c]
  case egState c k =>
    fin_cases k
    exacts [.tTrigger c, .tZeroEnd c, .tAttackEnd c, .tDecayEnd c, .tRelease c, .tOffEnd c, .onLevel c, .offLevel c]
  case egFlags c => rw [State.readCr, egFlagsWord_eq]; exact .egFlags c
  case noteFreq v => exact .noteFreq v
  exacts [.status, .faultCp, .faultWord, .faultInfo, .ovtIterCount, .renderCount, .fastpathCount, .cpReg, .implId,
    .implParams, .implParams2, .sampleRate, .bufSize]

/-- Every row is that of a named register. -/
theorem exists_name_of_crRow {s : State} {n : Nat} {a : Access} {w : Word} (h : CrRow s n a w) :
    ∃ r, crNum r = n ∧ r.access = a ∧ s.readCr r = w := by
  have name (r : CrName) : ∃ q, crNum q = crNum r ∧ q.access = r.access ∧ s.readCr q = s.readCr r := ⟨r, rfl, rfl, rfl⟩
  cases h
  case egFlags c => exact ⟨.egFlags c, rfl, rfl, egFlagsWord_eq _⟩
  case noteFreq v => exact name (.noteFreq v)
  exacts [name .status, name .faultCp, name .faultWord, name .faultInfo, name .ovtIterCount, name .renderCount,
    name .fastpathCount, name .cpReg, name .implId, name .implParams, name .implParams2, name .sampleRate,
    name .bufSize, name (.kernel 0), name (.kernel 1), name (.kernel 2), name (.kernel 3), name (.kernel 4), name (.kernel 5),
    name (.kernel 6), name (.kernel 7), name (.kernel 8), name (.kernel 9), name (.kernel 10), name (.kernel 11),
    name (.kernel 12), name (.kernel 13), name (.kernel 14),
    name (.egParam _ 0), name (.egParam _ 1), name (.egParam _ 2), name (.egParam _ 3), name (.egParam _ 4),
    name (.egParam _ 5), name (.egParam _ 6), name (.egParam _ 7),
    name (.egState _ 0), name (.egState _ 1), name (.egState _ 2), name (.egState _ 3), name (.egState _ 4),
    name (.egState _ 5), name (.egState _ 6), name (.egState _ 7)]

theorem crRow_iff {s : State} {n : Nat} {a : Access} {w : Word} :
    CrRow s n a w ↔ ∃ r, crNum r = n ∧ r.access = a ∧ s.readCr r = w :=
  ⟨exists_name_of_crRow, fun ⟨r, hn, ha, hw⟩ => hn ▸ ha ▸ hw ▸ crRow_crNum s r⟩

/-- A row of a number that a command names: the register that the number decodes to. -/
theorem crOf_of_crRow {s : State} {n : BitVec 12} {a : Access} {w : Word} (h : CrRow s n.toNat a w) :
    ∃ r, crOf n = some r ∧ r.access = a ∧ s.readCr r = w := by
  obtain ⟨r, hn, ha, hw⟩ := exists_name_of_crRow h
  exact ⟨r, crOf_crNum hn.symm, ha, hw⟩

theorem crReserved_iff_no_row (s : State) {n : Nat} (hn : n < 4096) : CrReserved n ↔ ∀ a w, ¬ CrRow s n a w := by
  have hnum : (BitVec.ofNat 12 n).toNat = n := by rw [BitVec.toNat_ofNat, Nat.mod_eq_of_lt hn]
  rw [← hnum, ← crOf_eq_none_iff]
  constructor
  · intro hnone a w h
    obtain ⟨r, hr, -, -⟩ := crOf_of_crRow h
    rw [hnone] at hr
    cases hr
  · intro h
    rw [Option.eq_none_iff_forall_ne_some]
    intro r hr
    exact h _ _ (crOf_num hr ▸ crRow_crNum s r)

theorem crRow_functional {s : State} {n : Nat} {a b : Access} {u v : Word} (h : CrRow s n a u) (h' : CrRow s n b v) :
    a = b ∧ u = v := by
  obtain ⟨r, rfl, rfl, rfl⟩ := exists_name_of_crRow h
  obtain ⟨q, hq, rfl, rfl⟩ := exists_name_of_crRow h'
  cases crNum_injective hq
  exact ⟨rfl, rfl⟩

/-! ## CRR -/

theorem exec_crr_of_none (d : VReg) {n : BitVec 12} (s : State) (h : crOf n = none) :
    exec (.crr d n) s = raise (.crr d n) s .badCr (n.setWidth 32) := by
  simp [exec, execCrr, h]

theorem exec_crr_of_some (d : VReg) {n : BitVec 12} {r : CrName} (s : State) (h : crOf n = some r) :
    exec (.crr d n) s = finish (s.setV d (Lanes.splat (s.readCr r))) := by
  simp [exec, execCrr, h]

/-- CRR of a number with a row reads the row's value into every lane. -/
theorem exec_crr_of_crRow (d : VReg) {n : BitVec 12} {s : State} {a : Access} {w : Word} (h : CrRow s n.toNat a w) :
    ∃ t, exec (.crr d n) s = .next t ∧ WritesOnlyV d s t ∧ ∀ l, (t.getV d).get l = w := by
  obtain ⟨r, hr, -, rfl⟩ := crOf_of_crRow h
  rw [exec_crr_of_some d s hr]
  exact finish_setV_splat s d _

theorem status_running {s : State} (hr : s.runState = .running) (hd : s.done = false) : s.status = 0x00000001#32 := by
  simp only [State.status, State.statusCause, State.statusFault, State.statusRun, hr, hd]
  decide

/-- Settles O21: the numbers of the named registers are the rows of the map, each once, and the rest are reserved. -/
theorem controlRegisterReadsFollowTheMap : Obligations.ControlRegisterReadsFollowTheMap := by
  unfold Obligations.ControlRegisterReadsFollowTheMap
  refine ⟨encodedBy_of_rowOf 0x0A#6 rfl, fun s _ => crReserved_iff_no_row s, fun _ _ _ _ _ _ => crRow_functional,
    fun d n s h => ?_, fun d _ _ _ _ => exec_crr_of_crRow d, fun d s hr hd => ?_, ?_⟩
  · rw [exec_crr_of_none d s ((crOf_eq_none_iff n).2 h)]
    exact raise_next _ _ _ _
  · obtain ⟨t, ht, -, hlanes⟩ := exec_crr_of_crRow (n := 0x000#12) d (.status (s := s))
    exact ⟨t, ht, fun l => (hlanes l).trans (status_running hr hd)⟩
  · obtain ⟨t, ht, -, hlanes⟩ := exec_crr_of_crRow (n := 0x010#12) 0 (.sampleRate (s := State.reset))
    exact ⟨t, ht, hlanes⟩

/-! ## What a store into a register changes -/

theorem kernelGet_kernelSet (p : KernelParams) (k j : Fin 15) (v : Word) :
    kernelGet (kernelSet p k v) j = if j = k then v else kernelGet p j := by
  fin_cases k <;> fin_cases j <;> rfl

theorem egParamGet_egParamSet (p : EgParams) (k j : Fin 8) (v : Word) :
    egParamGet (egParamSet p k v) j = if j = k then v else egParamGet p j := by
  fin_cases k <;> fin_cases j <;> rfl

/-- A register with access rw or legalOnly reads as what was stored. -/
theorem readCr_storeCr_same (s : State) {r : CrName} (v : Word) (h : r.access = .rw ∨ r.access = .legalOnly) :
    (s.storeCr r v).readCr r = v := by
  cases r
  case sampleRate => rfl
  case bufSize => rfl
  case kernel k => simp [State.storeCr, State.readCr, kernelGet_kernelSet]
  case noteFreq i => simp [State.storeCr, State.readCr]
  case egParam c k => simp [State.storeCr, State.readCr, egParamGet_egParamSet]
  all_goals simp [CrName.access] at h

/-- A view of a context that the replacement keeps is the same for every context. -/
theorem getEg_setEg_view {α : Type} (f : EgContext → α) (s : State) (c : Ctx) {e : EgContext} (h : f e = f (s.getEg c))
    (q : Ctx) : f ((s.setEg c e).getEg q) = f (s.getEg q) := by
  by_cases hq : q = c
  · rw [hq, getEg_setEg_same, h]
  · rw [getEg_setEg_ne s e hq]

/-- A store into one register leaves every other register alone. -/
theorem readCr_storeCr_ne (s : State) {r q : CrName} (v : Word) (h : q ≠ r) :
    (s.storeCr r v).readCr q = s.readCr q := by
  cases r
  case sampleRate =>
    cases q
    case sampleRate => exact absurd rfl h
    all_goals rfl
  case bufSize =>
    cases q
    case bufSize => exact absurd rfl h
    all_goals rfl
  case kernel k =>
    cases q
    case kernel j =>
      have hj : j ≠ k := fun hjk => h (hjk ▸ rfl)
      simp [State.storeCr, State.readCr, kernelGet_kernelSet, hj]
    all_goals rfl
  case noteFreq i =>
    cases q
    case noteFreq j =>
      have hj : i.val ≠ j.val := fun hij => h (Fin.ext hij ▸ rfl)
      simp [State.storeCr, State.readCr, hj]
    all_goals rfl
  case egParam c k =>
    cases q
    case egParam e j =>
      by_cases he : e = c
      · subst he
        have hj : j ≠ k := fun hjk => h (hjk ▸ rfl)
        simp [State.storeCr, State.readCr, egParamGet_egParamSet, hj]
      · simp [State.storeCr, State.readCr, getEg_setEg_ne _ _ he]
    case egFlags e => exact getEg_setEg_view egFlagsWord s c (by rfl) e
    case egState e j => exact getEg_setEg_view (fun x => egStateGet x.state j) s c (by rfl) e
    all_goals rfl
  case egFlags c =>
    cases q
    case egParam e j => exact getEg_setEg_view (fun x => egParamGet x.params j) s c (by rfl) e
    case egFlags e =>
      have he : e ≠ c := fun hec => h (hec ▸ rfl)
      simp [State.storeCr, State.readCr, getEg_setEg_ne _ _ he]
    case egState e j => exact getEg_setEg_view (fun x => egStateGet x.state j) s c (by rfl) e
    all_goals rfl
  all_goals rfl

/-- A store into a register changes parameters and envelope contexts alone. -/
theorem storeCr_eq (s : State) (r : CrName) (v : Word) :
    ∃ sr bs k nf eg, s.storeCr r v =
      { s with sampleRate := sr, bufSize := bs, kernel := k, noteFreq := nf, eg := eg } := by
  cases r <;> exact ⟨_, _, _, _, _, rfl⟩

/-! ## What the end of a command leaves of the registers -/

theorem readCr_complete (s : State) {r : CrName} (h : 0x010 ≤ crNum r) : s.complete.readCr r = s.readCr r := by
  cases r
  case status | faultCp | faultWord | faultInfo | cpReg => exact absurd h (by decide)
  all_goals simp [State.readCr]

theorem le_crNum {r : CrName} (h : r.access ≠ .ro) : 0x010 ≤ crNum r := by
  cases r
  case sampleRate | bufSize => decide
  case kernel k => simp only [crNum]; omega
  case noteFreq v => simp only [crNum]; omega
  case egParam c k => simp only [crNum]; omega
  case egFlags c => simp only [crNum]; omega
  all_goals exact absurd rfl h

/-- From 0x010 up, states that read alike in every other register agree on every other row. -/
theorem sameCrBut_of_readCr {s t : State} {r : CrName}
    (h : ∀ q, 0x010 ≤ crNum q → q ≠ r → t.readCr q = s.readCr q) : SameCrBut (crNum r) s t := by
  intro m a w hm hne
  rw [crRow_iff, crRow_iff]
  refine exists_congr fun q => and_congr_right fun hq => and_congr_right fun _ => ?_
  rw [h q (hq ▸ hm) fun e => hne (by rw [← hq, e])]

/-! ## CRW -/

theorem bufSizeLegal_iff (v : Word) : bufSizeLegal v = true ↔ LegalBufSize v := by
  simp [bufSizeLegal, LegalBufSize, and_assoc]

theorem crwFault_of_none {n : BitVec 12} (v : Word) (h : crOf n = none) :
    crwFault n v = some (.badCr, n.setWidth 32) := by
  simp [crwFault, h]

theorem crwFault_of_ro {n : BitVec 12} {q : CrName} (v : Word) (h : crOf n = some q) (hacc : q.access = .ro) :
    crwFault n v = some (.roWrite, n.setWidth 32) := by
  simp [crwFault, h, hacc]

theorem crwFault_of_rw {n : BitVec 12} {q : CrName} (v : Word) (h : crOf n = some q) (hacc : q.access = .rw) :
    crwFault n v = none := by
  simp [crwFault, h, hacc]

theorem crwFault_of_warl {n : BitVec 12} {q : CrName} (v : Word) (h : crOf n = some q) (hacc : q.access = .warl) :
    crwFault n v = none := by
  simp [crwFault, h, hacc]

theorem crOf_bufSize : crOf 0x011#12 = some .bufSize := rfl

theorem crwFault_bufSize_of_illegal {v : Word} (h : ¬ LegalBufSize v) : crwFault 0x011#12 v = some (.badValue, v) := by
  simp [crwFault, crOf_bufSize, CrName.access, mt (bufSizeLegal_iff v).1 h]

theorem crwFault_bufSize_of_legal {v : Word} (h : LegalBufSize v) : crwFault 0x011#12 v = none := by
  simp [crwFault, crOf_bufSize, CrName.access, (bufSizeLegal_iff v).2 h]

theorem exec_crw_of_fault {n : BitVec 12} {r : VReg} {s : State} {cause : FaultCause} {info : Word}
    (h : crwFault n ((s.getV r).get 0) = some (cause, info)) :
    exec (.crw n r) s = raise (.crw n r) s cause info := by
  have h0 : crwFault n (s.getV r).l0 = some (cause, info) := h
  simp [exec, execCrw, h0]

theorem exec_crw_of_store {n : BitVec 12} {r : VReg} {s : State} {q : CrName} (hq : crOf n = some q)
    (h : crwFault n ((s.getV r).get 0) = none) :
    exec (.crw n r) s = .next (s.storeCr q ((s.getV r).get 0)).complete := by
  have h0 : crwFault n (s.getV r).l0 = none := h
  simp only [exec, execCrw, h0, crwStore, hq, finish]
  rfl

/-- The frame of a store into register `r` followed by the end of the command. -/
theorem complete_storeCr_frame (s : State) (r : CrName) (v : Word) :
    SameCrBut (crNum r) s (s.storeCr r v).complete ∧ Ended s (s.storeCr r v).complete ∧
      SameV s (s.storeCr r v).complete ∧ SameCounters s (s.storeCr r v).complete ∧
      SameDmem s (s.storeCr r v).complete ∧ SameCmd s (s.storeCr r v).complete ∧ SameModel s (s.storeCr r v).complete := by
  refine ⟨sameCrBut_of_readCr fun q hq hne => by rw [readCr_complete _ hq, readCr_storeCr_ne s v hne], ?_⟩
  obtain ⟨sr, bs, k, nf, eg, heq⟩ := storeCr_eq s r v
  rw [heq]
  obtain ⟨hended, hv, -, hcounters, -, hdmem, hcmd, hmodel⟩ :=
    complete_frame { s with sampleRate := sr, bufSize := bs, kernel := k, noteFreq := nf, eg := eg }
  exact ⟨ended_congr rfl rfl rfl ⟨rfl, rfl, rfl⟩ hended, hv, hcounters, hdmem, hcmd, hmodel⟩

/-- CRW without a fault into a register that holds what it is given. -/
theorem exec_crw_verbatim {n : BitVec 12} {r : VReg} {s : State} {q : CrName} (hq : crOf n = some q)
    (hacc : q.access = .rw ∨ q.access = .legalOnly) (h : crwFault n ((s.getV r).get 0) = none) :
    ∃ t, exec (.crw n r) s = .next t ∧ CrRow t n.toNat q.access ((s.getV r).get 0) ∧ SameCrBut n.toNat s t ∧
      Ended s t ∧ SameV s t ∧ SameCounters s t ∧ SameDmem s t ∧ SameCmd s t ∧ SameModel s t := by
  have hread : (s.storeCr q ((s.getV r).get 0)).complete.readCr q = (s.getV r).get 0 := by
    rw [readCr_complete _ (le_crNum fun hro => by simp [hro] at hacc), readCr_storeCr_same s _ hacc]
  rw [← crOf_num hq]
  exact ⟨_, exec_crw_of_store hq h, crRow_iff.2 ⟨q, rfl, rfl, hread⟩, complete_storeCr_frame s q _⟩

/-- Settles O22: the access type of the register that the number names decides between the faults and the store. -/
theorem controlRegisterWritesFollowTheMap : Obligations.ControlRegisterWritesFollowTheMap := by
  unfold Obligations.ControlRegisterWritesFollowTheMap
  refine ⟨encodedBy_of_rowOf 0x0B#6 rfl, fun n r s h => ?_, fun n r s w h => ?_, fun r s h => ?_, fun r s h => ?_,
    fun n r s w h => ?_, fun c n r s h => ?_⟩
  · rw [exec_crw_of_fault (crwFault_of_none _ ((crOf_eq_none_iff n).2 h))]
    exact raise_next _ _ _ _
  · obtain ⟨q, hq, hacc, -⟩ := crOf_of_crRow h
    rw [exec_crw_of_fault (crwFault_of_ro _ hq hacc)]
    exact raise_next _ _ _ _
  · rw [exec_crw_of_fault (crwFault_bufSize_of_illegal h)]
    exact raise_next _ _ _ _
  · exact exec_crw_verbatim crOf_bufSize (.inr rfl) (crwFault_bufSize_of_legal h)
  · obtain ⟨q, hq, hacc, -⟩ := crOf_of_crRow h
    exact hacc ▸ exec_crw_verbatim hq (.inl hacc) (crwFault_of_rw _ hq hacc)
  · have hq : crOf n = some (.egFlags c) := crOf_crNum h
    have heg : (s.storeCr (.egFlags c) ((s.getV r).get 0)).complete.getEg c =
        { s.getEg c with autoRelease := ((s.getV r).get 0).getLsbD 0 } := by
      simp [State.storeCr]
    refine ⟨_, exec_crw_of_store hq (crwFault_of_warl _ hq rfl), by rw [heg], by rw [heg], ?_⟩
    rw [← crOf_num hq]
    exact complete_storeCr_frame s (.egFlags c) _

end Sys2Proof.Proofs
end

section
/-! The FastMath unit's bit operations and rounding operations on one lane, and its commands (41_fastmath.md R203 to R207). -/

namespace Sys2Proof.Proofs

open Sys2Proof.Machine Sys2Proof.Safety Sys2Proof.Laws

/-! ## FSEL (R203) -/

theorem getLsbD_selectBits (mask a b : Word) (k : Nat) :
    (selectBits mask a b).getLsbD k = if mask.getLsbD k then a.getLsbD k else b.getLsbD k := by
  rw [selectBits, BitVec.getLsbD_or, BitVec.getLsbD_and, BitVec.getLsbD_and, BitVec.getLsbD_not]
  rcases Nat.lt_or_ge k 32 with hk | hk
  · cases mask.getLsbD k <;> simp [hk]
  · simp [hk]

/-- Settles O28: FSEL writes `d` alone, and each bit of the selection is taken by the mask bit at its place. -/
theorem selectIsBitwise : Obligations.SelectIsBitwise := by
  unfold Obligations.SelectIsBitwise
  refine ⟨encodedBy_of_rowOf 0x15#6 rfl, fun d m a b s => ?_⟩
  obtain ⟨t, ht, hframe, hd⟩ := finish_setV s d (Lanes.map3 selectBits (s.getV m) (s.getV a) (s.getV b))
  exact ⟨t, ht, hframe, fun l k => by rw [hd, get_map3, getLsbD_selectBits]⟩

/-! ## FFLOOR (R204) -/

theorem signBit_fFloor (x : Word) : signBit (fFloor x) = signBit x := by
  rw [fFloor]
  split
  · exact signBit_packWord _ (lt31 (roundUnits_le_inf _ _))
  · rfl

theorem fFloor_of_not_finite {x : Word} (h : isFinite x = false) : fFloor x = x := by
  rw [fFloor, h, if_neg Bool.false_ne_true]

/-- Settles O29: the floor of a finite value is representable, so its one rounding is exact; the sign bit is passed on. -/
theorem floorIsExact : Obligations.FloorIsExact := by
  unfold Obligations.FloorIsExact
  refine ⟨encodedBy_of_rowOf 0x16#6 rfl, fun d v s => ?_⟩
  obtain ⟨t, ht, hframe, hd⟩ := fmuUnary_next fFloor d v s
  refine ⟨t, ht, hframe, fun l => ?_⟩
  simp only [hd]
  refine ⟨fun hfin => ?_, fFloor_of_not_finite⟩
  obtain ⟨hfloor, hvalue⟩ := fFloor_exact hfin
  exact ⟨hfloor, signBit_fFloor _, hvalue⟩

/-! ## The value of a word by its sign and fields (00_scope.md R9) -/

theorem extUnits_eq_units (x : Word) : extUnits x = if signBit x then -(units x : Int) else units x := by
  rw [extUnits_eq, units_eq]

theorem natAbs_extUnits (x : Word) : (extUnits x).natAbs = units x := by
  rw [extUnits_eq_units]
  split <;> simp

/-- Bits 22:0, the fraction. -/
theorem fraction_eq (x : Word) : magBits x % 2 ^ 23 = (x.extractLsb' 0 23).toNat := by
  rw [magBits, BitVec.extractLsb'_toNat, Nat.shiftRight_zero]
  omega

theorem signBit_eq_msb (x : Word) : signBit x = x.msb := by rw [signBit_eq, BitVec.msb_eq_decide]

/-- A value whose exponent is not 0 has the significand 2^23 + fraction. -/
theorem units_of_expBits_ne_zero {x : Word} (h : expBits x ≠ 0) :
    units x = (2 ^ 23 + (x.extractLsb' 0 23).toNat) * 2 ^ (expBits x - 1) := by
  rw [units, if_neg h, fraction_eq]

/-! ## FFREXPM and FFREXPE (R205, R206) -/

/-- FFREXPM's word: the sign and the fraction of x under the exponent of [0.5, 1). -/
theorem logMantissa_fields (x : Word) :
    signBit (logMantissa x) = signBit x ∧ expBits (logMantissa x) = 126 ∧
      (logMantissa x).extractLsb' 0 23 = x.extractLsb' 0 23 := by
  refine ⟨?_, ?_, ?_⟩
  · have h : (0x807FFFFF#32).msb = true ∧ (0x3F000000#32).msb = false := by decide
    rw [signBit_eq_msb, signBit_eq_msb, logMantissa, BitVec.msb_or, BitVec.msb_and, h.1, h.2, Bool.and_true, Bool.or_false]
  · have h : (0x807FFFFF#32).extractLsb' 23 8 = 0#8 ∧ (0x3F000000#32).extractLsb' 23 8 = 126#8 := by decide
    rw [expBits_eq, logMantissa, BitVec.extractLsb'_or, BitVec.extractLsb'_and, h.1, h.2, BitVec.and_zero, BitVec.zero_or]
    rfl
  · have h : (0x807FFFFF#32).extractLsb' 0 23 = BitVec.allOnes 23 ∧ (0x3F000000#32).extractLsb' 0 23 = 0#23 := by decide
    rw [logMantissa, BitVec.extractLsb'_or, BitVec.extractLsb'_and, h.1, h.2, BitVec.and_allOnes, BitVec.or_zero]

theorem frexpM_of_normal {x : Word} (h0 : expBits x ≠ 0) (h255 : expBits x ≠ 255) : frexpM x = logMantissa x := by
  rw [frexpM, if_neg (by simp [h0, h255])]
  rfl

theorem frexpE_of_normal {x : Word} (h0 : expBits x ≠ 0) (h255 : expBits x ≠ 255) :
    frexpE x = fOfInt ((expBits x : Int) - 126) := by
  rw [frexpE, if_neg (by simp [h0, h255])]

theorem frexp_of_special {x : Word} (h : expBits x = 0 ∨ expBits x = 255) : frexpM x = x ∧ frexpE x = 0x00000000#32 := by
  simp [frexpM, frexpE, h]

theorem units_logMantissa (x : Word) :
    units (logMantissa x) = (2 ^ 23 + (x.extractLsb' 0 23).toNat) * 2 ^ 125 := by
  obtain ⟨-, hexp, hfrac⟩ := logMantissa_fields x
  rw [units_of_expBits_ne_zero (by omega), hexp, hfrac]

/-- x = m·2^(E − 126) with m the word of [0.5, 1). -/
theorem extUnits_eq_logMantissa_scaled {x : Word} (h : expBits x ≠ 0) :
    extUnits x * 2 ^ 126 = extUnits (logMantissa x) * 2 ^ expBits x := by
  have hmag : units x * 2 ^ 126 = units (logMantissa x) * 2 ^ expBits x := by
    obtain ⟨E, hE⟩ := Nat.exists_eq_succ_of_ne_zero h
    rw [units_logMantissa, units_of_expBits_ne_zero h, hE, Nat.succ_sub_one, Nat.mul_assoc, Nat.mul_assoc, ← pow_add,
      ← pow_add]
    congr 2
    omega
  have hint : (units x : Int) * 2 ^ 126 = units (logMantissa x) * 2 ^ expBits x := mod_cast hmag
  rw [extUnits_eq_units, extUnits_eq_units, (logMantissa_fields x).1]
  split
  · rw [neg_mul, neg_mul, hint]
  · exact hint

/-- Settles O30: a normal word and its FFREXPM word share sign and fraction, so their values differ by the power of two
between their exponents; the exponent is small enough for f32 to hold it exactly. -/
theorem frexpSplitsNormalValuesExactly : Obligations.FrexpSplitsNormalValuesExactly := by
  unfold Obligations.FrexpSplitsNormalValuesExactly
  refine ⟨encodedBy_of_rowOf 0x17#6 rfl, encodedBy_of_rowOf 0x18#6 rfl, fun dm de v s => ?_⟩
  obtain ⟨t, ht, htframe, hm⟩ := fmuUnary_next frexpM dm v s
  obtain ⟨u, hu, huframe, he⟩ := fmuUnary_next frexpE de v s
  refine ⟨t, u, ht, hu, htframe, huframe, fun l => ?_⟩
  simp only [hm, he, ← expBits_eq]
  refine ⟨fun ⟨h0, h255⟩ => ?_, frexp_of_special⟩
  generalize (s.getV v).get l = x at h0 h255 ⊢
  rw [frexpM_of_normal h0 h255, frexpE_of_normal h0 h255, natAbs_extUnits, units_logMantissa]
  have hfrac := (x.extractLsb' 0 23).isLt
  have hexp : expBits x < 256 := by rw [expBits_eq]; exact (x.extractLsb' 23 8).isLt
  exact ⟨rfl, (logMantissa_fields x).1, by omega, by omega, extUnits_fOfInt (by omega), extUnits_eq_logMantissa_scaled h0⟩

/-! ## FLDEXP (R207) -/

/-- The factor of a clamped scaling is a positive normal word of the value 2^k. -/
theorem extUnits_powerOfTwo {k : Int} (hlo : -126 ≤ k) (hhi : k ≤ 127) :
    extUnits (powerOfTwo k) = 2 ^ (149 + k).toNat := by
  obtain ⟨n, hn⟩ : ∃ n : Nat, k = n - 126 := ⟨(k + 126).toNat, by omega⟩
  have hword : powerOfTwo k = packWord false (n * 2 ^ 23 + 2 ^ 23) := by
    apply BitVec.eq_of_toNat_eq
    rw [powerOfTwo, show k + 127 = ((n + 1 : Nat) : Int) by omega, BitVec.ofInt_natCast, BitVec.toNat_shiftLeft,
      BitVec.toNat_ofNat, toNat_packWord _ (by omega), Nat.shiftLeft_eq]
    simp only [Bool.false_eq_true, if_false]
    omega
  rw [hword, extUnits_pack _ (by omega), magUnits_scaled (by norm_num) (.inr le_rfl), ← pow_add,
    show (149 + k).toNat = 23 + n by omega]
  simp

/-- Settles O31: each lane is one multiplication by the power of two of the clamped exponent. -/
theorem ldexpScalesByAClampedPowerOfTwo : Obligations.LdexpScalesByAClampedPowerOfTwo := by
  unfold Obligations.LdexpScalesByAClampedPowerOfTwo
  refine ⟨encodedBy_of_rowOf 0x19#6 rfl, fun d x n s => ?_⟩
  obtain ⟨t, ht, hframe, hd⟩ := fmuBinary_next ldexp d x n s
  exact ⟨t, ht, hframe, fun l => ⟨_, extUnits_powerOfTwo (by omega) (by omega), hd l⟩⟩

end Sys2Proof.Proofs
end

section
/-! The power function of the FastMath unit and its sign policy, over any configuration (41_fastmath.md R188), and FPOW
(R194). -/

namespace Sys2Proof.Proofs

open Sys2Proof.Machine Sys2Proof.Safety Sys2Proof.Laws

/-! ## Whole exponents -/

theorem not_nan_of_finite {x : Word} (h : isFinite x = true) : isNaN x = false := by
  rw [finite_iff] at h
  rw [Bool.eq_false_iff, ne_eq, nan_iff]
  omega

/-- The integer test of fm_pow is that of the real value. -/
theorem fIsInteger_iff (e : Word) : fIsInteger e = true ↔ isFinite e = true ∧ extUnits e % 2 ^ 149 = 0 := by
  rw [fIsInteger, Bool.and_eq_true]
  refine and_congr_right fun hfin => ?_
  obtain ⟨hfloor, hvalue⟩ := fFloor_exact hfin
  rw [fEq_iff_extUnits, hvalue]
  simp only [not_nan_of_finite hfin, not_nan_of_finite hfloor, true_and]
  omega

/-! ## Odd exponents -/

theorem fAbs_eq (x : Word) : fAbs x = packWord false (magBits x) := by
  apply BitVec.eq_of_toNat_eq
  rw [fAbs, BitVec.toNat_and, toNat_packWord _ (magBits_lt x)]
  exact Nat.and_two_pow_sub_one_eq_mod x.toNat 31

theorem extUnits_fAbs (x : Word) : extUnits (fAbs x) = units x := by
  rw [extUnits_eq, fAbs_eq, signBit_packWord _ (magBits_lt x), magBits_packWord _ (magBits_lt x), ← units_eq]
  rfl

theorem not_nan_fAbs {x : Word} (h : isFinite x = true) : isNaN (fAbs x) = false := by
  rw [fAbs_eq]
  exact not_nan_packWord _ ((finite_iff x).1 h).le

/-- From 2^24 on a value is a whole and even number of ones: its significand has 24 bits. -/
theorem two_pow_dvd_units {x : Word} (h : 2 ^ 173 ≤ units x) : 2 ^ 150 ∣ units x := by
  obtain ⟨s, r, hk, hr, hs⟩ := mag_split (magBits x)
  have hu : units x = r * 2 ^ s := by rw [units_eq, hk, magUnits_scaled hr.le hs]
  rcases Nat.lt_or_ge s 150 with hs150 | hs150
  · have hlt : units x < 2 ^ 24 * 2 ^ 149 := by
      rw [hu]
      exact Nat.mul_lt_mul_of_lt_of_le hr (Nat.pow_le_pow_right two_pos (by omega)) (by positivity)
    omega
  · rw [hu]
    exact Dvd.dvd.mul_left (pow_dvd_pow 2 hs150) r

theorem fLt_fAbs_two24 {e : Word} (h : isFinite e = true) : fLt (fAbs e) Const.two24 = true ↔ units e < 2 ^ 173 := by
  have htwo24 : isNaN Const.two24 = false ∧ extUnits Const.two24 = 2 ^ 173 := by decide +kernel
  rw [fLt_iff_extUnits, extUnits_fAbs, htwo24.1, htwo24.2]
  simp only [not_nan_fAbs h, true_and]
  norm_cast

/-- A whole value below 2^31 is its own truncation. -/
theorem toInt_truncS32_of_whole {e : Word} (hfin : isFinite e = true) (hwhole : extUnits e % 2 ^ 149 = 0)
    (hsmall : units e < 2 ^ 180) : (truncS32 e).toInt = extUnits e / 2 ^ 149 := by
  rw [← natAbs_extUnits] at hsmall
  rw [toInt_truncS32 (not_nan_of_finite hfin), Int.tdiv_eq_ediv_of_dvd (Int.dvd_of_emod_eq_zero hwhole)]
  omega

theorem toNat_mod_two (w : BitVec 32) : (w.toNat % 2 : Int) = w.toInt % 2 := by
  rw [BitVec.toInt_eq_toNat_cond]
  split <;> omega

/-- The parity test of fm_pow is that of the real value: from 2^24 on every value is even. -/
theorem fIsOdd_iff {e : Word} (h : fIsInteger e = true) : fIsOdd e = true ↔ extUnits e / 2 ^ 149 % 2 = 1 := by
  obtain ⟨hfin, hwhole⟩ := (fIsInteger_iff e).1 h
  rw [fIsOdd, h, Bool.true_and, Bool.and_eq_true, fLt_fAbs_two24 hfin, beq_iff_eq]
  rcases Nat.lt_or_ge (units e) (2 ^ 173) with hlt | hge
  · rw [← toInt_truncS32_of_whole hfin hwhole (by omega), ← toNat_mod_two]
    simp only [hlt, true_and]
    norm_cast
  · have heven : 2 ^ 150 ∣ (extUnits e).natAbs := natAbs_extUnits e ▸ two_pow_dvd_units hge
    omega

/-! ## The sign policy -/

theorem powSign_of_not_negative {b : Word} (e r : Word) (h : fLt b Const.zero = false) : powSign b e r = r := by
  simp [powSign, h]

theorem powSign_of_not_whole {b e : Word} (r : Word) (hb : fLt b Const.zero = true)
    (he : ¬ (isFinite e = true ∧ extUnits e % 2 ^ 149 = 0)) : powSign b e r = Const.zero := by
  rw [powSign, if_pos hb, if_neg (he ∘ (fIsInteger_iff e).1)]

theorem powSign_of_whole {b e : Word} (r : Word) (hb : fLt b Const.zero = true)
    (he : isFinite e = true ∧ extUnits e % 2 ^ 149 = 0) :
    powSign b e r = if extUnits e / 2 ^ 149 % 2 = 1 then fNeg r else r := by
  have hint := (fIsInteger_iff e).2 he
  simp only [powSign, hb, hint, fIsOdd_iff hint, if_true]

/-- Settles O26: the tests of fm_pow on the exponent agree with its real value, so the sign policy is the rule's. -/
theorem powerFollowsItsSignPolicyInEveryConfiguration : Obligations.PowerFollowsItsSignPolicyInEveryConfiguration := by
  unfold Obligations.PowerFollowsItsSignPolicyInEveryConfiguration
  refine ⟨fun fm b e => ⟨powSign_of_not_negative e _, powSign_of_not_whole _, fun hb he hodd => ?_, fun hb he heven => ?_⟩,
    encodedBy_of_rowOf 0x14#6 rfl, fun d b e s => fmuBinary_next (fmPow fastMath) d b e s⟩
  · exact (powSign_of_whole _ hb he).trans (if_pos hodd)
  · exact (powSign_of_whole _ hb he).trans (if_neg (by omega))

end Sys2Proof.Proofs
end

section
/-! The reference FastMath configuration against its pseudocode (41_fastmath.md R195 to R199), and the conversions and the
clamp that it names (R200). -/

namespace Sys2Proof.Proofs

open Sys2Proof.Machine Sys2Proof.Safety Sys2Proof.Laws

/-! ## The selections of the pseudocode -/

/-- usesin ? ys : yc (R196, R197). -/
theorem polys_eq (k : BitVec 32) (a : Word) :
    polys (k == 0#32) a = if k = 0#32 then polySin a (fMul a a) else polyCos (fMul a a) := by
  simp [polys]

/-- The fold below √½ adds and subtracts a selected term each time (R198). -/
theorem logFold_eq (m e : Word) :
    logFold m e = (fAdd (fSub m Const.one) (if fLt m Config.FmCoef.sqrthf then m else Const.zero),
      fSub e (if fLt m Config.FmCoef.sqrthf then Const.one else Const.zero)) := by
  rw [logFold]
  split <;> rfl

theorem clampInt_eq (k lo hi : Int) : clampInt k lo hi = if hi < max k lo then hi else if k < lo then lo else k := by
  rw [clampInt]
  split_ifs <;> omega

/-! ## cvtt -/

/-- Division toward zero by the signs of the dividend. -/
theorem tdiv_cases (a : Int) {n : Int} : (0 ≤ a ∧ a.tdiv n = a / n) ∨ (a < 0 ∧ a.tdiv n = -(-a / n)) := by
  rcases le_or_gt 0 a with h | h
  · exact .inl ⟨h, Int.tdiv_eq_ediv_of_nonneg h⟩
  · refine .inr ⟨h, ?_⟩
    rw [← Int.tdiv_eq_ediv_of_nonneg (by omega), Int.neg_tdiv, neg_neg]

theorem nan_or_inf_of_not_finite {x : Word} (h : isFinite x = false) : isNaN x = true ∨ isInf x = true := by
  rw [Bool.eq_false_iff, ne_eq, finite_iff] at h
  rw [nan_iff, inf_iff]
  omega

theorem units_inf {x : Word} (h : isInf x = true) : units x = 2 ^ 277 := by
  rw [units_eq, (inf_iff x).1 h, magUnits_inf]

theorem cvtt_of_large {y : Word} (h : isNaN y = true ∨ 2 ^ 180 ≤ (extUnits y).natAbs) : cvtt y = 0x80000000#32 := by
  rw [cvtt]
  cases hfin : isFinite y
  · rfl
  · have hlarge : 2 ^ 180 ≤ units y := by simpa [not_nan_of_finite hfin, natAbs_extUnits] using h
    rw [if_neg (by decide), if_pos (by omega)]

theorem toInt_cvtt_of_small {y : Word} (hnan : isNaN y = false) (h : (extUnits y).natAbs < 2 ^ 180) :
    (cvtt y).toInt = (extUnits y).tdiv (2 ^ 149) := by
  have hfin : isFinite y = true := by
    by_contra hfin
    rcases nan_or_inf_of_not_finite (by simpa using hfin) with hn | hi
    · simp [hnan] at hn
    · rw [natAbs_extUnits, units_inf hi] at h
      omega
  have hbound : (truncInt y).natAbs < 2 ^ 31 := by
    rw [truncInt_eq hfin]
    rcases tdiv_cases (extUnits y) (n := 2 ^ 149) with ⟨_, hq⟩ | ⟨_, hq⟩ <;> omega
  rw [natAbs_extUnits] at h
  rw [cvtt, hfin, if_neg (by decide), if_neg (by omega), ← truncInt_eq hfin]
  exact BitVec.toInt_ofInt_eq_self (by norm_num) (by omega) (by omega)

/-- cvtt and trunc_s32 part where trunc_s32 saturates upward. -/
theorem cvtt_eq_truncS32_iff (y : Word) : cvtt y = truncS32 y ↔ isNaN y = true ∨ extUnits y < 2 ^ 180 := by
  cases hnan : isNaN y
  · rw [← BitVec.toInt_inj, toInt_truncS32 hnan, or_iff_right Bool.false_ne_true]
    have hdiv := tdiv_cases (extUnits y) (n := 2 ^ 149)
    rcases Nat.lt_or_ge (extUnits y).natAbs (2 ^ 180) with hsmall | hlarge
    · rw [toInt_cvtt_of_small hnan hsmall]
      omega
    · rw [cvtt_of_large (.inr hlarge), show (0x80000000#32).toInt = -2 ^ 31 by decide]
      omega
  · rw [cvtt_of_large (.inl hnan), truncS32, if_pos hnan]
    simp

/-- Settles O24: the model's named parts of the reference, written out, are the pseudocode step by step; cvtt and trunc_s32
are both the truncated value, which they cut to 32 bits differently. -/
theorem referenceSineAndCosineFollowTheirPseudocode : Obligations.ReferenceSineAndCosineFollowTheirPseudocode := by
  unfold Obligations.ReferenceSineAndCosineFollowTheirPseudocode
  refine ⟨fun x => ?_, fun x => ?_, fun x => ?_, fun x => ?_, fun _ => cvtt_of_large, fun _ => toInt_cvtt_of_small,
    cvtt_eq_truncS32_iff, clampInt_eq, fun i j => ⟨BitVec.toInt_add i j, BitVec.toInt_sub⟩⟩
  · simp only [fastMath, refSin, refSinAt, octant, reduceAngle, polys_eq, polySin, polyCos, mulAdd]
  · simp only [fastMath, refCos, refCosAt, octant, reduceAngle, polys_eq, polySin, polyCos, mulAdd]
  · simp only [fastMath, refLog, refLogNormal, logMantissa, logExponent, logFold_eq, logTail, horner, mulAdd, expBits_eq]
  · simp only [fastMath, refExp, refExpAt, expFx, expG, expPoly, horner, mulAdd, scaleTwice, scale, powerOfTwo, clampInt]

end Sys2Proof.Proofs
end

section
/-! The envelope unit (42_envelope.md R245 to R252): evaluation by segment, trigger and off as equations, and the commands
EGTRIG, EGOFF and EGEVAL. -/

namespace Sys2Proof.Proofs

open Sys2Proof.Machine Sys2Proof.Safety Sys2Proof.Laws

/-! ## Evaluation (R245) -/

theorem egEval_of_triggered (fm : FM) {c : EgContext} (t : Word) (h : c.state.triggered = true) :
    egEval fm c t = egEvalTriggered fm c.params c.state t := if_pos h

theorem egEval_of_not_triggered (fm : FM) {c : EgContext} (t : Word) (h : c.state.triggered = false) :
    egEval fm c t = 0x00000000#32 := by simp [egEval, h]

theorem fLt_of_nan_left {t : Word} (h : isNaN t = true) (b : Word) : fLt t b = false := by simp [fLt, h]

/-- A NaN lies before no boundary, so it falls through every segment. -/
theorem egEval_of_nan (fm : FM) (c : EgContext) {t : Word} (h : isNaN t = true) : egEval fm c t = 0x00000000#32 := by
  cases htrig : c.state.triggered
  case false => exact egEval_of_not_triggered fm t htrig
  case true => simp [egEval_of_triggered fm t htrig, egEvalTriggered, fLt_of_nan_left h]

/-! ## EGEVAL (R252) -/

theorem exec_egeval (d : VReg) (c : Ctx) (v : VReg) (s : State) :
    exec (.egeval d c v) s = fmuUnary (egEval fastMath (s.getEg c)) d v s := rfl

/-- Settles O37: EGEVAL applies one function of a lane to every lane, and a triggered context's value is the chain of
segments. -/
theorem evaluationSelectsTheSegmentOfItsTime : Obligations.EvaluationSelectsTheSegmentOfItsTime := by
  unfold Obligations.EvaluationSelectsTheSegmentOfItsTime
  refine ⟨encodedBy_of_rowOf 0x22#6 rfl, fun d c v s => ?_, fun fm c t => ?_, fun fm c _ => egEval_of_nan fm c⟩
  · rw [exec_egeval]
    exact fmuUnary_next _ d v s
  · intro e p line
    cases htrig : e.triggered
    case false => rw [if_pos rfl, egEval_of_not_triggered fm t htrig]
    case true => rw [if_neg (by decide), egEval_of_triggered fm t htrig]; rfl

/-! ## EGOFF (R251) -/

theorem egOff_of_not_triggered (fm : FM) {c : EgContext} (T : Word) (h : c.state.triggered = false) :
    egOff fm c T = c := by simp [egOff, h]

theorem egOff_of_triggered (fm : FM) {c : EgContext} (T : Word) (h : c.state.triggered = true) :
    egOff fm c T = { c with state := { c.state with
      offLevel := egEval fm c T
      tZeroEnd := fMin c.state.tZeroEnd T
      tAttackEnd := fMin c.state.tAttackEnd T
      tDecayEnd := fMin c.state.tDecayEnd T
      tRelease := T
      tOffEnd := fAdd T c.params.releaseSecs } } := if_pos h

/-- Off writes the state registers of its context alone. -/
theorem egOff_writes_state (fm : FM) (c : EgContext) (T : Word) : ∃ e, egOff fm c T = { c with state := e } := by
  cases htrig : c.state.triggered
  case false => exact ⟨c.state, egOff_of_not_triggered fm T htrig⟩
  case true => exact ⟨_, egOff_of_triggered fm T htrig⟩

theorem exec_egoff (c : Ctx) (vt : VReg) (s : State) :
    exec (.egoff c vt) s = finish (s.setEg c (egOff fastMath (s.getEg c) ((s.getV vt).get 0))) := rfl

/-- Settles O36: EGOFF writes the context alone, with the off of the context before. -/
theorem offTruncatesTheEnvelopeAndSchedulesRelease : Obligations.OffTruncatesTheEnvelopeAndSchedulesRelease := by
  unfold Obligations.OffTruncatesTheEnvelopeAndSchedulesRelease
  refine ⟨encodedBy_of_rowOf 0x21#6 rfl, fun c vt s => ?_⟩
  rw [exec_egoff]
  obtain ⟨t, ht, hframe, heg⟩ := finish_setEg s c (egOff fastMath (s.getEg c) ((s.getV vt).get 0))
  exact ⟨t, ht, hframe, fun h => heg.trans (egOff_of_not_triggered _ _ h), fun h => heg.trans (egOff_of_triggered _ _ h)⟩

/-! ## EGTRIG (R246, R250) -/

theorem egTrigger_of_manual (fm : FM) {c : EgContext} (T A : Word) (h : c.autoRelease = false) :
    egTrigger fm c T A = { c with state := trigState fm c T A } := by simp [egTrigger, h]

/-- With AUTO_RELEASE set the trigger ends with an off at its own decay-end, on a context that it has just triggered. -/
theorem egTrigger_of_autoRelease (fm : FM) {c : EgContext} (T A : Word) (h : c.autoRelease = true) :
    egTrigger fm c T A = egOff fm { c with state := trigState fm c T A } (trigState fm c T A).tDecayEnd := if_pos h

/-- A trigger writes the state registers of its context alone, whatever AUTO_RELEASE is. -/
theorem egTrigger_writes_state (fm : FM) (c : EgContext) (T A : Word) :
    ∃ e, egTrigger fm c T A = { c with state := e } := by
  rcases Bool.eq_false_or_eq_true c.autoRelease with hauto | hauto
  · rw [egTrigger_of_autoRelease fm T A hauto]
    exact egOff_writes_state fm { c with state := trigState fm c T A } _
  · exact ⟨_, egTrigger_of_manual fm T A hauto⟩

theorem exec_egtrig (c : Ctx) (vt va : VReg) (s : State) :
    exec (.egtrig c vt va) s =
      finish (s.setEg c (egTrigger fastMath (s.getEg c) ((s.getV vt).get 0) ((s.getV va).get 0))) := rfl

/-- Settles O35: EGTRIG writes the context alone; AUTO_RELEASE decides whether its state is the schedule or an off of it. -/
theorem triggerSchedulesTheEnvelope : Obligations.TriggerSchedulesTheEnvelope := by
  unfold Obligations.TriggerSchedulesTheEnvelope
  refine ⟨encodedBy_of_rowOf 0x20#6 rfl, fun c vt va s => ?_⟩
  rw [exec_egtrig]
  obtain ⟨t, ht, hframe, heg⟩ :=
    finish_setEg s c (egTrigger fastMath (s.getEg c) ((s.getV vt).get 0) ((s.getV va).get 0))
  obtain ⟨e, he⟩ := egTrigger_writes_state fastMath (s.getEg c) ((s.getV vt).get 0) ((s.getV va).get 0)
  refine ⟨t, ht, hframe, by rw [heg, he], by rw [heg, he], fun hauto => ?_, fun hauto => ?_⟩
  · rw [heg, egTrigger_of_manual _ _ _ hauto]
    rfl
  · rw [heg, egTrigger_of_autoRelease _ _ _ hauto, egOff_of_triggered _ _ rfl, hauto]
    rfl

end Sys2Proof.Proofs
end

section
/-! The synthesis kernel (43_synthesis_kernel.md): KCLR (R280), the checks of KRENDER (R282) and its silence fast-path
(R287, R288). -/

namespace Sys2Proof.Proofs

open Sys2Proof.Machine Sys2Proof.Safety Sys2Proof.Laws

/-- A command whose effect is on data memory alone, inside `P`, leaves the rest as it was when it ends. -/
theorem complete_writesOnlyDmem {s t : State} {P : Nat → Prop} (ht : ∃ m, t = { s with dmem := m })
    (hdmem : SameDmemOutside P s t) : WritesOnlyDmem P s t.complete := by
  obtain ⟨m, rfl⟩ := ht
  obtain ⟨hended, hv, heg, hcounters, hparams, hsame, hcmd, hmodel⟩ := complete_frame { s with dmem := m }
  exact ⟨ended_congr rfl rfl rfl ⟨rfl, rfl, rfl⟩ hended, hv, heg, hcounters, hparams,
    fun a ha => (hsame a).trans (hdmem a ha), hcmd, hmodel⟩

/-! ## Clearing OUT -/

theorem clearOut_eq (m : Nat) (s : State) : ∃ mem, clearOut m s = { s with dmem := mem } := by
  induction m with
  | zero => exact ⟨s.dmem, rfl⟩
  | succ m ih =>
    obtain ⟨mem, hmem⟩ := ih
    rw [clearOut, hmem]
    exact ⟨_, rfl⟩

/-- Clearing m words of OUT touches no byte of another word. -/
theorem clearOut_sameDmemOutside (m : Nat) (s : State) :
    SameDmemOutside (fun a => 0x1000 ≤ a ∧ a < 0x1000 + m) s (clearOut m s) := by
  induction m with
  | zero => exact fun _ _ => rfl
  | succ m ih =>
    intro a ha
    rw [clearOut, dmemByte_writeDmem_ne _ _ (by rw [outAddr]; omega), ih a (by omega)]

theorem dmemWord_clearOut (s : State) {m k : Nat} (h : k < m) : (clearOut m s).dmemWord (0x1000 + k) = Const.zero := by
  induction m with
  | zero => omega
  | succ m ih =>
    rw [clearOut]
    rcases Nat.eq_or_lt_of_le (Nat.le_of_lt_succ h) with rfl | hlt
    · exact dmemWord_writeDmem_same _ _ _
    · rw [dmemWord_writeDmem_ne _ _ (by rw [outAddr]; omega), ih hlt]

/-! ## KCLR -/

theorem exec_kclr_of_unset {s : State} (h : s.bufSize = 0#32) :
    exec .kclr s = raise .kclr s .bufsizeUnset 0#32 := if_pos h

theorem exec_kclr_of_set {s : State} (h : s.bufSize ≠ 0#32) :
    exec .kclr s = finish (clearOut (2 * s.bufSize.toNat) s) := if_neg h

theorem legalBufSize_ne_zero {v : Word} (h : LegalBufSize v) : v ≠ 0#32 := by
  rintro rfl
  obtain ⟨-, hpos, -⟩ := h
  exact absurd hpos (by decide)

/-- Settles O44: BUFSIZE decides between the fault and the clearing of OUT, which goes word by word up from OUT[0]. -/
theorem clearZeroesTheBufferOfTheAccumulator : Obligations.ClearZeroesTheBufferOfTheAccumulator := by
  unfold Obligations.ClearZeroesTheBufferOfTheAccumulator
  refine ⟨encodedBy_of_rowOf 0x28#6 rfl, fun s => ⟨fun h => ?_, fun h => ?_⟩⟩
  · rw [exec_kclr_of_unset h]
    exact raise_next _ _ _ _
  · rw [exec_kclr_of_set (legalBufSize_ne_zero h)]
    refine ⟨_, rfl, complete_writesOnlyDmem (clearOut_eq _ s) (clearOut_sameDmemOutside _ s), fun k hk => ?_⟩
    rw [dmemWord_complete]
    exact dmemWord_clearOut s hk

/-! ## The checks of KRENDER -/

theorem exec_krender_of_large {v : BitVec 4} (s : State) (h : 10 ≤ v.toNat) :
    exec (.krender v) s = raise (.krender v) s .badIndex (v.setWidth 32) := dif_neg (Nat.not_lt.2 h)

theorem exec_krender_of_unset {v : BitVec 4} {s : State} (hv : v.toNat < 10) (h : s.bufSize = 0#32) :
    exec (.krender v) s = raise (.krender v) s .bufsizeUnset 0#32 := (dif_pos hv).trans (if_pos h)

theorem exec_krender_of_set (v : Fin 10) {s : State} (h : s.bufSize ≠ 0#32) :
    exec (.krender (BitVec.ofNat 4 v.val)) s = finish (krenderBody fastMath v s) := by
  have hv : (BitVec.ofNat 4 v.val).toNat = v.val := Nat.mod_eq_of_lt (by omega)
  have hlt : (BitVec.ofNat 4 v.val).toNat < Config.maxVV := hv.symm ▸ v.isLt
  calc exec (.krender (BitVec.ofNat 4 v.val)) s
      = finish (krenderBody fastMath ⟨_, hlt⟩ s) := (dif_pos hlt).trans (if_neg h)
    _ = finish (krenderBody fastMath v s) := by rw [show ⟨_, hlt⟩ = v from Fin.ext hv]

/-- Settles O45: the voice number is checked first, then BUFSIZE, and each check that fails raises its fault. -/
theorem renderChecksComeBeforeAnyChange : Obligations.RenderChecksComeBeforeAnyChange := by
  unfold Obligations.RenderChecksComeBeforeAnyChange
  refine ⟨encodedBy_of_rowOf 0x29#6 rfl, fun v s => ⟨fun hv => ?_, fun hv h => ?_⟩⟩
  · rw [exec_krender_of_large s hv]
    exact raise_next _ _ _ _
  · rw [exec_krender_of_unset hv h]
    exact raise_next _ _ _ _

/-! ## The silence fast-path -/

theorem silent_iff (s : State) (v : Fin 10) : silent s v.val = true ↔ Kr.Silent s v := by
  rw [silent, List.all_eq_true]
  simp only [List.mem_range]
  rfl

theorem krenderBody_of_silent (fm : FM) {v : Fin 10} {s : State} (h : Kr.Silent s v) :
    krenderBody fm v s =
      { s with renderCount := s.renderCount + 1#32, fastpathCount := s.fastpathCount + 1#32 } :=
  if_pos ((silent_iff s v).2 h)

/-- Settles O46: the silence test compares the volumes of R287, and past it only the two counters are written. -/
theorem silentRenderOnlyCounts : Obligations.SilentRenderOnlyCounts := by
  unfold Obligations.SilentRenderOnlyCounts
  intro v s hset hsilent
  rw [exec_krender_of_set v hset, krenderBody_of_silent fastMath hsilent]
  obtain ⟨hended, hv, heg, ⟨hovt, hrender, hfast⟩, hparams, hdmem, hcmd, hmodel⟩ :=
    complete_frame { s with renderCount := s.renderCount + 1#32, fastpathCount := s.fastpathCount + 1#32 }
  exact ⟨_, rfl, ended_congr rfl rfl rfl ⟨rfl, rfl, rfl⟩ hended, hrender, hfast, hovt, hv, heg, hparams, hdmem, hcmd,
    hmodel⟩

end Sys2Proof.Proofs
end

section
/-! What a command other than END can do (40_control_and_data_movement.md R150; 60_exceptions.md R332): it either raises its
fault before it changes anything or runs to its end, and which of the two, and with what effect, does not depend on the
index it stands at. -/

namespace Sys2Proof.Proofs

open Sys2Proof.Machine Sys2Proof.Safety Sys2Proof.Laws

/-! ## Effects that have nothing to do with the sequencer -/

/-- `s` with another run state and another index. -/
def withSequencer (r : RunState) (k : BitVec 10) (s : State) : State := { s with runState := r, cp := k }

/-- `f` neither reads nor writes the run state and cp. -/
def CommutesWithSequencer (f : State → State) : Prop :=
  ∀ r k s, f (withSequencer r k s) = withSequencer r k (f s)

theorem CommutesWithSequencer.runState {f : State → State} (hf : CommutesWithSequencer f) (s : State) :
    (f s).runState = s.runState :=
  calc (f s).runState = (withSequencer s.runState s.cp (f s)).runState :=
        congrArg State.runState (hf s.runState s.cp s)
    _ = s.runState := rfl

theorem CommutesWithSequencer.at_index {f : State → State} (hf : CommutesWithSequencer f) (s : State) (k : BitVec 10) :
    f { s with cp := k } = { f s with cp := k } :=
  calc f { s with cp := k } = withSequencer s.runState k (f s) := hf s.runState k s
    _ = withSequencer (f s).runState k (f s) := by rw [hf.runState]
    _ = { f s with cp := k } := rfl

theorem writeDmem_withSequencer (r : RunState) (k : BitVec 10) (s : State) (a : Nat) (w : Word) :
    (withSequencer r k s).writeDmem a w = withSequencer r k (s.writeDmem a w) := rfl

theorem dmemWord_withSequencer (r : RunState) (k : BitVec 10) (s : State) (a : Nat) :
    (withSequencer r k s).dmemWord a = s.dmemWord a := rfl

theorem writeVec_commutes (a : Nat) (v : Lanes) : CommutesWithSequencer (·.writeVec a v) := by
  intro r k s
  simp only [State.writeVec]
  rw [writeDmem_withSequencer, writeDmem_withSequencer, writeDmem_withSequencer, writeDmem_withSequencer]

theorem storeCr_commutes (q : CrName) (v : Word) : CommutesWithSequencer (·.storeCr q v) := by
  intro r k s
  cases q <;> rfl

theorem clearOut_commutes (m : Nat) : CommutesWithSequencer (clearOut m) := by
  intro r k s
  induction m with
  | zero => rfl
  | succ m ih =>
    rw [clearOut, clearOut, ih, writeDmem_withSequencer]

/-! ### KRENDER -/

theorem storeSlot_commutes (c : RenderScalars) (v i : Nat) (acc racc : Word) :
    CommutesWithSequencer (storeSlot c v i acc racc) := by
  intro r k s
  unfold storeSlot
  split
  · rw [writeDmem_withSequencer, writeDmem_withSequencer]
  · rw [writeDmem_withSequencer]

theorem placeOvertone_withSequencer (fm : FM) (c : RenderScalars) (v i : Nat) (fs : List Frame) (r : RunState)
    (k : BitVec 10) (s : State) :
    placeOvertone fm c v i fs (withSequencer r k s) =
      Prod.map id (withSequencer r k) (placeOvertone fm c v i fs s) :=
  Prod.ext rfl (storeSlot_commutes c v i _ _ r k { s with ovtIterCount := s.ovtIterCount + 1#32 })

theorem overtoneLoop_withSequencer (fm : FM) (c : RenderScalars) (v : Nat) (r : RunState) (k : BitVec 10)
    (left i : Nat) (placed : BitVec 32) (fs : List Frame) (s : State) :
    overtoneLoop fm c v left i placed fs (withSequencer r k s) =
      Prod.map id (withSequencer r k) (overtoneLoop fm c v left i placed fs s) := by
  induction left generalizing i placed fs s with
  | zero => rfl
  | succ left ih =>
    unfold overtoneLoop
    split
    · split
      · rw [placeOvertone_withSequencer]
        exact ih _ _ _ _
      · exact ih _ _ _ _
    · rfl

theorem mixFrame_commutes (n : Nat) (f : Frame) : CommutesWithSequencer (mixFrame n f) := by
  intro r k s
  simp only [mixFrame]
  rw [dmemWord_withSequencer, writeDmem_withSequencer, dmemWord_withSequencer, writeDmem_withSequencer]

theorem mixOut_commutes (n : Nat) (fs : List Frame) : CommutesWithSequencer (mixOut n fs) := by
  intro r k s
  induction fs generalizing n s with
  | nil => rfl
  | cons f fs ih => rw [mixOut, mixOut, mixFrame_commutes, ih]

theorem renderVoice_commutes (fm : FM) (v : Fin Config.maxVV) : CommutesWithSequencer (renderVoice fm v) := by
  intro r k s
  have hloop := overtoneLoop_withSequencer fm (renderScalars fm s) v.val r k Config.maxOvertones 0 0#32
    (framesStart fm s v.val (s.noteFreq[v.val]'(v.isLt))) s
  exact (congrArg (fun p => mixOut 0 p.1 p.2) hloop).trans (mixOut_commutes 0 _ r k _)

theorem krenderBody_of_not_silent (fm : FM) {v : Fin 10} {s : State} (h : ¬ Kr.Silent s v) :
    krenderBody fm v s = renderVoice fm v { s with renderCount := s.renderCount + 1#32 } :=
  if_neg (mt (silent_iff s v).1 h)

theorem krenderBody_commutes (fm : FM) (v : Fin 10) : CommutesWithSequencer (krenderBody fm v) := by
  intro r k s
  by_cases h : Kr.Silent s v
  · rw [krenderBody_of_silent fm h, krenderBody_of_silent (s := withSequencer r k s) fm h]
    rfl
  · rw [krenderBody_of_not_silent fm h, krenderBody_of_not_silent (s := withSequencer r k s) fm h]
    exact renderVoice_commutes fm v r k { s with renderCount := s.renderCount + 1#32 }

/-! ## A command raises its fault first or runs to its end (R332) -/

/-- How the command `i` goes in `s`, whatever index it stands at: it raises one fault, or it has one effect, which leaves
the run state and cp alone, and ends. -/
inductive RaisesOrFinishes (i : Instr) (s : State) : Prop where
  | raises (cause : FaultCause) (info : Word)
      (h : ∀ k, exec i { s with cp := k } = raise i { s with cp := k } cause info)
  | finishes (u : State) (hrun : u.runState = s.runState)
      (h : ∀ k, exec i { s with cp := k } = finish { u with cp := k })

theorem RaisesOrFinishes.of_commutes {i : Instr} {s : State} {f : State → State} (hf : CommutesWithSequencer f)
    (h : ∀ k, exec i { s with cp := k } = finish (f { s with cp := k })) : RaisesOrFinishes i s :=
  .finishes (f s) (hf.runState s) fun k => (h k).trans (congrArg finish (hf.at_index s k))

/-- The only register whose value depends on cp is CP_REG. -/
theorem readCr_at_index {q : CrName} (h : q ≠ .cpReg) (s : State) (k : BitVec 10) :
    State.readCr { s with cp := k } q = s.readCr q := by
  cases q
  case cpReg => exact absurd rfl h
  all_goals rfl

theorem crr_raisesOrFinishes {d : VReg} {n : BitVec 12} (hn : n ≠ 0x007#12) (s : State) :
    RaisesOrFinishes (.crr d n) s := by
  cases hq : crOf n with
  | none => exact .raises .badCr (n.setWidth 32) fun k => exec_crr_of_none d _ hq
  | some q =>
    have hcp : q ≠ .cpReg := by
      rintro rfl
      exact hn (BitVec.eq_of_toNat_eq (crOf_num hq).symm)
    refine .finishes (s.setV d (Lanes.splat (s.readCr q))) rfl fun k => ?_
    rw [exec_crr_of_some d _ hq, readCr_at_index hcp]
    rfl

theorem crw_raisesOrFinishes (n : BitVec 12) (v : VReg) (s : State) : RaisesOrFinishes (.crw n v) s := by
  cases hf : crwFault n ((s.getV v).get 0) with
  | some f => exact .raises f.1 f.2 fun k => exec_crw_of_fault hf
  | none =>
    cases hq : crOf n with
    | none => simp [crwFault_of_none _ hq] at hf
    | some q => exact .of_commutes (storeCr_commutes q ((s.getV v).get 0)) fun k => exec_crw_of_store hq hf

theorem krender_raisesOrFinishes (v : BitVec 4) (s : State) : RaisesOrFinishes (.krender v) s := by
  by_cases hv : v.toNat < 10
  · by_cases hb : s.bufSize = 0#32
    · exact .raises .bufsizeUnset 0#32 fun k => exec_krender_of_unset hv hb
    · exact .of_commutes (krenderBody_commutes fastMath ⟨v.toNat, hv⟩) fun k => (dif_pos hv).trans (if_neg hb)
  · exact .raises .badIndex (v.setWidth 32) fun k => exec_krender_of_large _ (Nat.not_lt.1 hv)

/-- Every command but END and the CRR of CP_REG goes the same way at every index. -/
theorem raisesOrFinishes {i : Instr} (hend : i ≠ .endList) (hcp : ∀ d, i ≠ .crr d 0x007#12) (s : State) :
    RaisesOrFinishes i s := by
  cases i with
  | nop => exact .finishes s rfl fun _ => rfl
  | endList => exact absurd rfl hend
  | vlih d imm => exact .finishes (s.setV d (Lanes.splat (immHigh imm))) rfl fun _ => rfl
  | vlil d imm => exact .finishes (s.setV d ((s.getV d).map (immLow imm))) rfl fun _ => rfl
  | vmov d v => exact .finishes (s.setV d (s.getV v)) rfl fun _ => rfl
  | vbcast d v lane =>
    by_cases hl : lane.toNat < Config.lanes
    · exact .finishes (s.setV d (Lanes.splat (laneOf (s.getV v) lane))) rfl fun _ => if_pos hl
    · exact .raises _ _ fun _ => if_neg hl
  | ldv d a =>
    cases ha : addressFault a.toNat with
    | none => exact .finishes (s.setV d (s.readVec a.toNat)) rfl fun _ => exec_ldv_of_storage d _ ha
    | some cause => exact .raises cause (a.setWidth 32) fun _ => exec_ldv_of_fault d _ ha
  | stv v a =>
    cases ha : addressFault a.toNat with
    | none => exact .of_commutes (writeVec_commutes a.toNat (s.getV v)) fun _ => exec_stv_of_storage v _ ha
    | some cause => exact .raises cause (a.setWidth 32) fun _ => exec_stv_of_fault v _ ha
  | crr d n => exact crr_raisesOrFinishes (fun hn => hcp d (hn ▸ rfl)) s
  | crw n v => exact crw_raisesOrFinishes n v s
  | fsin d v => exact .finishes (s.setV d ((s.getV v).map fastMath.sin)) rfl fun _ => rfl
  | fcos d v => exact .finishes (s.setV d ((s.getV v).map fastMath.cos)) rfl fun _ => rfl
  | flog d v => exact .finishes (s.setV d ((s.getV v).map fastMath.log)) rfl fun _ => rfl
  | fexp d v => exact .finishes (s.setV d ((s.getV v).map fastMath.exp)) rfl fun _ => rfl
  | fpow d b e => exact .finishes (s.setV d (Lanes.map2 (fmPow fastMath) (s.getV b) (s.getV e))) rfl fun _ => rfl
  | fsel d m a b =>
    exact .finishes (s.setV d (Lanes.map3 selectBits (s.getV m) (s.getV a) (s.getV b))) rfl fun _ => rfl
  | ffloor d v => exact .finishes (s.setV d ((s.getV v).map fFloor)) rfl fun _ => rfl
  | ffrexpm d v => exact .finishes (s.setV d ((s.getV v).map frexpM)) rfl fun _ => rfl
  | ffrexpe d v => exact .finishes (s.setV d ((s.getV v).map frexpE)) rfl fun _ => rfl
  | fldexp d x n => exact .finishes (s.setV d (Lanes.map2 ldexp (s.getV x) (s.getV n))) rfl fun _ => rfl
  | egtrig c t a =>
    exact .finishes (s.setEg c (egTrigger fastMath (s.getEg c) (s.getV t).l0 (s.getV a).l0)) rfl fun _ => rfl
  | egoff c t => exact .finishes (s.setEg c (egOff fastMath (s.getEg c) (s.getV t).l0)) rfl fun _ => rfl
  | egeval d c t => exact .finishes (s.setV d ((s.getV t).map (egEval fastMath (s.getEg c)))) rfl fun _ => rfl
  | kclr =>
    by_cases hb : s.bufSize = 0#32
    · exact .raises .bufsizeUnset 0#32 fun _ => exec_kclr_of_unset hb
    · exact .of_commutes (clearOut_commutes (2 * s.bufSize.toNat)) fun _ => exec_kclr_of_set hb
  | krender v => exact krender_raisesOrFinishes v s

/-- Everything a command other than END can do: raise a fault in the state it found, or end in a state with the run state
and cp that it found. -/
theorem exec_cases {i : Instr} (hend : i ≠ .endList) (s : State) :
    (∃ cause info, exec i s = raise i s cause info) ∨
    ∃ u, u.runState = s.runState ∧ u.cp = s.cp ∧ exec i s = finish u := by
  by_cases hcp : ∃ d, i = .crr d 0x007#12
  · obtain ⟨d, rfl⟩ := hcp
    exact .inr ⟨s.setV d (Lanes.splat (s.readCr .cpReg)), rfl, rfl, rfl⟩
  · cases raisesOrFinishes hend (not_exists.1 hcp) s with
    | raises cause info h => exact .inl ⟨cause, info, h s.cp⟩
    | finishes u hrun h => exact .inr ⟨{ u with cp := s.cp }, hrun, rfl, h s.cp⟩

end Sys2Proof.Proofs
end

section
/-! Faults and GO (60_exceptions.md R331 to R333, R351). -/

namespace Sys2Proof.Proofs

open Sys2Proof.Machine Sys2Proof.Safety Sys2Proof.Laws

/-! ## Every fault but CP_OVERRUN comes before any effect (R332) -/

theorem encode_of_decode {w : Word} {i : Instr} (h : decode w = .ok i) : encode i = w := by
  obtain ⟨r, hr, hm, rfl⟩ := decode_ok h
  exact encode_build (rowOf_mem hr).1 hm

/-- Ending a command raises no fault but CP_OVERRUN. -/
theorem complete_runState (s : State) :
    s.complete.runState = s.runState ∨ s.complete.runState = .faulted .cpOverrun := by
  by_cases h : s.cp = 1023#10
  · exact .inr (by rw [complete_of_last s h, takeFault_runState])
  · exact .inl (by rw [complete_of_lt s h])

theorem faulted_of_takeFault {s t : State} {cause c : FaultCause} {w info : Word} (ht : s.takeFault cause w info = t)
    (hc : t.runState = .faulted c) : Faulted c w t.faultInfo s t := by
  subst ht
  cases hc
  rfl

theorem rejectWord_eq (s : State) (w : Word) (e : DecodeError) :
    ∃ cause info, rejectWord s w e = s.takeFault cause w info := by
  cases e <;> exact ⟨_, _, rfl⟩

/-- A command that ends FAULTED for another cause than CP_OVERRUN has changed nothing else. -/
theorem faulted_of_exec {i : Instr} {s t : State} {c : FaultCause} (hrun : s.runState = .running)
    (ht : exec i s = .next t) (hc : t.runState = .faulted c) (hne : c ≠ .cpOverrun) :
    Faulted c (encode i) t.faultInfo s t := by
  by_cases hend : i = .endList
  · subst hend
    cases ht
    cases hc
  · obtain ⟨cause, info, hraise⟩ | ⟨u, hurun, -, hfinish⟩ := exec_cases hend s
    · exact faulted_of_takeFault (Host.Outcome.next.inj (hraise.symm.trans ht)) hc
    · obtain rfl : u.complete = t := Host.Outcome.next.inj (hfinish.symm.trans ht)
      obtain h | h := complete_runState u
      · rw [h, hurun, hrun] at hc
        cases hc
      · rw [h] at hc
        cases hc
        exact absurd rfl hne

/-- Settles O11: a rejected word takes its fault in the state it found, and so does a command that raises one; a command
that ends can take CP_OVERRUN alone. -/
theorem faultsLeaveTheRestOfTheStateAlone : Obligations.FaultsLeaveTheRestOfTheStateAlone := by
  unfold Obligations.FaultsLeaveTheRestOfTheStateAlone
  intro s t w c hf ht hc hne
  have ⟨hrun, _⟩ := hf
  cases hd : decode w with
  | error e =>
    obtain ⟨cause, info, hreject⟩ := rejectWord_eq s w e
    rw [step_of_decode_error hf hd, hreject] at ht
    exact faulted_of_takeFault (Host.Outcome.next.inj ht) hc
  | ok i =>
    rw [step_of_decode_ok hf hd] at ht
    exact encode_of_decode hd ▸ faulted_of_exec hrun ht hc hne

/-! ## CP_OVERRUN at index 1023 (R331) -/

/-- A command that runs to its end at an index below 1023 runs to its end at 1023 with the same effect. -/
theorem exec_last_of_exec {i : Instr} {s u : State} {k : BitVec 10} (hend : i ≠ .endList)
    (hcr : ∀ d, i ≠ .crr d 0x007#12) (hcp : s.cp = 1023#10) (hk : k ≠ 1023#10)
    (hu : exec i { s with cp := k } = .next u) (hrun : u.runState = .running) :
    exec i s = .next { u with
      cp := 1023#10
      runState := .faulted .cpOverrun
      faultCp := 1023#32
      faultWord := 0#32
      faultInfo := 1024#32 } := by
  cases raisesOrFinishes hend hcr s with
  | raises cause info h =>
    obtain rfl := Host.Outcome.next.inj ((h k).symm.trans hu)
    cases hrun
  | finishes v _ h =>
    obtain rfl := Host.Outcome.next.inj ((h k).symm.trans hu)
    rw [complete_of_lt _ hk]
    refine (h s.cp).trans ?_
    rw [hcp, finish, complete_of_last _ rfl]
    rfl

theorem exec_last_faults {i : Instr} (hend : i ≠ .endList) {s : State} (hcp : s.cp = 1023#10) :
    ∃ t c, exec i s = .next t ∧ t.runState = .faulted c ∧ t.faultCp = 1023#32 ∧ t.cp = 1023#10 := by
  have hext : s.cp.setWidth 32 = 1023#32 := by rw [hcp]; rfl
  obtain ⟨cause, info, h⟩ | ⟨u, -, hucp, h⟩ := exec_cases hend s
  · exact ⟨_, cause, h, rfl, hext, hcp⟩
  · rw [finish, complete_of_last u (hucp.trans hcp)] at h
    exact ⟨_, .cpOverrun, h, rfl, by rw [takeFault_faultCp, hucp, hext], hucp.trans hcp⟩

/-- Settles O12: a command other than END goes the same way at every index, so at 1023 only the end of the command
differs, and there CP_OVERRUN is taken. -/
theorem cpOverrunKeepsTheEffectsOfTheLastCommand : Obligations.CpOverrunKeepsTheEffectsOfTheLastCommand := by
  unfold Obligations.CpOverrunKeepsTheEffectsOfTheLastCommand
  refine ⟨fun i s hend _ hcp => exec_last_faults hend hcp,
    fun i s u k hend hcr _ hcp hk hu hrun => exec_last_of_exec hend hcr hcp hk hu hrun, fun d s _ hcp => ?_, rfl,
    fun s hcp => ⟨_, exec_endList s, rfl, rfl, hcp⟩⟩
  obtain ⟨t, ht, hframe, -⟩ := exec_crr_of_crRow (n := 0x007#12) d (.cpReg (s := s))
  have ⟨⟨_, _, hlast⟩, _⟩ := hframe
  obtain ⟨-, hfault, -⟩ := hlast (by rw [hcp]; rfl)
  exact ⟨t, ht, hframe, hfault⟩

/-! ## Taking a fault (R333) -/

theorem status_run (s : State) : s.status.getLsbD 0 = s.statusRun := by
  simp only [State.status, BitVec.getLsbD_append]
  simp

theorem status_fault (s : State) : s.status.getLsbD 2 = s.statusFault := by
  simp only [State.status, BitVec.getLsbD_append]
  simp

theorem status_cause (s : State) : s.status.extractLsb' 8 8 = s.statusCause := by
  apply BitVec.eq_of_getLsbD_eq
  intro b hb
  simp only [State.status, BitVec.getLsbD_append, BitVec.getLsbD_extractLsb']
  interval_cases b <;> simp

/-- While nothing runs the host may read and write any aligned word of the port. -/
theorem host_access_of_not_running {s : State} (hr : s.runState ≠ .running) {addr : BitVec 19} (ha : addr.toNat % 4 = 0) :
    (∃ t, hostRead s addr 4 = .next t) ∧ ∀ v, ∃ t, hostWrite s addr 4 v = .next t :=
  ⟨⟨_, portAccess_reaches _ ha (.inl hr)⟩, fun _ => ⟨_, portAccess_reaches _ ha (.inl hr)⟩⟩

theorem hostGo_of_not_idle {s : State} (h : s.runState ≠ .idle) (g : Word) : hostGo s g = s := by
  unfold hostGo
  split
  · contradiction
  · rfl
  · rfl

theorem hostGo_of_idle {s : State} (h : s.runState = .idle) (g : Word) :
    hostGo s g = { s with cp := g.extractLsb' 0 10, done := false, runState := .running } := by
  simp only [hostGo, h]

theorem step_of_faulted {s : State} {c : FaultCause} (hr : s.runState = .faulted c) (hi : s.inputs = []) :
    step s = .next s := by
  simp only [step, stepBody, hi, sequencerStep, hr]

/-- Settles O10: fault entry writes its four fields and STATUS shows them, and a FAULTED machine neither steps nor starts
but answers the host. -/
theorem faultEntrySavesTheCommandAndHalts : Obligations.FaultEntrySavesTheCommandAndHalts := by
  unfold Obligations.FaultEntrySavesTheCommandAndHalts
  intro s k w info
  have hrun := takeFault_runState s k w info
  exact ⟨takeFault_faulted s k w info, status_run _, status_fault _, status_cause _,
    step_of_faulted hrun, hostGo_of_not_idle (by simp),
    fun _ => host_access_of_not_running (by simp)⟩

/-! ## GO (R351) -/

theorem portTarget_go : portTarget 0x60000#19 = .go := by decide

theorem step_of_write {s : State} {addr : BitVec 19} {v : Word} {rest : List HostMove}
    (h : s.inputs = .write addr 4 v :: rest) : step s = hostWrite { s with inputs := rest } addr 4 v := by
  simp only [step, stepBody, h, moveStep]

theorem step_of_read {s : State} {addr : BitVec 19} {rest : List HostMove}
    (h : s.inputs = .read addr 4 :: rest) : step s = hostRead { s with inputs := rest } addr 4 := by
  simp only [step, stepBody, h, moveStep]

theorem portAccess_go (s : State) (k : PortTarget → Result) : portAccess s 0x60000#19 4 k = k .go := by
  rw [portAccess_reaches k (by decide) (.inr (by rw [portTarget_go]; rfl)), portTarget_go]

theorem hostWrite_go (s : State) (g : Word) : hostWrite s 0x60000#19 4 g = .next (hostGo s g) := portAccess_go s _

theorem hostRead_go (s : State) : hostRead s 0x60000#19 4 = .next { s with portData := 0x00000000#32 } :=
  portAccess_go s _

/-- Settles O56: HOST_GO lies outside the windows, so the access is allowed in every run state; a write is a GO and a read
gives 0. -/
theorem goStartsTheSequencerFromIdleAlone : Obligations.GoStartsTheSequencerFromIdleAlone := by
  unfold Obligations.GoStartsTheSequencerFromIdleAlone
  refine ⟨fun s g rest hw hr => ?_, fun s g rest hw hr => ?_, fun s rest hread => ?_⟩
  · rw [step_of_write hw, hostWrite_go, hostGo_of_idle (s := { s with inputs := rest }) hr]
  · rw [step_of_write hw, hostWrite_go, hostGo_of_not_idle (s := { s with inputs := rest }) hr]
  · rw [step_of_read hread, hostRead_go]

end Sys2Proof.Proofs
end

section
/-! Decoding and encoding are inverse to each other (30_encoding.md R121 to R131). -/

namespace Sys2Proof.Proofs

open Sys2Proof.Machine Sys2Proof.Safety Sys2Proof.Laws

/-! ## A field put into a word and read back -/

theorem extractLsb'_put_same {n : Nat} (x : BitVec n) {lo : Nat} (h : lo + n ≤ 32) :
    (x.setWidth 32 <<< lo).extractLsb' lo n = x := by
  apply BitVec.eq_of_getLsbD_eq
  intro i hi
  simp [hi, show lo + i < 32 by omega]

theorem extractLsb'_put_apart {m : Nat} (x : BitVec m) {k lo n : Nat} (h : lo + n ≤ k ∨ k + m ≤ lo) :
    (x.setWidth 32 <<< k).extractLsb' lo n = 0#n := by
  apply BitVec.eq_of_getLsbD_eq
  intro i hi
  rcases h with h | h
  · simp [show lo + i < k by omega]
  · simp [BitVec.getLsbD_of_ge x (lo + i - k) (by omega)]

theorem putImm_eq (v : BitVec 16) : putImm v = v.setWidth 32 <<< 0 := (BitVec.shiftLeft_zero _).symm

theorem putCr_eq (v : BitVec 12) : putCr v = v.setWidth 32 <<< 0 := (BitVec.shiftLeft_zero _).symm

/-! ## Decoding after encoding -/

/-- Each field of the encoding holds its operand, so the row of a command builds the command again. -/
theorem build_encode (i : Instr) {r : OpRow} (hr : rowOf i.op = some r) : r.build (encode i) = i := by
  cases i
  all_goals
    obtain rfl := Option.some.inj hr
    simp (disch := omega) only [encode, Instr.op, operandBits, fieldD, fieldS1, fieldS2, fieldS3, fieldImm, fieldCr,
      fieldCtx, putD, putS1, putS2, putS3, putImm_eq, putCr_eq, putCtx, BitVec.extractLsb'_or, extractLsb'_put_same,
      extractLsb'_put_apart, BitVec.or_zero, BitVec.zero_or]

/-- Every well-formed command encodes to a word of its row. -/
theorem encodesRow : ∀ i, EncodesRow.Statement i
  | .nop => EncodesRow.nop
  | .endList => EncodesRow.endList
  | .vlih _ _ => EncodesRow.vlih _ _
  | .vlil _ _ => EncodesRow.vlil _ _
  | .vmov _ _ => EncodesRow.vmov _ _
  | .vbcast _ _ _ => EncodesRow.vbcast _ _ _
  | .ldv _ _ => EncodesRow.ldv _ _
  | .stv _ _ => EncodesRow.stv _ _
  | .crr _ _ => EncodesRow.crr _ _
  | .crw _ _ => EncodesRow.crw _ _
  | .fsin _ _ => EncodesRow.fsin _ _
  | .fcos _ _ => EncodesRow.fcos _ _
  | .flog _ _ => EncodesRow.flog _ _
  | .fexp _ _ => EncodesRow.fexp _ _
  | .fpow _ _ _ => EncodesRow.fpow _ _ _
  | .fsel _ _ _ _ => EncodesRow.fsel _ _ _ _
  | .ffloor _ _ => EncodesRow.ffloor _ _
  | .ffrexpm _ _ => EncodesRow.ffrexpm _ _
  | .ffrexpe _ _ => EncodesRow.ffrexpe _ _
  | .fldexp _ _ _ => EncodesRow.fldexp _ _ _
  | .egtrig _ _ _ => EncodesRow.egtrig _ _ _
  | .egoff _ _ => EncodesRow.egoff _ _
  | .egeval _ _ _ => EncodesRow.egeval _ _ _
  | .kclr => EncodesRow.kclr
  | .krender _ => EncodesRow.krender _

/-- Settles O1: the encoding lies in its command's row, and the row reads every operand back from its own field. -/
theorem decodeReadsBackEveryEncodedCommand : Obligations.DecodeReadsBackEveryEncodedCommand := by
  unfold Obligations.DecodeReadsBackEveryEncodedCommand
  intro i hwf
  obtain ⟨hop, r, hr, hm⟩ := encodesRow i hwf
  rw [decode_of_row (hop ▸ hr) hm, build_encode i hr]

/-! ## Encoding after decoding -/

/-- The mask of VBCAST covers the two upper bits of the lane field. -/
theorem fieldS2_lt_of_vbcast_mask {w : Word} (h : w &&& 0xFC033FFF#32 = 0x1C000000#32) : (fieldS2 w).toNat < 4 := by
  have hfield : fieldS2 w &&& 0xC#4 = 0#4 := by
    have := congrArg fieldS2 h
    rwa [fieldS2, BitVec.extractLsb'_and] at this
  generalize fieldS2 w = l at hfield ⊢
  revert l
  decide

/-- A row builds a well-formed command from every word under its mask. -/
theorem build_wf : ∀ r ∈ opTable, ∀ w, w &&& r.mask = r.pattern → (r.build w).wf = true := by
  simp [opTable, opRowsMove, opRowsFmu, opRowsUnits, Instr.wf]
  exact fun w => fieldS2_lt_of_vbcast_mask

/-- Settles O2: a row covers every bit of a word by its mask or by an operand field, and its mask holds what no operand
admits. -/
theorem everyDecodedWordIsTheEncodingOfItsCommand : Obligations.EveryDecodedWordIsTheEncodingOfItsCommand := by
  unfold Obligations.EveryDecodedWordIsTheEncodingOfItsCommand
  intro w i h
  obtain ⟨r, hr, hm, rfl⟩ := decode_ok h
  exact ⟨encode_of_decode h, build_wf r (rowOf_mem hr).1 w hm⟩

end Sys2Proof.Proofs
end

section
/-! The four operations of binary32 round the exact result once (00_scope.md R11). -/

namespace Sys2Proof.Proofs

open Sys2Proof.Machine Sys2Proof.Safety Sys2Proof.Laws

/-! ## Words by kind -/

theorem isInf_of_finite {x : Word} (h : isFinite x = true) : isInf x = false := by
  rw [finite_iff] at h
  rw [Bool.eq_false_iff, ne_eq, inf_iff]
  omega

theorem not_nan_of_inf {x : Word} (h : isInf x = true) : isNaN x = false := by
  rw [inf_iff] at h
  rw [Bool.eq_false_iff, ne_eq, nan_iff]
  omega

theorem finite_of_not_nan_of_not_inf {x : Word} (hn : isNaN x = false) (hi : isInf x = false) : isFinite x = true := by
  by_contra h
  rcases nan_or_inf_of_not_finite (by simpa using h) with hn' | hi'
  · simp [hn] at hn'
  · simp [hi] at hi'

theorem signBit_fNeg (x : Word) : signBit (fNeg x) = !signBit x := (fNeg_parts x).1

theorem magBits_fNeg (x : Word) : magBits (fNeg x) = magBits x := (fNeg_parts x).2

theorem isInf_fNeg (x : Word) : isInf (fNeg x) = isInf x := by rw [isInf, magBits_fNeg, isInf]

theorem isNaN_fNeg (x : Word) : isNaN (fNeg x) = isNaN x := by rw [isNaN, magBits_fNeg, isNaN]

theorem isFinite_fNeg (x : Word) : isFinite (fNeg x) = isFinite x := by rw [isFinite, magBits_fNeg, isFinite]

theorem extUnits_fNeg (x : Word) : extUnits (fNeg x) = -extUnits x := by
  rw [extUnits_eq, extUnits_eq, signBit_fNeg, magBits_fNeg]
  cases signBit x <;> simp

theorem extUnits_eq_zero_iff (x : Word) : extUnits x = 0 ↔ isZero x = true := by
  have hmag : magUnits (magBits x) = 0 ↔ magBits x = 0 := magUnits_strictMono.injective.eq_iff (a := magBits x) (b := 0)
  rw [← Int.natAbs_eq_zero, natAbs_extUnits, units_eq, hmag, isZero, beq_iff_eq]

theorem isNaN_defaultNaN : isNaN defaultNaN = true := by decide

theorem isNaN_nanResult (op : ArithOp) (a b : Word) : isNaN (nanResult op a b) = true := by
  unfold nanResult
  split_ifs with _ hbits
  exacts [isNaN_defaultNaN, hbits, isNaN_defaultNaN]

theorem isInf_pack (sg : Bool) : isInf (packWord sg 0x7F800000) = true := by cases sg <;> rfl

theorem isZero_pack (sg : Bool) : isZero (packWord sg 0) = true := by cases sg <;> rfl

theorem signBit_pack_round (sg : Bool) (num den : Nat) : signBit (packWord sg (roundUnits num den)) = sg :=
  signBit_packWord sg (lt31 (roundUnits_le_inf num den))

theorem roundsTo_pack (sg : Bool) (num : Nat) {den : Nat} (h : 0 < den) :
    RoundsTo num den (magBits (packWord sg (roundUnits num den))) := by
  rw [magBits_packWord sg (lt31 (roundUnits_le_inf num den))]
  exact roundUnits_roundsTo num den h

/-! ## What each operation is, by the kind of its operands -/

theorem fAdd_of_numbers {a b : Word} (ha : isNaN a = false) (hb : isNaN b = false) : fAdd a b = addNumbers a b := by
  simp [fAdd, ha, hb]

/-- Subtraction adds the negated operand. -/
theorem fSub_of_numbers {a b : Word} (ha : isNaN a = false) (hb : isNaN b = false) : fSub a b = fAdd a (fNeg b) := by
  simp [fSub, fAdd, ha, hb, isNaN_fNeg]

theorem fAdd_of_finite {a b : Word} (ha : isFinite a = true) (hb : isFinite b = true) : fAdd a b = addFinite a b := by
  simp [fAdd_of_numbers (not_nan_of_finite ha) (not_nan_of_finite hb), addNumbers, isInf_of_finite ha, isInf_of_finite hb]

theorem fMul_of_finite {a b : Word} (ha : isFinite a = true) (hb : isFinite b = true) :
    fMul a b = packWord (signBit a != signBit b) (roundUnits (units a * units b) (2 ^ 149)) := by
  simp [fMul, not_nan_of_finite ha, not_nan_of_finite hb, isInf_of_finite ha, isInf_of_finite hb]

theorem fDiv_of_finite {a b : Word} (ha : isFinite a = true) (hb : isFinite b = true) (h0 : isZero b = false) :
    fDiv a b = packWord (signBit a != signBit b) (roundUnits (units a * 2 ^ 149) (units b)) := by
  simp [fDiv, not_nan_of_finite ha, not_nan_of_finite hb, isInf_of_finite ha, isInf_of_finite hb, h0]

/-! ## Finite operands -/

theorem addFinite_rounds {a b : Word} (ha : isFinite a = true) (hb : isFinite b = true) :
    RoundsTo (extUnits a + extUnits b).natAbs 1 (magBits (addFinite a b)) ∧
    signBit (addFinite a b) =
      (if extUnits a + extUnits b = 0 then signBit a && signBit b else decide (extUnits a + extUnits b < 0)) := by
  rw [addFinite, ← extUnits_finite ha, ← extUnits_finite hb]
  split
  · next h =>
    rw [h, magBits_packWord _ (by norm_num), signBit_packWord _ (by norm_num), Int.natAbs_zero]
    exact ⟨roundUnits_zero 1 ▸ roundUnits_roundsTo 0 1 one_pos, rfl⟩
  · exact ⟨roundsTo_pack _ _ one_pos, signBit_pack_round _ _ _⟩

theorem fAdd_rounds {a b : Word} (ha : isFinite a = true) (hb : isFinite b = true) :
    RoundsTo (extUnits a + extUnits b).natAbs 1 (magBits (fAdd a b)) ∧
    signBit (fAdd a b) =
      (if extUnits a + extUnits b = 0 then signBit a && signBit b else decide (extUnits a + extUnits b < 0)) :=
  fAdd_of_finite ha hb ▸ addFinite_rounds ha hb

theorem fSub_rounds {a b : Word} (ha : isFinite a = true) (hb : isFinite b = true) :
    RoundsTo (extUnits a - extUnits b).natAbs 1 (magBits (fSub a b)) ∧
    signBit (fSub a b) =
      (if extUnits a - extUnits b = 0 then signBit a && !signBit b else decide (extUnits a - extUnits b < 0)) := by
  rw [fSub_of_numbers (not_nan_of_finite ha) (not_nan_of_finite hb), sub_eq_add_neg, ← extUnits_fNeg, ← signBit_fNeg]
  exact fAdd_rounds ha ((isFinite_fNeg b).trans hb)

theorem fMul_rounds {a b : Word} (ha : isFinite a = true) (hb : isFinite b = true) :
    RoundsTo (extUnits a * extUnits b).natAbs (2 ^ 149) (magBits (fMul a b)) ∧
    signBit (fMul a b) = (signBit a != signBit b) := by
  rw [fMul_of_finite ha hb, Int.natAbs_mul, natAbs_extUnits, natAbs_extUnits]
  exact ⟨roundsTo_pack _ _ (by positivity), signBit_pack_round _ _ _⟩

theorem fDiv_rounds {a b : Word} (ha : isFinite a = true) (hb : isFinite b = true) (h0 : extUnits b ≠ 0) :
    RoundsTo ((extUnits a).natAbs * 2 ^ 149) (extUnits b).natAbs (magBits (fDiv a b)) ∧
    signBit (fDiv a b) = (signBit a != signBit b) := by
  have hzero : isZero b = false := by simpa [extUnits_eq_zero_iff] using h0
  have hpos : 0 < units b := by rw [← natAbs_extUnits]; exact Int.natAbs_pos.2 h0
  rw [fDiv_of_finite ha hb hzero, natAbs_extUnits, natAbs_extUnits]
  exact ⟨roundsTo_pack _ _ hpos, signBit_pack_round _ _ _⟩

/-! ## NaNs and infinities -/

theorem operations_of_nan {a b : Word} (h : isNaN a = true ∨ isNaN b = true) :
    isNaN (fAdd a b) = true ∧ isNaN (fSub a b) = true ∧ isNaN (fMul a b) = true ∧ isNaN (fDiv a b) = true := by
  have hor : (isNaN a || isNaN b) = true := by simpa using h
  simp only [fAdd, fSub, fMul, fDiv, hor, if_true, isNaN_nanResult, and_self]

theorem fAdd_inf_opposite {a b : Word} (ha : isInf a = true) (hb : isInf b = true) (hs : signBit b ≠ signBit a) :
    isNaN (fAdd a b) = true := by
  rw [fAdd_of_numbers (not_nan_of_inf ha) (not_nan_of_inf hb), addNumbers, if_pos ha, if_pos (by simp [hb, hs.symm])]
  exact isNaN_defaultNaN

theorem fAdd_inf_left {a b : Word} (ha : isInf a = true) (hb : isNaN b = false)
    (h : isInf b = false ∨ signBit b = signBit a) : fAdd a b = a := by
  rw [fAdd_of_numbers (not_nan_of_inf ha) hb, addNumbers, if_pos ha, if_neg (by rcases h with h | h <;> simp [h])]

theorem fAdd_inf_right {a b : Word} (ha : isFinite a = true) (hb : isInf b = true) : fAdd a b = b := by
  rw [fAdd_of_numbers (not_nan_of_finite ha) (not_nan_of_inf hb), addNumbers, isInf_of_finite ha, if_pos hb]
  rfl

/-- Addition and subtraction of an infinity. -/
theorem sums_of_inf_left {a b : Word} (ha : isInf a = true) (hb : isNaN b = false) :
    (isInf b = true ∧ signBit b ≠ signBit a → isNaN (fAdd a b) = true) ∧
    (isInf b = false ∨ signBit b = signBit a → fAdd a b = a) ∧
    (isInf b = true ∧ signBit b = signBit a → isNaN (fSub a b) = true) ∧
    (isInf b = false ∨ signBit b ≠ signBit a → fSub a b = a) := by
  rw [fSub_of_numbers (not_nan_of_inf ha) hb]
  refine ⟨fun ⟨hi, hs⟩ => fAdd_inf_opposite ha hi hs, fAdd_inf_left ha hb, fun ⟨hi, hs⟩ => ?_, fun h => ?_⟩
  · exact fAdd_inf_opposite ha ((isInf_fNeg b).trans hi) (by simp [signBit_fNeg, hs])
  · refine fAdd_inf_left ha ((isNaN_fNeg b).trans hb) ?_
    rw [isInf_fNeg, signBit_fNeg]
    exact h.imp_right fun hs => by cases hsb : signBit b <;> simp_all

theorem sums_of_inf_right {a b : Word} (ha : isFinite a = true) (hb : isInf b = true) :
    fAdd a b = b ∧ fSub a b = fNeg b := by
  rw [fSub_of_numbers (not_nan_of_finite ha) (not_nan_of_inf hb)]
  exact ⟨fAdd_inf_right ha hb, fAdd_inf_right ha ((isInf_fNeg b).trans hb)⟩

theorem fMul_of_inf {a b : Word} (ha : isNaN a = false) (hb : isNaN b = false) (h : isInf a = true ∨ isInf b = true) :
    (extUnits a = 0 ∨ extUnits b = 0 → isNaN (fMul a b) = true) ∧
    (extUnits a ≠ 0 → extUnits b ≠ 0 → isInf (fMul a b) = true ∧ signBit (fMul a b) = (signBit a != signBit b)) := by
  have hmul : fMul a b =
      if isZero a || isZero b then defaultNaN else packWord (signBit a != signBit b) 0x7F800000 := by
    simp [fMul, ha, hb, h]
  rw [hmul, ne_eq, ne_eq, extUnits_eq_zero_iff, extUnits_eq_zero_iff]
  refine ⟨fun hz => ?_, fun hza hzb => ?_⟩
  · rw [if_pos (by simpa using hz)]
    exact isNaN_defaultNaN
  · rw [if_neg (by simp [hza, hzb])]
    exact ⟨isInf_pack _, signBit_packWord _ (by norm_num)⟩

theorem fDiv_inf_inf {a b : Word} (ha : isInf a = true) (hb : isInf b = true) : isNaN (fDiv a b) = true := by
  simp [fDiv, not_nan_of_inf ha, not_nan_of_inf hb, ha, hb, isNaN_defaultNaN]

theorem fDiv_inf_finite {a b : Word} (ha : isInf a = true) (hb : isFinite b = true) :
    isInf (fDiv a b) = true ∧ signBit (fDiv a b) = (signBit a != signBit b) := by
  have hdiv : fDiv a b = packWord (signBit a != signBit b) 0x7F800000 := by
    simp [fDiv, not_nan_of_inf ha, not_nan_of_finite hb, ha, isInf_of_finite hb]
  rw [hdiv]
  exact ⟨isInf_pack _, signBit_packWord _ (by norm_num)⟩

theorem fDiv_finite_inf {a b : Word} (ha : isFinite a = true) (hb : isInf b = true) :
    isZero (fDiv a b) = true ∧ signBit (fDiv a b) = (signBit a != signBit b) := by
  have hdiv : fDiv a b = packWord (signBit a != signBit b) 0 := by
    simp [fDiv, not_nan_of_finite ha, not_nan_of_inf hb, isInf_of_finite ha, hb]
  rw [hdiv]
  exact ⟨isZero_pack _, signBit_packWord _ (by norm_num)⟩

theorem fDiv_by_zero {a b : Word} (ha : isFinite a = true) (h0 : extUnits b = 0) (hb : isNaN b = false) :
    (extUnits a ≠ 0 → isInf (fDiv a b) = true ∧ signBit (fDiv a b) = (signBit a != signBit b)) ∧
    (extUnits a = 0 → isNaN (fDiv a b) = true) := by
  have hz : isZero b = true := (extUnits_eq_zero_iff b).1 h0
  have hinf : isInf b = false := by
    rw [isZero, beq_iff_eq] at hz
    rw [isInf, hz]
    rfl
  have hdiv : fDiv a b = if isZero a then defaultNaN else packWord (signBit a != signBit b) 0x7F800000 := by
    simp [fDiv, not_nan_of_finite ha, hb, isInf_of_finite ha, hinf, hz]
  rw [hdiv, ne_eq, extUnits_eq_zero_iff]
  refine ⟨fun hza => ?_, fun hza => ?_⟩
  · rw [if_neg hza]
    exact ⟨isInf_pack _, signBit_packWord _ (by norm_num)⟩
  · rw [if_pos hza]
    exact isNaN_defaultNaN

/-- Settles O32: each operation on finite words packs its sign with one rounding of the exact result, and subtraction is
addition of the negated word; every other case is a branch of the operation's definition. -/
theorem everyOperationRoundsOnceToNearestEven : Obligations.EveryOperationRoundsOnceToNearestEven := by
  unfold Obligations.EveryOperationRoundsOnceToNearestEven
  exact ⟨fun _ _ => fAdd_rounds, fun _ _ => fSub_rounds, fun _ _ => fMul_rounds, fun _ _ => fDiv_rounds,
    fun _ _ => operations_of_nan, fun _ _ => sums_of_inf_left, fun _ _ => sums_of_inf_right, fun _ _ => fMul_of_inf,
    fun _ _ => fDiv_inf_inf, fun _ _ => fDiv_inf_finite, fun _ _ => fDiv_finite_inf, fun _ _ => fDiv_by_zero⟩

end Sys2Proof.Proofs
end

section
/-! The commands that store into data memory, as chains of single stores (20_memory.md R96; 43_synthesis_kernel.md R280,
R281): what every store of a chain keeps, the chain keeps. -/

namespace Sys2Proof.Proofs

open Sys2Proof.Machine Sys2Proof.Safety Sys2Proof.Laws

/-- `t` comes from `s` by stores of words `w` at word addresses `a` with `P a w`, and by changes of the event counters. -/
inductive Stores (P : Nat → Word → Prop) (s : State) : State → Prop where
  | refl : Stores P s s
  | store {t : State} (h : Stores P s t) {a : Nat} {w : Word} (hP : P a w) : Stores P s (t.writeDmem a w)
  | count {t : State} (h : Stores P s t) (o r f : Word) :
      Stores P s { t with ovtIterCount := o, renderCount := r, fastpathCount := f }

namespace Stores

variable {P : Nat → Word → Prop} {s t u : State}

theorem trans (h : Stores P s t) (h' : Stores P t u) : Stores P s u := by
  induction h' with
  | refl => exact h
  | store _ hP ih => exact ih.store hP
  | count _ o r f ih => exact ih.count o r f

theorem mono {Q : Nat → Word → Prop} (h : Stores P s t) (hPQ : ∀ a w, P a w → Q a w) : Stores Q s t := by
  induction h with
  | refl => exact .refl
  | store _ hP ih => exact ih.store (hPQ _ _ hP)
  | count _ o r f ih => exact ih.count o r f

/-- Nothing but data memory and the event counters changes. -/
theorem eq_with (h : Stores P s t) :
    ∃ m o r f, t = { s with dmem := m, ovtIterCount := o, renderCount := r, fastpathCount := f } := by
  induction h with
  | refl => exact ⟨s.dmem, s.ovtIterCount, s.renderCount, s.fastpathCount, rfl⟩
  | store _ _ ih =>
    obtain ⟨m, o, r, f, rfl⟩ := ih
    exact ⟨_, o, r, f, rfl⟩
  | count _ o r f ih =>
    obtain ⟨m, _, _, _, rfl⟩ := ih
    exact ⟨m, o, r, f, rfl⟩

/-- The bytes of a word that no store names stay. -/
theorem sameDmemOutside {W : Nat → Prop} (h : Stores P s t) (hW : ∀ a w, P a w → W a) : SameDmemOutside W s t := by
  induction h with
  | refl => exact fun _ _ => rfl
  | store _ hP ih =>
    intro x hx
    rw [dmemByte_writeDmem_ne _ _ fun e => hx (e ▸ hW _ _ hP), ih x hx]
  | count _ _ _ _ ih => exact ih

/-- Stores outside the reserved ranges keep the canonical form of data memory. -/
theorem dmem_wf (h : Stores P s t) (hres : ∀ a w, P a w → dmemReserved a = false) (hs : Memory.wf .dmem s.dmem = true) :
    Memory.wf .dmem t.dmem = true := by
  induction h with
  | refl => exact hs
  | store _ hP ih => exact writeDmem_wf _ _ _ ih (hres _ _ hP)
  | count _ _ _ _ ih => exact ih

/-- A word of data memory is the one it was or one that was stored there. -/
theorem dmemWord_cases (h : Stores P s t) (a : Nat) : t.dmemWord a = s.dmemWord a ∨ P a (t.dmemWord a) := by
  induction h with
  | refl => exact .inl rfl
  | @store t _ b w hP ih =>
    rcases eq_or_ne a b with rfl | hne
    · exact .inr (by rwa [dmemWord_writeDmem_same])
    · rwa [dmemWord_writeDmem_ne t w hne]
  | count _ _ _ _ ih => exact ih

end Stores

/-! ## STV and KCLR -/

theorem writeVec_stores (s : State) (a : Nat) (v : Lanes) :
    Stores (fun x _ => a ≤ x ∧ x < a + 4) s (s.writeVec a v) :=
  (((Stores.refl.store (by omega)).store (by omega)).store (by omega)).store (by omega)

theorem clearOut_stores (m : Nat) (s : State) : Stores (fun x _ => 0x1000 ≤ x ∧ x < 0x1000 + m) s (clearOut m s) := by
  suffices h : ∀ k ≤ m, Stores (fun x _ => 0x1000 ≤ x ∧ x < 0x1000 + m) s (clearOut k s) from h m le_rfl
  intro k hk
  induction k with
  | zero => exact .refl
  | succ k ih => exact (ih (by omega)).store (by rw [outAddr]; omega)

/-! ## KRENDER -/

/-- What KRENDER of voice v stores with N frames: samples into OUT, wrapped phases into the voice's overtone state. -/
def RenderStores (N v : Nat) (a : Nat) (w : Word) : Prop :=
  (0x1000 ≤ a ∧ a < 0x1000 + 2 * N) ∨
  (0xC000 + 1200 * v ≤ a ∧ a < 0xC000 + 1200 * v + 1200 ∧ ∃ x, w = wrapPhase x)

theorem renderStores_ph (N v : Nat) {i : Nat} (hi : i < 600) (x : Word) :
    RenderStores N v (phAddr v i) (wrapPhase x) :=
  .inr ⟨by simp only [phAddr, Config.maxOvertones]; omega, by simp only [phAddr, Config.maxOvertones]; omega, x, rfl⟩

theorem renderStores_rm (N v : Nat) {i : Nat} (hi : i < 600) (x : Word) :
    RenderStores N v (rmAddr v i) (wrapPhase x) :=
  .inr ⟨by simp only [rmAddr, Config.maxOvertones]; omega, by simp only [rmAddr, Config.maxOvertones]; omega, x, rfl⟩

theorem renderStores_out {N k : Nat} (v : Nat) (hk : k < 2 * N) (w : Word) : RenderStores N v (outAddr k) w :=
  .inl (by rw [outAddr]; omega)

theorem storeSlot_stores (c : RenderScalars) (N v : Nat) {i : Nat} (hi : i < 600) (acc racc : Word) (s : State) :
    Stores (RenderStores N v) s (storeSlot c v i acc racc s) := by
  unfold storeSlot
  split
  · exact (Stores.refl.store (renderStores_ph N v hi acc)).store (renderStores_rm N v hi racc)
  · exact Stores.refl.store (renderStores_ph N v hi acc)

theorem placeOvertone_stores (fm : FM) (c : RenderScalars) (N v : Nat) {i : Nat} (hi : i < 600) (fs : List Frame)
    (s : State) : Stores (RenderStores N v) s (placeOvertone fm c v i fs s).2 :=
  (Stores.refl.count (s.ovtIterCount + 1#32) s.renderCount s.fastpathCount).trans (storeSlot_stores c N v hi _ _ _)

theorem overtoneLoop_stores (fm : FM) (c : RenderScalars) (N v : Nat) {left i : Nat} (hi : i + left ≤ 600)
    (placed : BitVec 32) (fs : List Frame) (s : State) :
    Stores (RenderStores N v) s (overtoneLoop fm c v left i placed fs s).2 := by
  induction left generalizing i placed fs s with
  | zero => exact .refl
  | succ left ih =>
    unfold overtoneLoop
    split
    · split
      · exact (placeOvertone_stores fm c N v (by omega) fs s).trans (ih (by omega) _ _ _)
      · exact ih (by omega) _ _ _
    · exact .refl

theorem length_framesAfter (fm : FM) (c : RenderScalars) (o : Overtone) (fs : List Frame) (acc racc : Word) :
    (framesAfter fm c o fs acc racc).length = fs.length := by
  induction fs generalizing acc racc with
  | nil => rfl
  | cons f fs ih => simp [framesAfter, ih]

theorem length_overtoneLoop (fm : FM) (c : RenderScalars) (v left i : Nat) (placed : BitVec 32) (fs : List Frame)
    (s : State) : (overtoneLoop fm c v left i placed fs s).1.length = fs.length := by
  induction left generalizing i placed fs s with
  | zero => rfl
  | succ left ih =>
    unfold overtoneLoop
    split
    · split
      · rw [ih, placeOvertone, length_framesAfter]
      · exact ih _ _ _ _
    · rfl

theorem mixFrame_stores {N n : Nat} (v : Nat) (hn : n < N) (f : Frame) (s : State) :
    Stores (RenderStores N v) s (mixFrame n f s) :=
  (Stores.refl.store (renderStores_out v (by omega) _)).store (renderStores_out v (by omega) _)

theorem mixOut_stores {N n : Nat} (v : Nat) {fs : List Frame} (hn : n + fs.length ≤ N) (s : State) :
    Stores (RenderStores N v) s (mixOut n fs s) := by
  induction fs generalizing n s with
  | nil => exact .refl
  | cons f fs ih =>
    rw [List.length_cons] at hn
    exact (mixFrame_stores v (by omega) f s).trans (ih (by omega) _)

theorem length_framesStart (fm : FM) (s : State) (v : Nat) (noteFreq : Word) :
    (framesStart fm s v noteFreq).length = s.bufSize.toNat := by
  rw [framesStart, List.length_map, List.length_range, State.frames]

theorem renderVoice_stores (fm : FM) (v : Fin 10) (s : State) :
    Stores (RenderStores s.bufSize.toNat v.val) s (renderVoice fm v s) := by
  have hloop := overtoneLoop_stores fm (renderScalars fm s) s.bufSize.toNat v.val (left := Config.maxOvertones) (i := 0)
    (by simp) 0#32 (framesStart fm s v.val (s.noteFreq[v.val]'(v.isLt))) s
  have hlen := length_overtoneLoop fm (renderScalars fm s) v.val Config.maxOvertones 0 0#32
    (framesStart fm s v.val (s.noteFreq[v.val]'(v.isLt))) s
  rw [length_framesStart] at hlen
  exact hloop.trans (mixOut_stores v.val (by rw [hlen, Nat.zero_add]) _)

theorem krenderBody_stores (fm : FM) (v : Fin 10) (s : State) :
    Stores (RenderStores s.bufSize.toNat v.val) s (krenderBody fm v s) := by
  by_cases h : Kr.Silent s v
  · rw [krenderBody_of_silent fm h]
    exact Stores.refl.count s.ovtIterCount _ _
  · rw [krenderBody_of_not_silent fm h]
    have hcount : Stores (RenderStores s.bufSize.toNat v.val) s { s with renderCount := s.renderCount + 1#32 } :=
      Stores.refl.count s.ovtIterCount _ s.fastpathCount
    exact hcount.trans (renderVoice_stores fm v { s with renderCount := s.renderCount + 1#32 })

end Sys2Proof.Proofs
end

section
/-! What one step of the machine can do (40_control_and_data_movement.md R150; 60_exceptions.md R330 to R334; log 6): the
faults that a command raises, the effects that a command has, and the moves that a step is. Every invariant is read off
these. -/

namespace Sys2Proof.Proofs

open Sys2Proof.Machine Sys2Proof.Safety Sys2Proof.Laws

/-! ## Commands -/

/-- The faults that a command raises (60_exceptions.md R330): the command, the cause and FAULT_INFO. -/
inductive Raises (s : State) : Instr → FaultCause → Word → Prop where
  | lane (d v : VReg) {lane : BitVec 4} (h : ¬ lane.toNat < Config.lanes) :
      Raises s (.vbcast d v lane) .reservedField (putS2 lane &&& 0x00030000#32)
  | load (d : VReg) {a : BitVec 16} {cause : FaultCause} (h : addressFault a.toNat = some cause) :
      Raises s (.ldv d a) cause (a.setWidth 32)
  | store (v : VReg) {a : BitVec 16} {cause : FaultCause} (h : addressFault a.toNat = some cause) :
      Raises s (.stv v a) cause (a.setWidth 32)
  | readCr (d : VReg) {n : BitVec 12} (h : crOf n = none) : Raises s (.crr d n) .badCr (n.setWidth 32)
  | writeCr {n : BitVec 12} {v : VReg} {cause : FaultCause} {info : Word}
      (h : crwFault n ((s.getV v).get 0) = some (cause, info)) : Raises s (.crw n v) cause info
  | clear (h : s.bufSize = 0#32) : Raises s .kclr .bufsizeUnset 0#32
  | renderUnset {v : BitVec 4} (hv : v.toNat < 10) (h : s.bufSize = 0#32) : Raises s (.krender v) .bufsizeUnset 0#32
  | renderIndex {v : BitVec 4} (hv : 10 ≤ v.toNat) : Raises s (.krender v) .badIndex (v.setWidth 32)

/-- The effects that a command has before it ends. -/
inductive Effect (s : State) : Instr → State → Prop where
  | nop : Effect s .nop s
  | register (i : Instr) (d : VReg) (v : Lanes) : Effect s i (s.setV d v)
  | trigger (c : Ctx) (t a : VReg) :
      Effect s (.egtrig c t a) (s.setEg c (egTrigger fastMath (s.getEg c) ((s.getV t).get 0) ((s.getV a).get 0)))
  | off (c : Ctx) (t : VReg) :
      Effect s (.egoff c t) (s.setEg c (egOff fastMath (s.getEg c) ((s.getV t).get 0)))
  | store (v : VReg) {a : BitVec 16} (h : addressFault a.toNat = none) :
      Effect s (.stv v a) (s.writeVec a.toNat (s.getV v))
  | writeCr {n : BitVec 12} {v : VReg} {q : CrName} (hq : crOf n = some q)
      (h : crwFault n ((s.getV v).get 0) = none) : Effect s (.crw n v) (s.storeCr q ((s.getV v).get 0))
  | clear (h : s.bufSize ≠ 0#32) : Effect s .kclr (clearOut (2 * s.bufSize.toNat) s)
  | render {v : BitVec 4} (hv : v.toNat < 10) (h : s.bufSize ≠ 0#32) :
      Effect s (.krender v) (krenderBody fastMath ⟨v.toNat, hv⟩ s)

theorem eq_bufSize_of_access {q : CrName} (h : q.access = .legalOnly) : q = .bufSize := by
  cases q with
  | bufSize => rfl
  | _ => cases h

/-- The faults of a CRW (60_exceptions.md R334), by what the number names. -/
theorem crwFault_cases {n : BitVec 12} {v info : Word} {cause : FaultCause} (h : crwFault n v = some (cause, info)) :
    (crOf n = none ∧ cause = .badCr ∧ info = n.setWidth 32) ∨
    (∃ q, crOf n = some q ∧ q.access = .ro ∧ cause = .roWrite ∧ info = n.setWidth 32) ∨
    (crOf n = some .bufSize ∧ ¬ LegalBufSize v ∧ cause = .badValue ∧ info = v) := by
  cases hq : crOf n with
  | none =>
    rw [crwFault_of_none v hq] at h
    cases h
    exact .inl ⟨rfl, rfl, rfl⟩
  | some q =>
    cases hacc : q.access with
    | ro =>
      rw [crwFault_of_ro v hq hacc] at h
      cases h
      exact .inr (.inl ⟨q, rfl, hacc, rfl, rfl⟩)
    | rw =>
      rw [crwFault_of_rw v hq hacc] at h
      cases h
    | warl =>
      rw [crwFault_of_warl v hq hacc] at h
      cases h
    | legalOnly =>
      obtain rfl := eq_bufSize_of_access hacc
      obtain rfl : n = 0x011#12 := BitVec.eq_of_toNat_eq (crOf_num hq).symm
      by_cases hl : LegalBufSize v
      · rw [crwFault_bufSize_of_legal hl] at h
        cases h
      · rw [crwFault_bufSize_of_illegal hl] at h
        cases h
        exact .inr (.inr ⟨rfl, hl, rfl, rfl⟩)

/-- How a command goes: END, a fault in the state it found, or an effect and then the end of the command. -/
inductive Runs (s t : State) : Instr → Prop where
  | ends (h : t = { s with runState := .idle, done := true }) : Runs s t .endList
  | raises {i : Instr} {cause : FaultCause} {info : Word} (hr : Raises s i cause info)
      (h : t = s.takeFault cause (encode i) info) : Runs s t i
  | finishes {i : Instr} {u : State} (he : Effect s i u) (h : t = u.complete) : Runs s t i

theorem runs_of_raise {i : Instr} {s : State} {cause : FaultCause} {info : Word} (hr : Raises s i cause info)
    (h : exec i s = raise i s cause info) : ∃ t, exec i s = .next t ∧ Runs s t i := ⟨_, h, .raises hr rfl⟩

theorem runs_of_finish {i : Instr} {s u : State} (he : Effect s i u) (h : exec i s = finish u) :
    ∃ t, exec i s = .next t ∧ Runs s t i := ⟨_, h, .finishes he rfl⟩

theorem crr_runs (d : VReg) (n : BitVec 12) (s : State) : ∃ t, exec (.crr d n) s = .next t ∧ Runs s t (.crr d n) := by
  cases hq : crOf n with
  | none => exact runs_of_raise (.readCr d hq) (exec_crr_of_none d s hq)
  | some q => exact runs_of_finish (.register _ d _) (exec_crr_of_some d s hq)

theorem crw_runs (n : BitVec 12) (v : VReg) (s : State) : ∃ t, exec (.crw n v) s = .next t ∧ Runs s t (.crw n v) := by
  cases hf : crwFault n ((s.getV v).get 0) with
  | some f => exact runs_of_raise (.writeCr hf) (exec_crw_of_fault hf)
  | none =>
    cases hq : crOf n with
    | none => simp [crwFault_of_none _ hq] at hf
    | some q => exact runs_of_finish (.writeCr hq hf) (exec_crw_of_store hq hf)

theorem krender_runs (v : BitVec 4) (s : State) : ∃ t, exec (.krender v) s = .next t ∧ Runs s t (.krender v) := by
  by_cases hv : v.toNat < 10
  · by_cases hb : s.bufSize = 0#32
    · exact runs_of_raise (.renderUnset hv hb) (exec_krender_of_unset hv hb)
    · exact runs_of_finish (.render hv hb) ((dif_pos hv).trans (if_neg hb))
  · exact runs_of_raise (.renderIndex (Nat.not_lt.1 hv)) (exec_krender_of_large _ (Nat.not_lt.1 hv))

/-- Every command answers a next state, and this is one of these. -/
theorem exec_runs (i : Instr) (s : State) : ∃ t, exec i s = .next t ∧ Runs s t i := by
  cases i with
  | nop => exact runs_of_finish .nop rfl
  | endList => exact ⟨_, exec_endList s, .ends rfl⟩
  | vbcast d v lane =>
    by_cases hl : lane.toNat < Config.lanes
    · exact runs_of_finish (.register _ d _) (if_pos hl)
    · exact runs_of_raise (.lane d v hl) (if_neg hl)
  | ldv d a =>
    cases ha : addressFault a.toNat with
    | none => exact runs_of_finish (.register _ d _) (exec_ldv_of_storage d s ha)
    | some cause => exact runs_of_raise (.load d ha) (exec_ldv_of_fault d s ha)
  | stv v a =>
    cases ha : addressFault a.toNat with
    | none => exact runs_of_finish (.store v ha) (exec_stv_of_storage v s ha)
    | some cause => exact runs_of_raise (.store v ha) (exec_stv_of_fault v s ha)
  | crr d n => exact crr_runs d n s
  | crw n v => exact crw_runs n v s
  | egtrig c t a => exact runs_of_finish (.trigger c t a) rfl
  | egoff c t => exact runs_of_finish (.off c t) rfl
  | kclr =>
    by_cases hb : s.bufSize = 0#32
    · exact runs_of_raise (.clear hb) (exec_kclr_of_unset hb)
    · exact runs_of_finish (.clear hb) (exec_kclr_of_set hb)
  | krender v => exact krender_runs v s
  | vlih d | vlil d | vmov d | fsin d | fcos d | flog d | fexp d | fpow d | fsel d | ffloor d | ffrexpm d | ffrexpe d
  | fldexp d | egeval d => exact runs_of_finish (.register _ d _) rfl

theorem runs_of_exec {i : Instr} {s t : State} (h : exec i s = .next t) : Runs s t i := by
  obtain ⟨u, hu, hruns⟩ := exec_runs i s
  obtain rfl : u = t := Host.Outcome.next.inj (hu.symm.trans h)
  exact hruns

/-- Vector registers, counters, parameters, envelopes and data memory aside, `u` is `s`. -/
def KeepsSequencer (s u : State) : Prop :=
  ∃ vr o r f sr bs k nf eg m, u = { s with
    vregs := vr, ovtIterCount := o, renderCount := r, fastpathCount := f, sampleRate := sr, bufSize := bs, kernel := k,
    noteFreq := nf, eg := eg, dmem := m }

theorem KeepsSequencer.runState {s u : State} (h : KeepsSequencer s u) : u.runState = s.runState := by
  obtain ⟨_, _, _, _, _, _, _, _, _, _, rfl⟩ := h
  rfl

theorem Stores.keepsSequencer {P : Nat → Word → Prop} {s u : State} (h : Stores P s u) : KeepsSequencer s u := by
  obtain ⟨m, o, r, f, rfl⟩ := h.eq_with
  exact ⟨_, o, r, f, _, _, _, _, _, m, rfl⟩

theorem storeCr_keepsSequencer (s : State) (q : CrName) (v : Word) : KeepsSequencer s (s.storeCr q v) := by
  obtain ⟨sr, bs, k, nf, eg, heq⟩ := storeCr_eq s q v
  exact ⟨_, _, _, _, sr, bs, k, nf, eg, _, heq⟩

/-- No effect of a command reaches the sequencer, the fault registers, command RAM or the model's own fields. -/
theorem Effect.keepsSequencer {s u : State} {i : Instr} (h : Effect s i u) : KeepsSequencer s u := by
  cases h with
  | nop | register | trigger | off => exact ⟨_, _, _, _, _, _, _, _, _, _, rfl⟩
  | store => exact (writeVec_stores s _ _).keepsSequencer
  | writeCr => exact storeCr_keepsSequencer s _ _
  | clear => exact (clearOut_stores _ s).keepsSequencer
  | render => exact (krenderBody_stores fastMath _ s).keepsSequencer

/-- A command that has an effect ends like any other, and leaves command RAM and the model's own fields alone. -/
theorem Effect.complete_frame {s u : State} {i : Instr} (h : Effect s i u) :
    Ended s u.complete ∧ SameCmd s u.complete ∧ SameModel s u.complete := by
  obtain ⟨vr, o, r, f, sr, bs, k, nf, eg, m, rfl⟩ := h.keepsSequencer
  obtain ⟨hended, -, -, -, -, -, hcmd, hmodel⟩ := Proofs.complete_frame { s with
    vregs := vr, ovtIterCount := o, renderCount := r, fastpathCount := f, sampleRate := sr, bufSize := bs, kernel := k,
    noteFreq := nf, eg := eg, dmem := m }
  exact ⟨ended_congr rfl rfl rfl ⟨rfl, rfl, rfl⟩ hended, hcmd, hmodel⟩

/-! ## Steps -/

/-- `s` with the oldest of the host's moves taken off the list. -/
def popMove (s : State) : State := { s with inputs := s.inputs.tail }

/-- Everything a step can be: nothing while not RUNNING, a rejected word, a command, or one of the host's moves. -/
inductive StepCase (s t : State) : Prop where
  | rests (hr : s.runState ≠ .running) (h : t = popMove s)
  | rejects (hr : s.runState = .running) {e : DecodeError} (hd : decode (s.cmdWord s.cp.toNat) = .error e)
      (h : t = rejectWord (popMove s) (s.cmdWord s.cp.toNat) e)
  | command (hr : s.runState = .running) {i : Instr} (hd : decode (s.cmdWord s.cp.toNat) = .ok i)
      (h : Runs (popMove s) t i)
  | resets {rest : List HostMove} (hin : s.inputs = .reset :: rest) (h : t = hostReset (popMove s))
  | reads {addr : BitVec 19} {rest : List HostMove} (hin : s.inputs = .read addr 4 :: rest)
      (h : t = { popMove s with portData := hostReadValue (popMove s) (portTarget addr) })
  | writes {addr : BitVec 19} {v : Word} {rest : List HostMove} (hin : s.inputs = .write addr 4 v :: rest)
      (ha : addr.toNat % 4 = 0) (hr : s.runState ≠ .running ∨ (portTarget addr).inWindow = false)
      (h : t = hostWriteEffect (popMove s) v (portTarget addr))

theorem stepCase_of_sequencerStep {s t : State} (h : sequencerStep (popMove s) = .next t) : StepCase s t := by
  unfold sequencerStep at h
  split at h
  · next hr => exact .rests (by rw [show s.runState = .idle from hr]; decide) (Host.Outcome.next.inj h).symm
  · next hr =>
    split at h
    · next hd => exact .rejects hr hd (Host.Outcome.next.inj h).symm
    · next hd => exact .command hr hd (runs_of_exec h)
  · next hr => exact .rests (by rw [show s.runState = .faulted _ from hr]; simp) (Host.Outcome.next.inj h).symm

/-- A port access that answers a next state is an aligned word access to its target, outside the windows while RUNNING. -/
theorem portAccess_next {s t : State} {addr : BitVec 19} {width : Nat} {k : PortTarget → Result}
    (h : portAccess s addr width k = .next t) :
    width = 4 ∧ addr.toNat % 4 = 0 ∧ (s.runState ≠ .running ∨ (portTarget addr).inWindow = false) ∧
      k (portTarget addr) = .next t := by
  obtain ⟨-, hrefused⟩ | ⟨-, -, -, -, hrefused⟩ | ⟨hw, ha, hr, hk⟩ := portAccess_cases s addr width k
  · rw [hrefused] at h
    cases h
  · rw [hrefused] at h
    cases h
  · exact ⟨hw, ha, hr, hk.symm.trans h⟩

theorem step_cases {s t : State} (h : step s = .next t) : StepCase s t := by
  unfold step stepBody at h
  split at h
  · next hin =>
    have hpop : popMove s = s := by rw [popMove, hin, List.tail_nil, ← hin]
    exact stepCase_of_sequencerStep (by rwa [hpop])
  · next m rest hin =>
    rw [show { s with inputs := rest } = popMove s by rw [popMove, hin, List.tail_cons]] at h
    cases m with
    | pass => exact stepCase_of_sequencerStep h
    | reset => exact .resets hin (Host.Outcome.next.inj h).symm
    | read addr width =>
      obtain ⟨rfl, -, -, hk⟩ := portAccess_next (show hostRead (popMove s) addr width = .next t from h)
      exact .reads hin (Host.Outcome.next.inj hk).symm
    | write addr width v =>
      obtain ⟨rfl, ha, hr, hk⟩ := portAccess_next (show hostWrite (popMove s) addr width v = .next t from h)
      exact .writes hin ha hr (Host.Outcome.next.inj hk).symm

/-! ## Host writes -/

/-- What a host write of `v` to a target does (60_exceptions.md R352): a store, a GO, or nothing. -/
inductive WriteCase (s : State) (v : Word) : PortTarget → State → Prop where
  | dmem {a : Nat} (h : dmemReserved a = false) : WriteCase s v (.dmem a) (s.writeDmem a v)
  | cmd (k : Nat) : WriteCase s v (.cmd k) (s.writeCmd k v)
  | cr {n : BitVec 12} {q : CrName} (hq : crOf n = some q) (h : crwFault n v = none) :
      WriteCase s v (.cr n) (s.storeCr q v)
  | go (h : s.runState = .idle) :
      WriteCase s v .go { s with cp := v.extractLsb' 0 10, done := false, runState := .running }
  | ignored (target : PortTarget) : WriteCase s v target s

theorem hostWriteEffect_cases (s : State) (v : Word) (target : PortTarget) :
    WriteCase s v target (hostWriteEffect s v target) := by
  cases target with
  | dmem a =>
    rw [hostWriteEffect]
    split
    · exact .ignored _
    · next h => exact .dmem (by simpa using h)
  | cmd k => exact .cmd k
  | cr n =>
    cases hq : crOf n with
    | none =>
      simp only [hostWriteEffect, hq]
      exact .ignored _
    | some q =>
      cases hf : crwFault n v <;> simp only [hostWriteEffect, hq, hf, Option.isSome, if_true, if_false,
        Bool.false_eq_true]
      · exact .cr hq hf
      · exact .ignored _
  | go =>
    rw [hostWriteEffect]
    by_cases hr : s.runState = .idle
    · exact hostGo_of_idle hr v ▸ .go hr
    · exact (hostGo_of_not_idle hr v).symm ▸ .ignored _
  | status => exact .ignored _
  | unmapped => exact .ignored _

theorem eq_of_portTarget_go {addr : BitVec 19} (h : portTarget addr = .go) : addr = 0x60000#19 := by
  unfold portTarget at h
  split_ifs at h with _ _ _ hgo
  exact BitVec.eq_of_toNat_eq hgo

theorem bounds_of_portTarget_cmd {addr : BitVec 19} {k : Nat} (h : portTarget addr = .cmd k) :
    0x40000 ≤ addr.toNat ∧ addr.toNat < 0x41000 ∧ k < 1024 := by
  unfold portTarget at h
  split_ifs at h with hdmem hcmd
  obtain rfl := PortTarget.cmd.inj h
  rw [portBytes_eq, Config.dmemWords] at hdmem
  rw [portBytes_eq, Config.cmdWords] at hcmd
  rw [portBytes_eq]
  omega

end Sys2Proof.Proofs
end

section
/-! The sequencer: what a step runs (40_control_and_data_movement.md R150), when it stops (R152, 70_reset_and_hazards.md
R383), what STATUS and IRQ_OUT show of it (10_state.md R36, 60_exceptions.md R338), and its transitions (10_state.md R31). -/

namespace Sys2Proof.Proofs

open Sys2Proof.Machine Sys2Proof.Safety Sys2Proof.Laws

/-! ## Fetch, decode, execute -/

theorem step_of_pass {s : State} {rest : List HostMove} (h : s.inputs = .pass :: rest) :
    step s = sequencerStep { s with inputs := rest } := by
  simp only [step, stepBody, h, moveStep]

theorem sequencerStep_of_decode_ok {s : State} {i : Instr} (hr : s.runState = .running)
    (hd : decode (s.cmdWord s.cp.toNat) = .ok i) : sequencerStep s = exec i s := by
  simp only [sequencerStep, hr, fetchWord, hd]

/-- Settles O6: with no host move left, or on a pass, the step is the sequencer's, and that is the decoded command. -/
theorem stepRunsTheDecodedCommand : Obligations.StepRunsTheDecodedCommand := by
  unfold Obligations.StepRunsTheDecodedCommand
  intro s i hr hd
  refine ⟨fun hin => step_of_decode_ok ⟨hr, hin, rfl⟩ hd, fun rest hin => ?_⟩
  rw [step_of_pass hin]
  exact sequencerStep_of_decode_ok (s := { s with inputs := rest }) hr hd

/-! ## Termination -/

/-- The sequencer has left RUNNING. -/
def Stopped (t : State) : Prop := t.runState = .idle ∨ ∃ c, t.runState = .faulted c

theorem rejectWord_stopped (s : State) (w : Word) (e : DecodeError) : Stopped (rejectWord s w e) := by
  obtain ⟨cause, info, h⟩ := rejectWord_eq s w e
  exact .inr ⟨cause, by rw [h, takeFault_runState]⟩

/-- A command that ends stops the machine at index 1023 and moves it on below. -/
theorem stopped_or_advanced_of_ended {s t : State} (hr : s.runState = .running) (h : Ended s t) :
    Stopped t ∨ (t.runState = .running ∧ t.cp.toNat = s.cp.toNat + 1) := by
  obtain ⟨-, hlt, hlast⟩ := h
  rcases Nat.lt_or_ge s.cp.toNat 1023 with hcp | hcp
  · obtain ⟨hadv, hrun, -⟩ := hlt hcp
    exact .inr ⟨hrun.trans hr, hadv⟩
  · obtain ⟨-, hfault, -⟩ := hlast (by have := s.cp.isLt; omega)
    exact .inl (.inr ⟨_, hfault⟩)

theorem Runs.stopped_or_advanced {i : Instr} {s t : State} (h : Runs s t i) (hr : s.runState = .running)
    (hin : s.inputs = []) :
    Stopped t ∨ (t.runState = .running ∧ t.inputs = [] ∧ t.cp.toNat = s.cp.toNat + 1) := by
  cases h with
  | ends h => exact .inl (.inl (by rw [h]))
  | raises _ h => exact .inl (.inr ⟨_, by rw [h, takeFault_runState]⟩)
  | finishes he h =>
    obtain ⟨hended, -, -, hinputs, -⟩ := he.complete_frame
    obtain hstop | ⟨hrun, hcp⟩ := stopped_or_advanced_of_ended hr hended
    · exact .inl (h ▸ hstop)
    · exact .inr (h ▸ ⟨hrun, hinputs.trans hin, hcp⟩)

/-- A step of a RUNNING machine that the host leaves alone stops it or moves it on by one command. -/
theorem step_of_running {s : State} (hr : s.runState = .running) (hin : s.inputs = []) :
    ∃ t, step s = .next t ∧
      (Stopped t ∨ (t.runState = .running ∧ t.inputs = [] ∧ t.cp.toNat = s.cp.toNat + 1)) := by
  cases hd : decode (s.cmdWord s.cp.toNat) with
  | error e => exact ⟨_, step_of_decode_error ⟨hr, hin, rfl⟩ hd, .inl (rejectWord_stopped _ _ _)⟩
  | ok i =>
    obtain ⟨t, ht, hruns⟩ := exec_runs i s
    exact ⟨t, (step_of_decode_ok ⟨hr, hin, rfl⟩ hd).trans ht, hruns.stopped_or_advanced hr hin⟩

theorem run_succ {s t : State} (h : step s = .next t) (k : Nat) :
    Host.Core.run Sys2Proof.core (k + 1) s = Host.Core.run Sys2Proof.core k t := by
  have hcore : Sys2Proof.core.step s = .next t := h
  simp only [Host.Core.run, hcore]

/-- Induction on how many indices lie before the end of command RAM. -/
theorem run_stops (n : Nat) {s : State} (hn : 1024 - s.cp.toNat = n) (hr : s.runState = .running) (hin : s.inputs = []) :
    ∃ k t, 1 ≤ k ∧ k ≤ n ∧ Host.Core.run Sys2Proof.core k s = .next t ∧ Stopped t := by
  induction n generalizing s with
  | zero => have := s.cp.isLt; omega
  | succ n ih =>
    obtain ⟨t, ht, hstop | ⟨htr, htin, hcp⟩⟩ := step_of_running hr hin
    · exact ⟨1, t, le_rfl, by omega, run_succ ht 0, hstop⟩
    · obtain ⟨k, u, hk1, hkn, hrun, hu⟩ := ih (s := t) (by omega) htr htin
      exact ⟨k + 1, u, by omega, by omega, (run_succ ht k).trans hrun, hu⟩

/-- Settles O8: every command stops the machine or moves cp up by one, and at index 1023 it cannot move up. -/
theorem everyCommandListTerminates : Obligations.EveryCommandListTerminates := by
  unfold Obligations.EveryCommandListTerminates
  refine ⟨fun i s => ?_, fun s hr hin => run_stops _ rfl hr hin⟩
  obtain ⟨t, ht, -⟩ := exec_runs i s
  exact ⟨t, ht⟩

/-! ## STATUS and IRQ_OUT -/

theorem statusRun_eq (s : State) : s.statusRun = decide (s.runState = .running) := by
  rw [State.statusRun, beq_eq_decide]

theorem statusFault_iff (s : State) : s.statusFault = true ↔ ∃ c, s.runState = .faulted c := by
  rw [State.statusFault]
  cases s.runState <;> simp

theorem statusCause_of_faulted {s : State} {c : FaultCause} (h : s.runState = .faulted c) : s.statusCause = c.code := by
  simp only [State.statusCause, h]

theorem statusCause_of_not_faulted {s : State} (h : ∀ c, s.runState ≠ .faulted c) : s.statusCause = 0x00#8 := by
  rw [State.statusCause]
  cases hr : s.runState with
  | idle | running => rfl
  | faulted c => exact absurd hr (h c)

theorem status_done (s : State) : s.status.getLsbD 1 = s.done := by
  simp only [State.status, BitVec.getLsbD_append]
  simp

/-- The bits of STATUS outside its four fields. -/
theorem status_reserved (s : State) {b : Nat} (h : (3 ≤ b ∧ b ≤ 7) ∨ 16 ≤ b) : s.status.getLsbD b = false := by
  simp only [State.status, BitVec.getLsbD_append]
  rcases h with ⟨hlo, hhi⟩ | h
  · interval_cases b <;> simp
  · simp [show ¬ b < 1 by omega, show ¬ b - 1 < 1 by omega, show ¬ b - 1 - 1 < 1 by omega,
      show ¬ b - 1 - 1 - 1 < 5 by omega, show ¬ b - 1 - 1 - 1 - 5 < 8 by omega]

/-- Settles O9: each field of STATUS is read off its place in the concatenation. -/
theorem statusAndIrqShowTheRunState : Obligations.StatusAndIrqShowTheRunState := by
  unfold Obligations.StatusAndIrqShowTheRunState
  refine ⟨fun s => (status_run s).trans (statusRun_eq s), status_done, fun s => ?_, fun s b => status_reserved s,
    fun s c h => (status_cause s).trans (statusCause_of_faulted h),
    fun s h => (status_cause s).trans (statusCause_of_not_faulted h),
    ⟨rfl, rfl, rfl, rfl, rfl, rfl, rfl, rfl, rfl, rfl⟩, fun s => status_running, fun s => ?_⟩
  · rw [status_fault, statusFault_iff]
  · rw [State.irqOut, Bool.or_eq_true, statusFault_iff]

/-! ## The transitions of the run state -/

theorem step_of_not_running {s : State} (hr : s.runState ≠ .running) (hin : s.inputs = []) : step s = .next s := by
  cases hs : s.runState with
  | idle => simp only [step, stepBody, hin, sequencerStep, hs]
  | running => exact absurd hs hr
  | faulted c => exact step_of_faulted hs hin

/-- Of the host's writes only a GO changes the run state, from IDLE to RUNNING. -/
theorem WriteCase.runState {s t : State} {v : Word} {target : PortTarget} (h : WriteCase s v target t) :
    t.runState = s.runState ∨ (target = .go ∧ s.runState = .idle ∧ t.runState = .running) := by
  cases h with
  | dmem | cmd | ignored => exact .inl rfl
  | cr hq hf => exact .inl ((storeCr_commutes _ v).runState s)
  | go hr => exact .inr ⟨rfl, hr, rfl⟩

/-- Everything a step makes of the run state. -/
theorem runState_of_step {s t : State} (h : step s = .next t) :
    t.runState = s.runState ∨
    (s.runState = .idle ∧ t.runState = .running ∧ ∃ g rest, s.inputs = .write 0x60000#19 4 g :: rest) ∨
    (s.runState = .running ∧
      ((∃ c, t.runState = .faulted c) ∨ (t.runState = .idle ∧ decode (s.cmdWord s.cp.toNat) = .ok .endList))) ∨
    (t.runState = .idle ∧ ∃ rest, s.inputs = .reset :: rest) := by
  cases step_cases h with
  | rests hr ht => exact .inl (by rw [ht]; rfl)
  | rejects hr hd ht =>
    obtain ⟨cause, info, hreject⟩ := rejectWord_eq (popMove s) (s.cmdWord s.cp.toNat) _
    exact .inr (.inr (.inl ⟨hr, .inl ⟨cause, by rw [ht, hreject, takeFault_runState]⟩⟩))
  | command hr hd hruns =>
    cases hruns with
    | ends ht => exact .inr (.inr (.inl ⟨hr, .inr ⟨by rw [ht], hd⟩⟩))
    | raises _ ht => exact .inr (.inr (.inl ⟨hr, .inl ⟨_, by rw [ht, takeFault_runState]⟩⟩))
    | @finishes _ u he ht =>
      obtain hsame | hfault := complete_runState u
      · exact .inl (by rw [ht, hsame, he.keepsSequencer.runState]; rfl)
      · exact .inr (.inr (.inl ⟨hr, .inl ⟨_, by rw [ht, hfault]⟩⟩))
  | resets hin ht => exact .inr (.inr (.inr ⟨by rw [ht]; rfl, _, hin⟩))
  | reads hin ht => exact .inl (by rw [ht]; rfl)
  | writes hin ha hr ht =>
    obtain hsame | ⟨hgo, hidle, hrun⟩ := (hostWriteEffect_cases (popMove s) _ _).runState
    · exact .inl (by rw [ht, hsame]; rfl)
    · exact .inr (.inl ⟨hidle, by rw [ht, hrun], _, _, eq_of_portTarget_go hgo ▸ hin⟩)

/-- Settles O7: the four kinds of change that a step can make of the run state, sorted by the run state before. -/
theorem runStateFollowsItsTransitions : Obligations.RunStateFollowsItsTransitions := by
  unfold Obligations.RunStateFollowsItsTransitions
  refine ⟨rfl, fun s => step_of_not_running, fun s t h hr => ?_, fun s t h hr => ?_, fun s t c h hr => ?_,
    fun s addr v hr ha => ?_, fun s => (status_run s).trans (statusRun_eq s), fun s => by rw [status_fault, statusFault_iff]⟩
  · obtain hsame | ⟨-, hrun, hgo⟩ | ⟨hr', -⟩ | ⟨hidle, -⟩ := runState_of_step h
    · exact .inl (hsame.trans hr)
    · exact .inr ⟨hrun, hgo⟩
    · rw [hr] at hr'
      cases hr'
    · exact .inl hidle
  · obtain hsame | ⟨hr', -⟩ | ⟨-, hfault | ⟨hidle, hend⟩⟩ | ⟨hidle, hreset⟩ := runState_of_step h
    · exact .inl (hsame.trans hr)
    · rw [hr] at hr'
      cases hr'
    · exact .inr (.inl hfault)
    · exact .inr (.inr ⟨hidle, .inl hend⟩)
    · exact .inr (.inr ⟨hidle, .inr hreset⟩)
  · obtain hsame | ⟨hr', -⟩ | ⟨hr', -⟩ | hreset := runState_of_step h
    · exact .inl (hsame.trans hr)
    · rw [hr] at hr'
      cases hr'
    · rw [hr] at hr'
      cases hr'
    · exact .inr hreset
  · obtain ⟨hread, hwrite⟩ := host_access_of_not_running hr ha
    exact ⟨hread, hwrite v⟩

end Sys2Proof.Proofs
end

section
/-! What the effects of commands and the host's writes leave alone: data memory outside a command's own words, the envelope
state, the counters and the fault registers (20_memory.md R108; 42_envelope.md R240; 60_exceptions.md R340). -/

namespace Sys2Proof.Proofs

open Sys2Proof.Machine Sys2Proof.Safety Sys2Proof.Laws

/-! ## Data memory -/

theorem dmemWord_eq_of_dmem {s t : State} (hd : t.dmem = s.dmem) (he : t.epoch = s.epoch) (a : Nat) :
    t.dmemWord a = s.dmemWord a := by
  simp only [State.dmemWord, State.dmemByte, hd, he]

/-- What a command may store with its BUFSIZE in order: no word of a reserved range, and a phase in range unless it is an
STV. -/
def CommandStores (i : Instr) (a : Nat) (w : Word) : Prop :=
  dmemReserved a = false ∧ ((∃ r x, i = .stv r x) ∨ (0xC000 ≤ a → PhaseInRange w))

theorem wrapPhase_inRange (x : Word) : PhaseInRange (wrapPhase x) := by
  unfold wrapPhase
  split
  · next h => exact Bool.and_eq_true_iff.1 h
  · exact ⟨by decide, by decide⟩

/-- The four words of an aligned vector lie in one range of the map. -/
theorem not_reserved_of_aligned {a x : Nat} (ha : a % 4 = 0) (h : ¬ Reserved a) (hx : a ≤ x ∧ x < a + 4) :
    dmemReserved x = false := by
  rw [← dmemReserved_iff] at h
  simp only [dmemReserved, Bool.or_eq_true, Bool.and_eq_true, decide_eq_true_eq] at h
  simp only [dmemReserved, Bool.or_eq_false_iff, Bool.and_eq_false_iff, decide_eq_false_iff_not]
  omega

/-- The words of OUT are storage. -/
theorem not_reserved_of_out {a N : Nat} (hN : N ≤ 1024) (h : 0x1000 ≤ a ∧ a < 0x1000 + 2 * N) :
    dmemReserved a = false := by
  simp only [dmemReserved, Bool.or_eq_false_iff, Bool.and_eq_false_iff, decide_eq_false_iff_not]
  omega

/-- The overtone-state words are storage. -/
theorem not_reserved_of_ots {a : Nat} (h : 0xC000 ≤ a ∧ a < 0xEEE0) : dmemReserved a = false := by
  simp only [dmemReserved, Bool.or_eq_false_iff, Bool.and_eq_false_iff, decide_eq_false_iff_not]
  omega

theorem renderStores_commandStores {N v a : Nat} {w : Word} {i : Instr} (hv : v < 10) (hN : N ≤ 1024)
    (h : RenderStores N v a w) : CommandStores i a w := by
  obtain hout | ⟨hlo, hhi, x, rfl⟩ := h
  · exact ⟨not_reserved_of_out hN hout, .inr fun _ => by omega⟩
  · exact ⟨not_reserved_of_ots (by omega), .inr fun _ => wrapPhase_inRange x⟩

/-- An effect leaves data memory as it is or stores what its command may store. -/
theorem Effect.dmem {s u : State} {i : Instr} (h : Effect s i u) (hb : s.bufSize = 0#32 ∨ LegalBufSize s.bufSize) :
    u.dmem = s.dmem ∨ Stores (CommandStores i) s u := by
  have hN : s.bufSize ≠ 0#32 → s.bufSize.toNat ≤ 1024 := fun h0 => by
    obtain ⟨-, -, hle⟩ := hb.resolve_left h0
    exact hle
  cases h with
  | nop | register | trigger | off => exact .inl rfl
  | writeCr hq hf =>
    obtain ⟨_, _, _, _, _, heq⟩ := storeCr_eq s _ _
    exact .inl (by rw [heq])
  | @store v a ha =>
    refine .inr ((writeVec_stores s _ _).mono fun x w hx => ⟨?_, .inl ⟨_, _, rfl⟩⟩)
    obtain ⟨-, hf⟩ | ⟨-, -, hf⟩ | ⟨hal, hres, -⟩ := addressFault_cases a.toNat
    · simp [hf] at ha
    · simp [hf] at ha
    · exact not_reserved_of_aligned hal hres hx
  | clear h0 =>
    have := hN h0
    exact .inr ((clearOut_stores _ s).mono fun x w hx => ⟨not_reserved_of_out this hx, .inr fun _ => by omega⟩)
  | render hv h0 =>
    exact .inr ((krenderBody_stores fastMath _ s).mono fun x w => renderStores_commandStores hv (hN h0))

/-! ## Command RAM (20_memory.md R108) -/

theorem takeFault_sameCmd (s : State) (c : FaultCause) (w info : Word) : SameCmd s (s.takeFault c w info) := fun _ => rfl

theorem Runs.sameCmd {s t : State} {i : Instr} (h : Runs s t i) : SameCmd s t := by
  cases h with
  | ends h => exact h ▸ fun _ => rfl
  | raises _ h => exact h ▸ takeFault_sameCmd s _ _ _
  | finishes he h => exact h ▸ he.complete_frame.2.1

theorem WriteCase.sameCmd {s t : State} {v : Word} {target : PortTarget} (h : WriteCase s v target t) :
    SameCmd s t ∨ ∃ k, target = .cmd k := by
  cases h with
  | dmem | go | ignored => exact .inl fun _ => rfl
  | cmd k => exact .inr ⟨k, rfl⟩
  | cr hq hf =>
    obtain ⟨_, _, _, _, _, heq⟩ := storeCr_eq s _ v
    exact .inl (heq ▸ fun _ => rfl)

theorem cmd_of_step {s t : State} (h : step s = .next t) :
    SameCmd s t ∨ (∃ rest, s.inputs = .reset :: rest) ∨
    ∃ addr v rest, s.inputs = .write addr 4 v :: rest ∧ 0x40000 ≤ addr.toNat ∧ addr.toNat < 0x41000 := by
  cases step_cases h with
  | rests _ ht => exact .inl (ht ▸ fun _ => rfl)
  | rejects _ _ ht =>
    obtain ⟨cause, info, hreject⟩ := rejectWord_eq (popMove s) (s.cmdWord s.cp.toNat) _
    exact .inl (ht ▸ hreject ▸ takeFault_sameCmd (popMove s) _ _ _)
  | command _ _ hruns => exact .inl hruns.sameCmd
  | resets hin _ => exact .inr (.inl ⟨_, hin⟩)
  | reads _ ht => exact .inl (ht ▸ fun _ => rfl)
  | writes hin _ _ ht =>
    obtain hsame | ⟨k, hk⟩ := (hostWriteEffect_cases (popMove s) _ _).sameCmd
    · exact .inl (ht ▸ hsame)
    · obtain ⟨hlo, hhi, -⟩ := bounds_of_portTarget_cmd hk
      exact .inr (.inr ⟨_, _, _, hin, hlo, hhi⟩)

/-- Settles O50: no command and no fault names command RAM; the host's CMD window and reset do. -/
theorem noCommandWritesTheCommandRam : Obligations.NoCommandWritesTheCommandRam := by
  unfold Obligations.NoCommandWritesTheCommandRam
  refine ⟨fun s t hin h => ?_, fun s t => cmd_of_step⟩
  obtain hsame | ⟨rest, hreset⟩ | ⟨_, _, _, hwrite, -⟩ := cmd_of_step h
  · exact hsame
  · simp [hin] at hreset
  · simp [hin] at hwrite

/-! ## The event counters (60_exceptions.md R340) -/

theorem takeFault_sameCounters (s : State) (c : FaultCause) (w info : Word) : SameCounters s (s.takeFault c w info) :=
  ⟨rfl, rfl, rfl⟩

theorem Effect.sameCounters {s u : State} {i : Instr} (h : Effect s i u) :
    SameCounters s u.complete ∨ ∃ v, i = .krender v := by
  rw [SameCounters, complete_ovtIterCount, complete_renderCount, complete_fastpathCount]
  cases h with
  | nop | register | trigger | off => exact .inl ⟨rfl, rfl, rfl⟩
  | store => exact .inl ⟨writeVec_ovtIterCount _ _ _, writeVec_renderCount _ _ _, writeVec_fastpathCount _ _ _⟩
  | writeCr hq hf =>
    obtain ⟨_, _, _, _, _, heq⟩ := storeCr_eq s _ _
    exact .inl (heq ▸ ⟨rfl, rfl, rfl⟩)
  | clear h0 =>
    obtain ⟨_, heq⟩ := clearOut_eq (2 * s.bufSize.toNat) s
    exact .inl (heq ▸ ⟨rfl, rfl, rfl⟩)
  | render => exact .inr ⟨_, rfl⟩

theorem Runs.sameCounters {s t : State} {i : Instr} (h : Runs s t i) : SameCounters s t ∨ ∃ v, i = .krender v := by
  cases h with
  | ends h => exact .inl (h ▸ ⟨rfl, rfl, rfl⟩)
  | raises _ h => exact .inl (h ▸ takeFault_sameCounters s _ _ _)
  | finishes he h => exact h ▸ he.sameCounters

/-- The host's writes reach no vector register, no counter, no fault register and none of the model's own fields. -/
theorem WriteCase.eq_with {s t : State} {v : Word} {target : PortTarget} (h : WriteCase s v target t) :
    ∃ rs dn cp sr bs k nf eg dm cm, t = { s with
      runState := rs, done := dn, cp := cp, sampleRate := sr, bufSize := bs, kernel := k, noteFreq := nf, eg := eg,
      dmem := dm, cmd := cm } := by
  cases h with
  | dmem | cmd | go | ignored => exact ⟨_, _, _, _, _, _, _, _, _, _, rfl⟩
  | cr hq hf =>
    obtain ⟨sr, bs, k, nf, eg, heq⟩ := storeCr_eq s _ v
    exact ⟨_, _, _, sr, bs, k, nf, eg, _, _, heq⟩

theorem WriteCase.sameRegisters {s t : State} {v : Word} {target : PortTarget} (h : WriteCase s v target t) :
    SameV s t ∧ SameCounters s t ∧ SameFaultRegs s t := by
  obtain ⟨_, _, _, _, _, _, _, _, _, _, rfl⟩ := h.eq_with
  exact ⟨fun _ => rfl, ⟨rfl, rfl, rfl⟩, ⟨rfl, rfl, rfl⟩⟩

theorem counters_of_step {s t : State} (h : step s = .next t) :
    SameCounters s t ∨ (∃ rest, s.inputs = .reset :: rest) ∨
    (s.runState = .running ∧ ∃ v, decode (s.cmdWord s.cp.toNat) = .ok (.krender v)) := by
  cases step_cases h with
  | rests _ ht => exact .inl (ht ▸ ⟨rfl, rfl, rfl⟩)
  | rejects _ _ ht =>
    obtain ⟨cause, info, hreject⟩ := rejectWord_eq (popMove s) (s.cmdWord s.cp.toNat) _
    exact .inl (ht ▸ hreject ▸ takeFault_sameCounters (popMove s) _ _ _)
  | command hr hd hruns =>
    obtain hsame | ⟨v, rfl⟩ := hruns.sameCounters
    · exact .inl hsame
    · exact .inr (.inr ⟨hr, v, hd⟩)
  | resets hin _ => exact .inr (.inl ⟨_, hin⟩)
  | reads _ ht => exact .inl (ht ▸ ⟨rfl, rfl, rfl⟩)
  | writes _ _ _ ht => exact .inl (ht ▸ (hostWriteEffect_cases (popMove s) _ _).sameRegisters.2.1)

/-- Settles O51: of all effects only KRENDER's names a counter, and a fault of its checks comes before it. -/
theorem countersChangeOnlyByKrender : Obligations.CountersChangeOnlyByKrender := by
  unfold Obligations.CountersChangeOnlyByKrender
  refine ⟨fun s t => counters_of_step, fun s t v c h hr hc hne => ?_⟩
  rw [faulted_of_exec hr h hc hne]
  exact ⟨rfl, rfl, rfl⟩

/-! ## The fault registers (10_state.md R37) -/

/-- Ending a command takes CP_OVERRUN or leaves the fault registers. -/
theorem faultRegs_of_ended {s t : State} (h : Ended s t) :
    SameFaultRegs s t ∨ ((∃ c, t.runState = .faulted c) ∧ t.faultCp = s.cp.setWidth 32) := by
  obtain ⟨-, hlt, hlast⟩ := h
  rcases Nat.lt_or_ge s.cp.toNat 1023 with hcp | hcp
  · obtain ⟨-, -, hsame⟩ := hlt hcp
    exact .inl hsame
  · have hcp' : s.cp.toNat = 1023 := by have := s.cp.isLt; omega
    obtain ⟨-, hfault, hfaultCp, -⟩ := hlast hcp'
    have heq : s.cp = 1023#10 := BitVec.eq_of_toNat_eq hcp'
    exact .inr ⟨⟨_, hfault⟩, by rw [hfaultCp, heq]; rfl⟩

theorem Runs.faultRegs {s t : State} {i : Instr} (h : Runs s t i) :
    SameFaultRegs s t ∨ ((∃ c, t.runState = .faulted c) ∧ t.faultCp = s.cp.setWidth 32) := by
  cases h with
  | ends h => exact .inl (h ▸ ⟨rfl, rfl, rfl⟩)
  | raises _ h => exact .inr (h ▸ ⟨⟨_, rfl⟩, rfl⟩)
  | finishes he h => exact h ▸ faultRegs_of_ended he.complete_frame.1

/-- Settles O52: the fault registers are written where the run state becomes FAULTED, out of a step of the sequencer. -/
theorem faultRegistersAreWrittenByFaultsAlone : Obligations.FaultRegistersAreWrittenByFaultsAlone := by
  unfold Obligations.FaultRegistersAreWrittenByFaultsAlone
  intro s t h
  cases step_cases h with
  | rests _ ht => exact .inl (ht ▸ ⟨rfl, rfl, rfl⟩)
  | rejects hr _ ht =>
    obtain ⟨cause, info, hreject⟩ := rejectWord_eq (popMove s) (s.cmdWord s.cp.toNat) _
    exact .inr (.inr ⟨hr, ht ▸ hreject ▸ ⟨⟨cause, rfl⟩, rfl⟩⟩)
  | command hr _ hruns => exact hruns.faultRegs.imp_right fun hfault => .inr ⟨hr, hfault⟩
  | resets hin _ => exact .inr (.inl ⟨_, hin⟩)
  | reads _ ht => exact .inl (ht ▸ ⟨rfl, rfl, rfl⟩)
  | writes _ _ _ ht => exact .inl (ht ▸ (hostWriteEffect_cases (popMove s) _ _).sameRegisters.2.2)

/-! ## The envelope state (42_envelope.md R240, R249) -/

/-- No register that can be written is a state register of a context (10_state.md R48). -/
theorem storeCr_egState (s : State) (q : CrName) (v : Word) (c : Ctx) :
    ((s.storeCr q v).getEg c).state = (s.getEg c).state := by
  cases q with
  | egParam d k => exact getEg_setEg_view EgContext.state s d (by rfl) c
  | egFlags d => exact getEg_setEg_view EgContext.state s d (by rfl) c
  | _ => rfl

theorem Stores.getEg {P : Nat → Word → Prop} {s u : State} (h : Stores P s u) (c : Ctx) : u.getEg c = s.getEg c := by
  obtain ⟨_, _, _, _, rfl⟩ := h.eq_with
  rfl

/-- What an effect does to the state registers of context `c`: nothing, or the trigger or the off that names `c`. -/
theorem Effect.egState {s u : State} {i : Instr} (h : Effect s i u) (c : Ctx) :
    (u.getEg c).state = (s.getEg c).state ∨
    (∃ a b T A, i = .egtrig c a b ∧ u.getEg c = egTrigger fastMath (s.getEg c) T A) ∨
    ∃ a T, i = .egoff c a ∧ u.getEg c = egOff fastMath (s.getEg c) T := by
  cases h with
  | nop | register => exact .inl rfl
  | trigger d t a =>
    rcases eq_or_ne c d with rfl | hne
    · exact .inr (.inl ⟨t, a, _, _, rfl, getEg_setEg_same _ _ _⟩)
    · exact .inl (by rw [getEg_setEg_ne s _ hne])
  | off d t =>
    rcases eq_or_ne c d with rfl | hne
    · exact .inr (.inr ⟨t, _, rfl, getEg_setEg_same _ _ _⟩)
    · exact .inl (by rw [getEg_setEg_ne s _ hne])
  | store => exact .inl (by rw [(writeVec_stores s _ _).getEg])
  | writeCr => exact .inl (storeCr_egState s _ _ c)
  | clear => exact .inl (by rw [(clearOut_stores _ s).getEg])
  | render => exact .inl (by rw [(krenderBody_stores fastMath _ s).getEg])

theorem egOff_triggered (fm : FM) (c : EgContext) (T : Word) : (egOff fm c T).state.triggered = c.state.triggered := by
  cases h : c.state.triggered
  case false => rw [egOff_of_not_triggered fm T h, h]
  case true => rw [egOff_of_triggered fm T h]; exact h

theorem egTrigger_triggered (fm : FM) (c : EgContext) (T A : Word) : (egTrigger fm c T A).state.triggered = true := by
  rcases Bool.eq_false_or_eq_true c.autoRelease with hauto | hauto
  · rw [egTrigger_of_autoRelease fm T A hauto, egOff_triggered]
    rfl
  · rw [egTrigger_of_manual fm T A hauto]
    rfl

/-- The state registers of context `c` after a command, and TRIGGERED. -/
theorem Runs.egState {s t : State} {i : Instr} (h : Runs s t i) (c : Ctx) :
    ((t.getEg c).state = (s.getEg c).state ∨ (∃ a b, i = .egtrig c a b) ∨ ∃ a, i = .egoff c a) ∧
    ((s.getEg c).state.triggered = true → (t.getEg c).state.triggered = true) := by
  cases h with
  | ends h => exact h ▸ ⟨.inl rfl, id⟩
  | raises _ h => exact h ▸ ⟨.inl rfl, id⟩
  | finishes he h =>
    rw [h, getEg_complete]
    obtain hsame | ⟨a, b, T, A, hi, heg⟩ | ⟨a, T, hi, heg⟩ := he.egState c
    · exact ⟨.inl hsame, fun htrig => by rw [hsame, htrig]⟩
    · exact ⟨.inr (.inl ⟨a, b, hi⟩), fun _ => by rw [heg, egTrigger_triggered]⟩
    · exact ⟨.inr (.inr ⟨a, hi⟩), fun htrig => by rw [heg, egOff_triggered, htrig]⟩

theorem WriteCase.egState {s t : State} {v : Word} {target : PortTarget} (h : WriteCase s v target t) (c : Ctx) :
    (t.getEg c).state = (s.getEg c).state := by
  cases h with
  | dmem | cmd | go | ignored => rfl
  | cr => exact storeCr_egState s _ v c

/-- Equal state registers settle both clauses of O43. -/
theorem egState_kept {e e' : EgState} {P Q : Prop} (h : e' = e) :
    (e' = e ∨ P) ∧ (e.triggered = true → e'.triggered = true ∨ Q) :=
  ⟨.inl h, fun htrig => .inl (h ▸ htrig)⟩

/-- Settles O43: of all effects only a trigger or an off that names the context writes its state registers, and neither
clears TRIGGERED. -/
theorem envelopeStateIsWrittenByItsCommandsAlone : Obligations.EnvelopeStateIsWrittenByItsCommandsAlone := by
  unfold Obligations.EnvelopeStateIsWrittenByItsCommandsAlone
  intro s t c h
  cases step_cases h with
  | rests _ ht => exact egState_kept (ht ▸ rfl)
  | rejects _ _ ht =>
    obtain ⟨cause, info, hreject⟩ := rejectWord_eq (popMove s) (s.cmdWord s.cp.toNat) _
    exact egState_kept (by rw [ht, hreject]; rfl)
  | command hr hd hruns =>
    obtain ⟨hstate, htrig⟩ := hruns.egState c
    refine ⟨?_, fun h' => .inl (htrig h')⟩
    obtain hsame | ⟨a, b, rfl⟩ | ⟨a, rfl⟩ := hstate
    · exact .inl hsame
    · exact .inr (.inr ⟨hr, .inl ⟨a, b, hd⟩⟩)
    · exact .inr (.inr ⟨hr, .inr ⟨a, hd⟩⟩)
  | resets hin _ => exact ⟨.inr (.inl ⟨_, hin⟩), fun _ => .inr ⟨_, hin⟩⟩
  | reads _ ht => exact egState_kept (ht ▸ rfl)
  | writes _ _ _ ht => exact egState_kept (ht ▸ (hostWriteEffect_cases (popMove s) _ _).egState c)

end Sys2Proof.Proofs
end

section
/-! The invariant of the machine, and the range of the overtone phases (10_state.md sections 4 to 6; 20_memory.md R91, R93;
60_exceptions.md R331, R333; 43_synthesis_kernel.md R301). -/

namespace Sys2Proof.Proofs

open Sys2Proof.Machine Sys2Proof.Safety Sys2Proof.Laws

/-! ## The pieces of the invariant under the updates of the state -/

/-- The invariant looks at an effect through data memory, BUFSIZE and the envelopes. -/
theorem inv_of_keepsSequencer {s u : State} (h : Inv s) (hk : KeepsSequencer s u) (hd : Memory.wf .dmem u.dmem = true)
    (hb : u.bufSize = 0#32 ∨ LegalBufSize u.bufSize)
    (hu : ∀ c, (u.getEg c).state.triggered = false → (u.getEg c).state = EgState.reset) : Inv u := by
  obtain ⟨_, _, _, _, _, _, _, _, _, _, rfl⟩ := hk
  exact ⟨hd, h.cmdWf, hb, h.doneIdle, h.noFault, h.faultCp, h.overrun, hu⟩

/-- Without a fault before and after, the run state, DONE and cp are free but for DONE while RUNNING. -/
theorem inv_with_sequencer {s : State} (h : Inv s) (hs : ∀ c, s.runState ≠ .faulted c) {r : RunState} {d : Bool}
    (k : BitVec 10) (hr : ∀ c, r ≠ .faulted c) (hd : d = true → r = .idle) :
    Inv { s with runState := r, done := d, cp := k } :=
  ⟨h.dmemWf, h.cmdWf, h.bufSizeOk, hd, fun _ => h.noFault hs, fun c hc => absurd hc (hr c),
    fun hc => absurd hc (hr _), h.untriggered⟩

theorem inv_takeFault {s : State} (h : Inv s) (hr : s.runState = .running) {cause : FaultCause} {w info : Word}
    (hc : cause = .cpOverrun → s.cp = 1023#10 ∧ w = 0#32 ∧ info = 1024#32) : Inv (s.takeFault cause w info) :=
  ⟨h.dmemWf, h.cmdWf, h.bufSizeOk, fun hd => absurd (h.doneIdle hd) (by simp [hr]), fun hn => absurd rfl (hn cause),
    fun _ _ => rfl, fun ho => hc (RunState.faulted.inj ho), h.untriggered⟩

theorem not_faulted_of_running {s : State} (hr : s.runState = .running) (c : FaultCause) : s.runState ≠ .faulted c := by
  simp [hr]

theorem inv_complete {s : State} (h : Inv s) (hr : s.runState = .running) : Inv s.complete := by
  rcases eq_or_ne s.cp 1023#10 with hcp | hcp
  · rw [complete_of_last s hcp]
    exact inv_takeFault h hr fun _ => ⟨hcp, rfl, rfl⟩
  · rw [complete_of_lt s hcp]
    exact inv_with_sequencer h (not_faulted_of_running hr) _ (not_faulted_of_running hr) h.doneIdle

theorem legalBufSize_of_crwFault {n : BitVec 12} {v : Word} (hq : crOf n = some .bufSize) (hf : crwFault n v = none) :
    LegalBufSize v := by
  rw [← bufSizeLegal_iff]
  by_contra hl
  simp [crwFault, hq, CrName.access, hl] at hf

/-- A store into a register keeps BUFSIZE or puts a legal value there. -/
theorem storeCr_bufSize {s : State} {n : BitVec 12} {q : CrName} {v : Word} (hq : crOf n = some q)
    (hf : crwFault n v = none) : (s.storeCr q v).bufSize = s.bufSize ∨ LegalBufSize (s.storeCr q v).bufSize := by
  cases q with
  | bufSize => exact .inr (legalBufSize_of_crwFault hq hf)
  | _ => exact .inl rfl

theorem inv_storeCr {s : State} (h : Inv s) {n : BitVec 12} {q : CrName} {v : Word} (hq : crOf n = some q)
    (hf : crwFault n v = none) : Inv (s.storeCr q v) := by
  refine inv_of_keepsSequencer h (storeCr_keepsSequencer s q v) ?_ ?_ fun c => ?_
  · obtain ⟨_, _, _, _, _, heq⟩ := storeCr_eq s q v
    rw [heq]
    exact h.dmemWf
  · obtain hsame | hlegal := storeCr_bufSize (s := s) hq hf
    · exact hsame ▸ h.bufSizeOk
    · exact .inr hlegal
  · rw [storeCr_egState]
    exact h.untriggered c

/-! ## Commands -/

theorem Effect.dmem_wf {s u : State} {i : Instr} (h : Effect s i u) (hs : Inv s) : Memory.wf .dmem u.dmem = true := by
  obtain hsame | hstores := h.dmem hs.bufSizeOk
  · exact hsame ▸ hs.dmemWf
  · exact hstores.dmem_wf (fun _ _ hP => hP.1) hs.dmemWf

theorem Effect.untriggered {s u : State} {i : Instr} (h : Effect s i u) (hs : Inv s) (c : Ctx)
    (hc : (u.getEg c).state.triggered = false) : (u.getEg c).state = EgState.reset := by
  obtain hsame | ⟨_, _, T, A, -, heg⟩ | ⟨_, T, -, heg⟩ := h.egState c
  · exact hsame ▸ hs.untriggered c (hsame ▸ hc)
  · rw [heg, egTrigger_triggered] at hc
    cases hc
  · rw [heg, egOff_triggered] at hc
    rw [heg, egOff_of_not_triggered _ _ hc]
    exact hs.untriggered c hc

theorem Stores.bufSize {P : Nat → Word → Prop} {s u : State} (h : Stores P s u) : u.bufSize = s.bufSize := by
  obtain ⟨_, _, _, _, rfl⟩ := h.eq_with
  rfl

theorem Effect.inv {s u : State} {i : Instr} (h : Effect s i u) (hs : Inv s) : Inv u := by
  have of_bufSize (hb : u.bufSize = s.bufSize) : Inv u :=
    inv_of_keepsSequencer hs h.keepsSequencer (h.dmem_wf hs) (hb ▸ hs.bufSizeOk) (h.untriggered hs)
  cases h with
  | nop | register | trigger | off => exact of_bufSize rfl
  | store => exact of_bufSize (writeVec_bufSize s _ _)
  | writeCr hq hf => exact inv_storeCr hs hq hf
  | clear => exact of_bufSize (clearOut_stores _ s).bufSize
  | render => exact of_bufSize (krenderBody_stores fastMath _ s).bufSize

theorem Raises.not_overrun {s : State} {i : Instr} {cause : FaultCause} {info : Word} (h : Raises s i cause info) :
    cause ≠ .cpOverrun := by
  have of_address {a : Nat} (ha : addressFault a = some cause) : cause ≠ .cpOverrun := by
    rintro rfl
    obtain ⟨-, hf⟩ | ⟨-, -, hf⟩ | ⟨-, -, hf⟩ := addressFault_cases a <;> simp [hf] at ha
  cases h with
  | load d ha => exact of_address ha
  | store v ha => exact of_address ha
  | writeCr hf =>
    obtain ⟨-, rfl, -⟩ | ⟨-, -, -, rfl, -⟩ | ⟨-, -, rfl, -⟩ := crwFault_cases hf <;> simp
  | lane | readCr | clear | renderUnset | renderIndex => simp

theorem Runs.inv {s t : State} {i : Instr} (h : Runs s t i) (hs : Inv s) (hr : s.runState = .running) : Inv t := by
  cases h with
  | ends h => exact h ▸ inv_with_sequencer hs (not_faulted_of_running hr) s.cp (by simp) fun _ => rfl
  | raises hraise h => exact h ▸ inv_takeFault hs hr fun hc => absurd hc hraise.not_overrun
  | finishes he h => exact h ▸ inv_complete (he.inv hs) (he.keepsSequencer.runState.trans hr)

theorem rejectWord_inv {s : State} (hs : Inv s) (hr : s.runState = .running) (w : Word) (e : DecodeError) :
    Inv (rejectWord s w e) := by
  cases e with
  | illegalOpcode => exact inv_takeFault hs hr (by simp)
  | reservedField bits => exact inv_takeFault hs hr (by simp)

/-! ## The host -/

theorem getEg_resetAt (epoch : Nat) (c : Ctx) : (State.resetAt epoch).getEg c = EgContext.reset := by
  simp [State.getEg, State.resetAt]

theorem resetAt_inv (epoch : Nat) (inputs : List HostMove) : Inv { State.resetAt epoch with inputs := inputs } :=
  ⟨rfl, rfl, .inl rfl, fun h => (Bool.false_ne_true h).elim, fun _ => ⟨rfl, rfl, rfl⟩, (fun _ h => nomatch h),
    (fun h => nomatch h), fun c _ => congrArg EgContext.state (getEg_resetAt epoch c)⟩

/-- Settles O54: both memories are empty lists after reset, every context is at its reset value. -/
theorem resetMeetsTheInvariant : Obligations.ResetMeetsTheInvariant := by
  unfold Obligations.ResetMeetsTheInvariant
  exact resetAt_inv 0 []

theorem WriteCase.inv {s t : State} {v : Word} {addr : BitVec 19} (h : WriteCase s v (portTarget addr) t) (hs : Inv s) :
    Inv t := by
  generalize htarget : portTarget addr = target at h
  cases h with
  | dmem ha =>
    exact ⟨writeDmem_wf s _ v hs.dmemWf ha, hs.cmdWf, hs.bufSizeOk, hs.doneIdle, hs.noFault, hs.faultCp, hs.overrun,
      hs.untriggered⟩
  | cmd k =>
    obtain ⟨-, -, hk⟩ := bounds_of_portTarget_cmd htarget
    exact ⟨hs.dmemWf, writeCmd_wf s k v hs.cmdWf hk, hs.bufSizeOk, hs.doneIdle, hs.noFault, hs.faultCp, hs.overrun,
      hs.untriggered⟩
  | cr hq hf => exact inv_storeCr hs hq hf
  | go hr => exact inv_with_sequencer hs (by simp [hr]) _ (by simp) (by simp)
  | ignored => exact hs

theorem popMove_inv {s : State} (hs : Inv s) : Inv (popMove s) :=
  ⟨hs.dmemWf, hs.cmdWf, hs.bufSizeOk, hs.doneIdle, hs.noFault, hs.faultCp, hs.overrun, hs.untriggered⟩

/-- Settles O53: every kind of step is made of updates that each keep the invariant. -/
theorem everyStepKeepsTheInvariant : Obligations.EveryStepKeepsTheInvariant := by
  unfold Obligations.EveryStepKeepsTheInvariant
  intro s t hs h
  have hpop := popMove_inv hs
  cases step_cases h with
  | rests _ ht => exact ht ▸ hpop
  | rejects hr _ ht => exact ht ▸ rejectWord_inv hpop hr _ _
  | command hr _ hruns => exact hruns.inv hpop hr
  | resets _ ht => exact ht ▸ resetAt_inv _ _
  | reads _ ht =>
    exact ht ▸ ⟨hpop.dmemWf, hpop.cmdWf, hpop.bufSizeOk, hpop.doneIdle, hpop.noFault, hpop.faultCp, hpop.overrun,
      hpop.untriggered⟩
  | writes _ _ _ ht => exact ht ▸ (hostWriteEffect_cases (popMove s) _ _).inv hpop

/-! ## Overtone phases -/

theorem otsInRange_iff (s : State) :
    OtsInRange s ↔ ∀ a, 0xC000 ≤ a → a < 0xEEE0 → PhaseInRange (s.dmemWord a) := by
  refine ⟨fun h a hlo hhi => ?_, fun h v hv i hi => ⟨h _ (by omega) (by omega), h _ (by omega) (by omega)⟩⟩
  obtain ⟨hph, hrm⟩ := h ((a - 0xC000) / 1200) (by omega) ((a - 0xC000) % 1200 / 2) (by omega)
  rcases Nat.mod_two_eq_zero_or_one a with hpar | hpar
  · rwa [show 0xC000 + 2 * (600 * ((a - 0xC000) / 1200) + (a - 0xC000) % 1200 / 2) = a by omega] at hph
  · rwa [show 0xC000 + 2 * (600 * ((a - 0xC000) / 1200) + (a - 0xC000) % 1200 / 2) + 1 = a by omega] at hrm

/-- Nothing is listed after a reset, so the overtone state reads 0 (70_reset_and_hazards.md R372). -/
theorem dmemWord_ots_of_empty {s : State} (h : s.dmem = []) {a : Nat} (hlo : 0xC000 ≤ a) (hhi : a < 0xEEE0) :
    s.dmemWord a = 0x00000000#32 := by
  have hbyte (x : Nat) (hx : x / 4 = a) : s.dmemByte x = 0#8 := by
    simp [State.dmemByte, Memory.read, h, Memory.listed, Space.unlisted, dmemIsOts, hx, hlo, hhi]
  rw [State.dmemWord, hbyte _ (by omega), hbyte _ (by omega), hbyte _ (by omega), hbyte _ (by omega)]
  rfl

theorem Effect.otsInRange {s u : State} {i : Instr} (h : Effect s i u)
    (hb : s.bufSize = 0#32 ∨ LegalBufSize s.bufSize) (hstv : ∀ r a, i ≠ .stv r a) (hs : OtsInRange s) :
    OtsInRange u := by
  rw [otsInRange_iff] at hs ⊢
  intro a hlo hhi
  obtain hdmem | hstores := h.dmem hb
  · have hepoch : u.epoch = s.epoch := by
      obtain ⟨_, _, _, _, _, _, _, _, _, _, rfl⟩ := h.keepsSequencer
      rfl
    rw [dmemWord_eq_of_dmem hdmem hepoch]
    exact hs a hlo hhi
  · obtain hsame | ⟨-, ⟨r, x, hi⟩ | hphase⟩ := hstores.dmemWord_cases a
    · exact hsame ▸ hs a hlo hhi
    · exact absurd hi (hstv r x)
    · exact hphase hlo

/-- Settles O48: KRENDER stores only wrapped phases into the overtone state, and no other command but STV stores there. -/
theorem overtonePhasesStayInRange : Obligations.OvertonePhasesStayInRange := by
  unfold Obligations.OvertonePhasesStayInRange
  refine ⟨?_, fun s t w i hb hs hf hd hstv ht => ?_⟩
  · rw [otsInRange_iff]
    intro a hlo hhi
    rw [dmemWord_ots_of_empty rfl hlo hhi]
    exact ⟨by decide, by decide⟩
  · rw [step_of_decode_ok hf hd] at ht
    cases runs_of_exec ht with
    | ends h => exact h ▸ hs
    | raises _ h => exact h ▸ hs
    | finishes he h =>
      intro v hv j hj
      rw [h, dmemWord_complete, dmemWord_complete]
      exact he.otsInRange hb hstv hs v hv j hj

end Sys2Proof.Proofs
end

section
/-! The host's port (20_memory.md R103; 60_exceptions.md R350 to R356) and reset (70_reset_and_hazards.md R370 to R376). -/

namespace Sys2Proof.Proofs

open Sys2Proof.Machine Sys2Proof.Safety Sys2Proof.Laws

/-! ## Where a port address leads -/

theorem portTarget_unmapped {addr : BitVec 19}
    (h : (0x41000 ≤ addr.toNat ∧ addr.toNat < 0x50000) ∨ (0x54000 ≤ addr.toNat ∧ addr.toNat < 0x60000) ∨
      (0x60000 < addr.toNat ∧ addr.toNat < 0x60004) ∨ 0x60008 ≤ addr.toNat) : portTarget addr = .unmapped := by
  unfold portTarget
  rw [if_neg (by rw [portBytes_eq, Config.dmemWords]; omega), if_neg (by rw [portBytes_eq, Config.cmdWords]; omega),
    if_neg (by rw [portBytes_eq, Config.crSpace, Bool.and_eq_true, decide_eq_true_eq, decide_eq_true_eq]; omega),
    if_neg (by omega), if_neg (by omega)]

theorem portTarget_status : portTarget 0x60004#19 = .status := by decide

/-- The port address of word `a` of data memory. -/
theorem portTarget_dmemWord {a : Nat} (h : a < 65536) : portTarget (BitVec.ofNat 19 (4 * a)) = .dmem a := by
  have hnat : (BitVec.ofNat 19 (4 * a)).toNat = 4 * a := by rw [BitVec.toNat_ofNat]; omega
  rw [portTarget_dmem (by omega), hnat, Nat.mul_div_cancel_left a (by norm_num)]

/-- The port address of CMD[k]. -/
theorem portTarget_cmdWord {k : Nat} (h : k < 1024) : portTarget (BitVec.ofNat 19 (0x40000 + 4 * k)) = .cmd k := by
  have hnat : (BitVec.ofNat 19 (0x40000 + 4 * k)).toNat = 0x40000 + 4 * k := by rw [BitVec.toNat_ofNat]; omega
  rw [portTarget_cmd (by omega) (by omega), hnat, Nat.add_sub_cancel_left, Nat.mul_div_cancel_left k (by norm_num)]

/-- The port address of control register number `n`. -/
theorem portTarget_crNumber {n : Nat} (h : n < 4096) :
    portTarget (BitVec.ofNat 19 (0x50000 + 4 * n)) = .cr (BitVec.ofNat 12 n) := by
  have hnat : (BitVec.ofNat 19 (0x50000 + 4 * n)).toNat = 0x50000 + 4 * n := by rw [BitVec.toNat_ofNat]; omega
  rw [portTarget_cr (by omega) (by omega), hnat, Nat.add_sub_cancel_left, Nat.mul_div_cancel_left n (by norm_num)]

theorem toNat_crNumber {n : Nat} (h : n < 4096) : (BitVec.ofNat 12 n).toNat = n := by
  rw [BitVec.toNat_ofNat]
  omega

/-! ## Reads -/

theorem hostRead_of_target {s : State} (hr : s.runState ≠ .running) {addr : BitVec 19} (ha : addr.toNat % 4 = 0)
    {target : PortTarget} (ht : portTarget addr = target) :
    hostRead s addr 4 = .next { s with portData := hostReadValue s target } :=
  ht ▸ portAccess_reaches _ ha (.inl hr)

theorem hostReadValue_dmem (s : State) {a : Nat} (h : ¬ Reserved a) : hostReadValue s (.dmem a) = s.dmemWord a :=
  if_neg (mt (dmemReserved_iff a).1 h)

theorem hostReadValue_reserved (s : State) {a : Nat} (h : Reserved a) : hostReadValue s (.dmem a) = 0#32 :=
  if_pos ((dmemReserved_iff a).2 h)

theorem hostReadValue_cr {s : State} {n : Nat} (hn : n < 4096) {a : Access} {w : Word} (h : CrRow s n a w) :
    hostReadValue s (.cr (BitVec.ofNat 12 n)) = w := by
  obtain ⟨q, hq, -, rfl⟩ := crOf_of_crRow (n := BitVec.ofNat 12 n) ((toNat_crNumber hn).symm ▸ h)
  simp only [hostReadValue, hq]

theorem hostReadValue_crReserved (s : State) {n : Nat} (hn : n < 4096) (h : CrReserved n) :
    hostReadValue s (.cr (BitVec.ofNat 12 n)) = 0#32 := by
  have hq : crOf (BitVec.ofNat 12 n) = none := (crOf_eq_none_iff _).2 ((toNat_crNumber hn).symm ▸ h)
  simp only [hostReadValue, hq]

/-- Between the windows a read gives 0, at HOST_GO too. -/
theorem hostReadValue_outside (s : State) {addr : BitVec 19} (ha : addr.toNat % 4 = 0)
    (h : (0x41000 ≤ addr.toNat ∧ addr.toNat < 0x50000) ∨ (0x54000 ≤ addr.toNat ∧ addr.toNat < 0x60004) ∨
      0x60008 ≤ addr.toNat) : hostReadValue s (portTarget addr) = 0#32 := by
  by_cases hgo : addr = 0x60000#19
  · rw [hgo, portTarget_go]
    rfl
  · have hne : addr.toNat ≠ 0x60000 := fun e => hgo (BitVec.eq_of_toNat_eq e)
    rw [portTarget_unmapped (by omega)]
    rfl

/-- Settles O57: each clause names the target of its address; what a target delivers is the map's value or 0. -/
theorem hostReadsFollowThePortMap : Obligations.HostReadsFollowThePortMap := by
  unfold Obligations.HostReadsFollowThePortMap
  intro s hr
  refine ⟨fun a ha h => ?_, fun a ha h => ?_, fun k hk => ?_, fun n hn a w h => ?_, fun n hn h => ?_, ?_,
    fun addr ha h => ?_⟩
  · rw [hostRead_of_target hr (by rw [BitVec.toNat_ofNat]; omega) (portTarget_dmemWord ha), hostReadValue_dmem s h]
  · rw [hostRead_of_target hr (by rw [BitVec.toNat_ofNat]; omega) (portTarget_dmemWord ha), hostReadValue_reserved s h]
  · exact hostRead_of_target hr (by rw [BitVec.toNat_ofNat]; omega) (portTarget_cmdWord hk)
  · rw [hostRead_of_target hr (by rw [BitVec.toNat_ofNat]; omega) (portTarget_crNumber hn), hostReadValue_cr hn h]
  · rw [hostRead_of_target hr (by rw [BitVec.toNat_ofNat]; omega) (portTarget_crNumber hn),
      hostReadValue_crReserved s hn h]
  · exact hostRead_of_target hr (by decide) portTarget_status
  · rw [hostRead_of_target hr ha rfl, hostReadValue_outside s ha h]

/-! ## Writes -/

theorem hostWrite_of_target {s : State} (hr : s.runState ≠ .running) {addr : BitVec 19} (ha : addr.toNat % 4 = 0)
    {target : PortTarget} (ht : portTarget addr = target) (v : Word) :
    hostWrite s addr 4 v = .next (hostWriteEffect s v target) :=
  ht ▸ portAccess_reaches _ ha (.inl hr)

theorem hostWriteEffect_dmem (s : State) (v : Word) {a : Nat} (h : ¬ Reserved a) :
    hostWriteEffect s v (.dmem a) = s.writeDmem a v := if_neg (mt (dmemReserved_iff a).1 h)

theorem hostWriteEffect_reserved (s : State) (v : Word) {a : Nat} (h : Reserved a) :
    hostWriteEffect s v (.dmem a) = s := if_pos ((dmemReserved_iff a).2 h)

theorem hostWriteEffect_cr (s : State) {v : Word} {n : BitVec 12} {q : CrName} (hq : crOf n = some q)
    (hf : crwFault n v = none) : hostWriteEffect s v (.cr n) = s.storeCr q v := by
  simp [hostWriteEffect, hq, hf]

/-- Where a CRW of the value would fault the host's write is ignored (60_exceptions.md R352). -/
theorem hostWriteEffect_crFault (s : State) {v : Word} {n : BitVec 12} {f : FaultCause × Word}
    (hf : crwFault n v = some f) : hostWriteEffect s v (.cr n) = s := by
  cases hq : crOf n <;> simp [hostWriteEffect, hq, hf]

/-- A host write into a read-write register stores the value there and nothing elsewhere. -/
theorem hostWriteEffect_rw {s : State} {n : Nat} (hn : n < 4096) {w : Word} (v : Word) (h : CrRow s n .rw w) :
    ∃ t, hostWriteEffect s v (.cr (BitVec.ofNat 12 n)) = t ∧
      CrRow t n .rw v ∧ SameCrBut n s t ∧ SameV s t ∧ SameDmem s t ∧ SameCmd s t ∧ SameCounters s t ∧ SameModel s t ∧
      SameFaultRegs s t ∧ t.runState = s.runState ∧ t.done = s.done ∧ t.cp = s.cp := by
  obtain ⟨q, hq, hacc, -⟩ := crOf_of_crRow (n := BitVec.ofNat 12 n) ((toNat_crNumber hn).symm ▸ h)
  have hnum : crNum q = n := (crOf_num hq).trans (toNat_crNumber hn)
  refine ⟨_, hostWriteEffect_cr s hq (crwFault_of_rw v hq hacc),
    crRow_iff.2 ⟨q, hnum, hacc, readCr_storeCr_same s v (.inl hacc)⟩,
    hnum ▸ sameCrBut_of_readCr fun p _ hne => readCr_storeCr_ne s v hne, ?_⟩
  obtain ⟨_, _, _, _, _, heq⟩ := storeCr_eq s q v
  rw [heq]
  exact ⟨fun _ => rfl, fun _ => rfl, fun _ => rfl, ⟨rfl, rfl, rfl⟩, ⟨rfl, rfl, rfl⟩, ⟨rfl, rfl, rfl⟩, rfl, rfl, rfl⟩

theorem portTarget_bufSize : portTarget 0x50044#19 = .cr 0x011#12 := by decide

theorem hostWriteEffect_egFlags (s : State) (v : Word) (c : Ctx) :
    hostWriteEffect s v (.cr (BitVec.ofNat 12 (0x100 + 32 * c.toNat + 8))) =
      s.setEg c { s.getEg c with autoRelease := v.getLsbD 0 } := by
  have hc : c.toNat < 64 := c.isLt
  have hq : crOf (BitVec.ofNat 12 (0x100 + 32 * c.toNat + 8)) = some (.egFlags c) :=
    crOf_crNum (toNat_crNumber (by omega))
  exact hostWriteEffect_cr s hq (crwFault_of_warl v hq rfl)

/-- A reserved or read-only register ignores the host's writes. -/
theorem hostWriteEffect_fixed {s : State} {n : Nat} (hn : n < 4096) (v : Word)
    (h : CrReserved n ∨ ∃ w, CrRow s n .ro w) : hostWriteEffect s v (.cr (BitVec.ofNat 12 n)) = s := by
  obtain hres | ⟨w, hrow⟩ := h
  · exact hostWriteEffect_crFault s (crwFault_of_none v ((crOf_eq_none_iff _).2 ((toNat_crNumber hn).symm ▸ hres)))
  · obtain ⟨q, hq, hacc, -⟩ := crOf_of_crRow (n := BitVec.ofNat 12 n) ((toNat_crNumber hn).symm ▸ hrow)
    exact hostWriteEffect_crFault s (crwFault_of_ro v hq hacc)

/-- Settles O58: each clause names the target of its address; a target takes the store or ignores it. -/
theorem hostWritesFollowThePortMap : Obligations.HostWritesFollowThePortMap := by
  unfold Obligations.HostWritesFollowThePortMap
  intro s v hr
  refine ⟨fun a ha h => ?_, fun a ha h => ?_, fun k hk => ?_, fun n hn w h => ?_, fun h => ?_, fun h => ?_, fun c => ?_,
    fun n hn h => ?_, ?_, fun addr ha h => ?_⟩
  · refine ⟨s.writeDmem a v, ?_, dmemWord_writeDmem_same s a v, fun x hx => dmemByte_writeDmem_ne s v hx, rfl⟩
    rw [hostWrite_of_target hr (by rw [BitVec.toNat_ofNat]; omega) (portTarget_dmemWord ha), hostWriteEffect_dmem s v h]
  · rw [hostWrite_of_target hr (by rw [BitVec.toNat_ofNat]; omega) (portTarget_dmemWord ha),
      hostWriteEffect_reserved s v h]
  · exact ⟨s.writeCmd k v, hostWrite_of_target hr (by rw [BitVec.toNat_ofNat]; omega) (portTarget_cmdWord hk) v,
      cmdWord_writeCmd_same s k v, fun x hx => by rw [cmdByte_writeCmd, if_neg hx], rfl⟩
  · obtain ⟨t, ht, hframe⟩ := hostWriteEffect_rw hn v h
    refine ⟨t, ?_, hframe⟩
    rw [hostWrite_of_target hr (by rw [BitVec.toNat_ofNat]; omega) (portTarget_crNumber hn), ht]
  · rw [hostWrite_of_target hr (by decide) portTarget_bufSize,
      hostWriteEffect_cr s crOf_bufSize (crwFault_bufSize_of_legal h)]
    rfl
  · rw [hostWrite_of_target hr (by decide) portTarget_bufSize,
      hostWriteEffect_crFault s (crwFault_bufSize_of_illegal h)]
  · have hc : c.toNat < 64 := c.isLt
    rw [hostWrite_of_target hr (by rw [BitVec.toNat_ofNat]; omega) (portTarget_crNumber (by omega)),
      hostWriteEffect_egFlags]
  · rw [hostWrite_of_target hr (by rw [BitVec.toNat_ofNat]; omega) (portTarget_crNumber hn),
      hostWriteEffect_fixed hn v h]
  · exact hostWrite_of_target hr (by decide) portTarget_status v
  · exact hostWrite_of_target hr ha (portTarget_unmapped (by omega)) v

/-! ## Refusals (60_exceptions.md R356) -/

theorem portAccess_of_bad_form {s : State} {addr : BitVec 19} {width : Nat} (k : PortTarget → Result)
    (h : width ≠ 4 ∨ addr.toNat % 4 ≠ 0) : portAccess s addr width k = .refused .hostAccessNotAligned32 := if_pos h

theorem inWindow_of_bounds {addr : BitVec 19} (h : addr.toNat < 0x41000 ∨ (0x50000 ≤ addr.toNat ∧ addr.toNat < 0x54000)) :
    (portTarget addr).inWindow = true := by
  rcases Nat.lt_or_ge addr.toNat 0x40000 with hdmem | hdmem
  · rw [portTarget_dmem hdmem]
    rfl
  · rcases h with hcmd | ⟨hlo, hhi⟩
    · rw [portTarget_cmd hdmem hcmd]
      rfl
    · rw [portTarget_cr hlo hhi]
      rfl

theorem portAccess_while_running {s : State} {addr : BitVec 19} (k : PortTarget → Result) (hr : s.runState = .running)
    (ha : addr.toNat % 4 = 0) (h : addr.toNat < 0x41000 ∨ (0x50000 ≤ addr.toNat ∧ addr.toNat < 0x54000)) :
    portAccess s addr 4 k = .refused .hostAccessWhileRunning :=
  (if_neg (by simp [ha])).trans (if_pos ⟨hr, inWindow_of_bounds h⟩)

/-- Settles O59: the access checks come before the access, and HOST_STATUS lies in no window. -/
theorem hostBreachesAreRefused : Obligations.HostBreachesAreRefused := by
  unfold Obligations.HostBreachesAreRefused
  refine ⟨fun s addr width v h => ⟨portAccess_of_bad_form _ h, portAccess_of_bad_form _ h⟩,
    fun s addr v hr ha h => ⟨portAccess_while_running _ hr ha h, portAccess_while_running _ hr ha h⟩, fun s _ => ?_⟩
  exact (portAccess_reaches _ (by decide) (.inr (by rw [portTarget_status]; rfl))).trans (by rw [portTarget_status]; rfl)

/-! ## The host and the vector registers -/

theorem step_of_move {s : State} {m : HostMove} {rest : List HostMove} (h : s.inputs = m :: rest) :
    step s = moveStep m { s with inputs := rest } := by
  simp only [step, stepBody, h]

theorem sameV_of_hostRead {s t : State} {addr : BitVec 19} {width : Nat} (h : hostRead s addr width = .next t) :
    SameV s t := by
  obtain ⟨-, -, -, hk⟩ := portAccess_next h
  obtain rfl := Host.Outcome.next.inj hk
  exact fun _ => rfl

theorem sameV_of_hostWrite {s t : State} {addr : BitVec 19} {width : Nat} {v : Word}
    (h : hostWrite s addr width v = .next t) : SameV s t := by
  obtain ⟨-, -, -, hk⟩ := portAccess_next h
  obtain rfl := Host.Outcome.next.inj hk
  exact (hostWriteEffect_cases s v _).sameRegisters.1

theorem hostReadValue_vregs (s : State) (vs : Vector Lanes 16) (target : PortTarget) :
    hostReadValue { s with vregs := vs } target = hostReadValue s target := by
  cases target with
  | cr n =>
    cases hq : crOf n with
    | none => simp only [hostReadValue, hq]
    | some q =>
      simp only [hostReadValue, hq]
      cases q <;> rfl
  | _ => rfl

/-- Settles O60: a port access reads and writes no vector register. -/
theorem hostMovesLeaveTheVectorRegistersAlone : Obligations.HostMovesLeaveTheVectorRegistersAlone := by
  unfold Obligations.HostMovesLeaveTheVectorRegistersAlone
  refine ⟨fun s t m rest hin hpass hreset h => ?_, fun s t t' vs addr n h h' => ?_⟩
  · rw [step_of_move hin] at h
    cases m with
    | pass => exact absurd rfl hpass
    | reset => exact absurd rfl hreset
    | read addr width => exact sameV_of_hostRead (s := { s with inputs := rest }) h
    | write addr width v => exact sameV_of_hostWrite (s := { s with inputs := rest }) h
  · obtain ⟨-, -, -, hk⟩ := portAccess_next h
    obtain ⟨-, -, -, hk'⟩ := portAccess_next h'
    obtain rfl := Host.Outcome.next.inj hk
    obtain rfl := Host.Outcome.next.inj hk'
    exact hostReadValue_vregs s vs _

/-! ## Reset -/

section
variable (epoch : Nat) (inputs : List HostMove)

/-- The state that a RESET move leaves, with the host's moves still to come. -/
def resetState : State := { State.resetAt epoch with inputs := inputs }

theorem getEg_resetState (c : Ctx) : (resetState epoch inputs).getEg c = EgContext.reset := getEg_resetAt epoch c

theorem toNat_ctx {c : Nat} (hc : c < 64) : (BitVec.ofNat 6 c : Ctx).toNat = c := by
  rw [BitVec.toNat_ofNat]
  omega

theorem crRow_egParam_reset {c : Nat} (hc : c < 64) (k : Fin 8) :
    CrRow (resetState epoch inputs) (0x100 + 32 * c + k.val) .rw (egParamGet EgParams.reset k) := by
  refine crRow_iff.2 ⟨.egParam (BitVec.ofNat 6 c) k, by rw [crNum, toNat_ctx hc], rfl, ?_⟩
  rw [State.readCr, getEg_resetState]
  rfl

theorem crRow_egFlags_reset {c : Nat} (hc : c < 64) :
    CrRow (resetState epoch inputs) (0x100 + 32 * c + 8) .warl 0x00000000#32 := by
  refine crRow_iff.2 ⟨.egFlags (BitVec.ofNat 6 c), by rw [crNum, toNat_ctx hc], rfl, ?_⟩
  rw [State.readCr, getEg_resetState]
  rfl

theorem crRow_egState_reset {c k : Nat} (hc : c < 64) (hk : k < 8) :
    CrRow (resetState epoch inputs) (0x100 + 32 * c + 9 + k) .ro 0x00000000#32 := by
  refine crRow_iff.2 ⟨.egState (BitVec.ofNat 6 c) ⟨k, hk⟩, by rw [crNum, toNat_ctx hc, ← Nat.add_assoc], rfl, ?_⟩
  rw [State.readCr, getEg_resetState]
  interval_cases k <;> rfl

theorem crRow_noteFreq_reset {v : Nat} (hv : v < 10) : CrRow (resetState epoch inputs) (0x040 + v) .rw 0x00000000#32 := by
  refine crRow_iff.2 ⟨.noteFreq ⟨v, hv⟩, rfl, rfl, ?_⟩
  simp [State.readCr, resetState, State.resetAt]

theorem status_resetState : (resetState epoch inputs).status = 0x00000000#32 := by
  simp only [State.status, State.statusCause, State.statusFault, State.statusRun, resetState, State.resetAt]
  decide

/-- The sequencer's registers read 0. -/
theorem crRow_low_reset {n : Nat} {a : Access} {w : Word} (h : CrRow (resetState epoch inputs) n a w) (hn : n ≤ 0x007) :
    w = 0x00000000#32 := by
  obtain ⟨q, rfl, rfl, rfl⟩ := exists_name_of_crRow h
  cases q with
  | status => exact status_resetState epoch inputs
  | faultCp | faultWord | faultInfo | ovtIterCount | renderCount | fastpathCount | cpReg => rfl
  | implId | implParams | implParams2 | sampleRate | bufSize => simp [crNum] at hn
  | kernel | noteFreq | egParam | egFlags | egState => simp only [crNum] at hn; omega

theorem resetValues_resetState : ResetValues (resetState epoch inputs) := by
  refine ⟨rfl, rfl, rfl, fun a w h => crRow_low_reset _ _ h (by norm_num), fun n a w h _ hn => crRow_low_reset _ _ h hn,
    .implId, .implParams, .implParams2, .sampleRate, .bufSize, .overtoneCount, .sumStart, .ampPowBase, .ampIdxMul,
    .hsIdxMul, .hsOffset, .hsExp, .boostCenter, .boostSharp, .boostExp, .boostDb, .rmRate, .rmDepth, .rmPhaseOfs,
    .stereoWidth, fun v hv => crRow_noteFreq_reset _ _ hv, fun c hc k hk => ?_, fun c hc k hk => ?_,
    fun c hc => crRow_egFlags_reset _ _ hc, fun c hc k hk => crRow_egState_reset _ _ hc hk,
    fun c => by rw [getEg_resetState]; rfl, fun a hlo hhi => dmemWord_ots_of_empty rfl hlo (by omega)⟩
  · have hrow (j : Fin 8) := crRow_egParam_reset epoch inputs hc j
    simp only [List.mem_cons, List.not_mem_nil, or_false] at hk
    rcases hk with rfl | rfl | rfl | rfl | rfl
    exacts [hrow 0, hrow 2, hrow 3, hrow 5, hrow 7]
  · have hrow (j : Fin 8) := crRow_egParam_reset epoch inputs hc j
    simp only [List.mem_cons, List.not_mem_nil, or_false] at hk
    rcases hk with rfl | rfl | rfl
    exacts [hrow 1, hrow 4, hrow 6]

end

/-- Settles O55: every register row of a state after reset is read off its reset value. -/
theorem resetGivesEveryRegisterItsValue : Obligations.ResetGivesEveryRegisterItsValue := by
  unfold Obligations.ResetGivesEveryRegisterItsValue
  exact ⟨resetValues_resetState 0 [], fun s rest hin =>
    ⟨resetState (s.epoch + 1) rest, step_of_move hin, resetValues_resetState _ _, rfl⟩⟩

end Sys2Proof.Proofs
end

section
/-! Pseudo-instructions (30_encoding.md R134), an LDV after an STV (20_memory.md R104), the transcendental commands
(41_fastmath.md R190 to R193), and which command raises which fault (60_exceptions.md R330). -/

namespace Sys2Proof.Proofs

open Sys2Proof.Machine Sys2Proof.Safety Sys2Proof.Laws

/-! ## VLI, VZERO and the operand checks -/

theorem execAll_single {i : Instr} {s t : State} (h : exec i s = .next t) : execAll [i] s = .next t := by
  simp only [execAll, h]

theorem execAll_pair {i j : Instr} {s t u : State} (hi : exec i s = .next t) (hj : exec j t = .next u) :
    execAll [i, j] s = .next u := by
  simp only [execAll, hi, hj]

theorem append_halves (w : Word) : w.extractLsb' 16 16 ++ w.extractLsb' 0 16 = w := by
  apply BitVec.eq_of_getLsbD_eq
  intro i hi
  rw [BitVec.getLsbD_append]
  by_cases h : i < 16
  · simp [h]
  · simp [h, show i - 16 < 16 by omega, show 16 + (i - 16) = i by omega]

theorem immLow_immHigh (hi lo : BitVec 16) : immLow lo (immHigh hi) = hi ++ lo := by
  rw [immLow, immHigh, BitVec.extractLsb'_append_eq_left]

theorem low_half_eq_zero_iff (w : Word) : w.extractLsb' 0 16 = 0#16 ↔ w.toNat % 2 ^ 16 = 0 := by
  rw [← BitVec.toNat_inj, BitVec.extractLsb'_toNat, Nat.shiftRight_zero, BitVec.toNat_zero]

theorem length_expandVli (d : VReg) (w : Word) : (expandVli d w).length = if w.toNat % 2 ^ 16 = 0 then 1 else 2 := by
  simp only [expandVli, low_half_eq_zero_iff]
  split <;> rfl

/-- VLIH leaves its half above zeros; VLIL puts the other half under it unless that is 0. -/
theorem execAll_expandVli (d : VReg) (w : Word) (s : State) :
    ∃ t, execAll (expandVli d w) s = .next t ∧ (∀ l, (t.getV d).get l = w) ∧ SameVBut d s t := by
  obtain ⟨t, ht, ⟨-, hsame, -⟩, hlanes⟩ := finish_setV_splat s d (immHigh (w.extractLsb' 16 16))
  unfold expandVli
  split
  · next hlow =>
    refine ⟨t, execAll_single ht, fun l => ?_, hsame⟩
    rw [hlanes, immHigh, ← hlow, append_halves]
  · obtain ⟨u, hu, ⟨-, hsame', -⟩, hlanes'⟩ := finish_setV_map t d (immLow (w.extractLsb' 0 16))
    refine ⟨u, execAll_pair ht hu, fun l => ?_, fun r hr => (hsame' r hr).trans (hsame r hr)⟩
    rw [hlanes', hlanes, immLow_immHigh, append_halves]

/-- An operand check passes the numbers below its bound unchanged. -/
theorem checked_eq_some_iff {w bound n : Nat} (hb : bound ≤ 2 ^ w) (x : BitVec w) :
    (if n < bound then some (BitVec.ofNat w n) else none) = some x ↔ n < bound ∧ x.toNat = n := by
  split
  · next h =>
    have hnat : (BitVec.ofNat w n).toNat = n := by rw [BitVec.toNat_ofNat, Nat.mod_eq_of_lt (by omega)]
    rw [Option.some.injEq, ← BitVec.toNat_inj, hnat]
    simp [h, eq_comm]
  · next h => simp [h]

/-- Settles O5: VLI is one or two register writes whose halves make the immediate, and an operand check compares with the
number of values of its field. -/
theorem pseudoInstructionVliLoadsItsImmediate : Obligations.PseudoInstructionVliLoadsItsImmediate := by
  unfold Obligations.PseudoInstructionVliLoadsItsImmediate
  refine ⟨fun d w s _ => execAll_expandVli d w s, length_expandVli, fun d s => ?_, rfl, fun n => ?_⟩
  · obtain ⟨t, ht, ⟨-, hsame, -⟩, hlanes⟩ := finish_setV_splat s d (immHigh 0#16)
    exact ⟨t, execAll_single ht, hlanes, hsame⟩
  · have check {w : Nat} (bound : Nat) (hb : bound + 1 ≤ 2 ^ w) (x : BitVec w) :
        (if n < bound + 1 then some (BitVec.ofNat w n) else none) = some x ↔ n ≤ bound ∧ x.toNat = n := by
      rw [checked_eq_some_iff hb, Nat.lt_succ_iff]
    refine ⟨fun x => ?_, check 0xFFF (by norm_num), check 63 (by norm_num), check 3 (by norm_num), check 15 (by norm_num),
      fun x => ?_⟩
    · rw [Operand.imm16, ← check 0xFFFF (by norm_num) x]
      simp only [Nat.lt_succ_iff]
    · rw [Operand.vv, ← check 15 (by norm_num) x]
      simp only [Nat.lt_succ_iff]

/-! ## An LDV after an STV -/

theorem lanes_ext {u v : Lanes} (h : ∀ l, u.get l = v.get l) : u = v := by
  obtain ⟨u0, u1, u2, u3⟩ := u
  obtain ⟨v0, v1, v2, v3⟩ := v
  obtain rfl : u0 = v0 := h 0
  obtain rfl : u1 = v1 := h 1
  obtain rfl : u2 = v2 := h 2
  obtain rfl : u3 = v3 := h 3
  rfl

/-- Settles O20: the LDV reads the four words that the STV stored. -/
theorem loadAfterStoreReturnsTheVector : Obligations.LoadAfterStoreReturnsTheVector := by
  unfold Obligations.LoadAfterStoreReturnsTheVector
  intro v d a s _ ha hres
  have hstorage := addressFault_of_storage ha hres
  obtain ⟨t, ht, -, hwords⟩ := finish_writeVec s a.toNat (s.getV v)
  obtain ⟨u, hu, -, hd⟩ := finish_setV t d (t.readVec a.toNat)
  refine ⟨t, u, (exec_stv_of_storage v s hstorage).trans ht, (exec_ldv_of_storage d t hstorage).trans hu, ?_⟩
  rw [hd]
  exact lanes_ext fun l => (get_readVec t _ l).trans (hwords l)

/-! ## FSIN, FCOS, FLOG and FEXP -/

/-- Settles O23: each command applies one function of the configuration to every lane. -/
theorem transcendentalCommandsApplyTheConfigurationPerLane :
    Obligations.TranscendentalCommandsApplyTheConfigurationPerLane := by
  unfold Obligations.TranscendentalCommandsApplyTheConfigurationPerLane
  exact ⟨encodedBy_of_rowOf 0x10#6 rfl, encodedBy_of_rowOf 0x11#6 rfl, encodedBy_of_rowOf 0x12#6 rfl,
    encodedBy_of_rowOf 0x13#6 rfl, fun d v s => ⟨fmuUnary_next _ d v s, fmuUnary_next _ d v s, fmuUnary_next _ d v s,
      fmuUnary_next _ d v s⟩⟩

/-! ## Faults by cause -/

/-- A rejected word's opcode is outside the map, or its row's mask finds other bits than the match. -/
theorem not_legal_of_rowOf_none {w : Word} (h : rowOf (fieldOp w) = none) : (w >>> 26).toNat ∉ legalOpcodes := by
  rw [← toNat_fieldOp, legalOpcodes, ← map_opTable, List.map_map, List.mem_map]
  rintro ⟨r, hr, hop⟩
  have hop' : r.op = fieldOp w := BitVec.eq_of_toNat_eq hop
  obtain ⟨q, hq, -⟩ := rowOf_self r hr
  rw [hop', h] at hq
  cases hq

theorem mem_opcodeMap_of_rowOf {w : Word} {r : OpRow} (h : rowOf (fieldOp w) = some r) :
    (r.op.toNat, r.pattern, r.mask) ∈ opcodeMap ∧ (w >>> 26).toNat = r.op.toNat := by
  obtain ⟨hmem, hop⟩ := rowOf_mem h
  refine ⟨?_, by rw [← toNat_fieldOp, hop]⟩
  rw [← map_opTable]
  exact List.mem_map.2 ⟨r, hmem, rfl⟩

/-- What the statement asks of each cause (60_exceptions.md R330), for a step that fetches `w` in `s`. -/
def CauseShows (s : State) (w : Word) (faultWord info : Word) : FaultCause → Prop
  | .illegalOpcode => (w >>> 26).toNat ∉ legalOpcodes ∧ info = w
  | .reservedField => ∃ op pattern mask, (op, pattern, mask) ∈ opcodeMap ∧ (w >>> 26).toNat = op ∧ w &&& mask ≠ pattern ∧
      info = w &&& mask &&& ~~~ pattern
  | .badAddress => ∃ r a, (decode w = .ok (.ldv r a) ∨ decode w = .ok (.stv r a)) ∧ a.toNat % 4 = 0 ∧ Reserved a.toNat ∧
      info = a.setWidth 32
  | .misaligned => ∃ r a, (decode w = .ok (.ldv r a) ∨ decode w = .ok (.stv r a)) ∧ a.toNat % 4 ≠ 0 ∧
      info = a.setWidth 32
  | .badCr => ∃ r n, (decode w = .ok (.crr r n) ∨ decode w = .ok (.crw n r)) ∧ CrReserved n.toNat ∧
      info = n.setWidth 32
  | .roWrite => ∃ r n v, decode w = .ok (.crw n r) ∧ CrRow s n.toNat .ro v ∧ info = n.setWidth 32
  | .badValue => ∃ r, decode w = .ok (.crw 0x011#12 r) ∧ ¬ LegalBufSize ((s.getV r).get 0) ∧ info = (s.getV r).get 0
  | .badIndex => ∃ v, decode w = .ok (.krender v) ∧ 10 ≤ v.toNat ∧ info = v.setWidth 32
  | .bufsizeUnset => s.bufSize = 0#32 ∧ (decode w = .ok .kclr ∨ ∃ v, decode w = .ok (.krender v) ∧ v.toNat < 10) ∧
      info = 0#32
  | .cpOverrun => s.cp = 1023#10 ∧ faultWord = 0#32 ∧ info = 1024#32

theorem rejectWord_causeShows (s : State) {w : Word} {e : DecodeError} (hd : decode w = .error e) :
    ∃ cause info, rejectWord s w e = s.takeFault cause w info ∧ CauseShows s w w info cause := by
  obtain ⟨hnone, rfl⟩ | ⟨r, hr, hm, rfl⟩ := decode_error hd
  · exact ⟨_, _, rfl, not_legal_of_rowOf_none hnone, rfl⟩
  · obtain ⟨hmem, hop⟩ := mem_opcodeMap_of_rowOf hr
    exact ⟨_, _, rfl, _, _, _, hmem, hop, hm, rfl⟩

/-- LDV and STV raise one of two causes, by their address. -/
theorem address_causeShows (s : State) {w : Word} {r : VReg} {a : BitVec 16} {cause : FaultCause} (faultWord : Word)
    (hd : decode w = .ok (.ldv r a) ∨ decode w = .ok (.stv r a)) (h : addressFault a.toNat = some cause) :
    CauseShows s w faultWord (a.setWidth 32) cause := by
  obtain ⟨hal, hf⟩ | ⟨hal, hres, hf⟩ | ⟨-, -, hf⟩ := addressFault_cases a.toNat
  · cases hf.symm.trans h
    exact ⟨r, a, hd, hal, rfl⟩
  · cases hf.symm.trans h
    exact ⟨r, a, hd, hal, hres, rfl⟩
  · cases hf.symm.trans h

/-- CRW raises one of three causes, by the register that its number names. -/
theorem crw_causeShows (s : State) {w : Word} {r : VReg} {n : BitVec 12} {cause : FaultCause} {info : Word}
    (faultWord : Word) (hd : decode w = .ok (.crw n r)) (h : crwFault n ((s.getV r).get 0) = some (cause, info)) :
    CauseShows s w faultWord info cause := by
  obtain ⟨hq, rfl, rfl⟩ | ⟨q, hq, hacc, rfl, rfl⟩ | ⟨hq, hill, rfl, rfl⟩ := crwFault_cases h
  · exact ⟨r, n, .inr hd, (crOf_eq_none_iff n).1 hq, rfl⟩
  · exact ⟨r, n, _, hd, crOf_num hq ▸ hacc ▸ crRow_crNum s q, rfl⟩
  · obtain rfl : n = 0x011#12 := BitVec.eq_of_toNat_eq (crOf_num hq).symm
    exact ⟨r, hd, hill, rfl⟩

/-- Decoding lets no VBCAST with a lane field of 4 or more through. -/
theorem lane_lt_of_decode {w : Word} {d v : VReg} {lane : BitVec 4} (hd : decode w = .ok (.vbcast d v lane)) :
    lane.toNat < Config.lanes := by
  obtain ⟨-, hwf⟩ := everyDecodedWordIsTheEncodingOfItsCommand w _ hd
  exact of_decide_eq_true hwf

theorem Raises.causeShows {s : State} {i : Instr} {cause : FaultCause} {info : Word} (h : Raises s i cause info)
    {w : Word} (hd : decode w = .ok i) (faultWord : Word) : CauseShows s w faultWord info cause := by
  cases h with
  | lane d v hlane => exact absurd (lane_lt_of_decode hd) hlane
  | load d ha => exact address_causeShows s faultWord (.inl hd) ha
  | store v ha => exact address_causeShows s faultWord (.inr hd) ha
  | readCr d hq => exact ⟨d, _, .inl hd, (crOf_eq_none_iff _).1 hq, rfl⟩
  | writeCr hf => exact crw_causeShows s faultWord hd hf
  | clear hb => exact ⟨hb, .inl hd, rfl⟩
  | renderUnset hv hb => exact ⟨hb, .inr ⟨_, hd, hv⟩, rfl⟩
  | renderIndex hv => exact ⟨_, hd, hv, rfl⟩

theorem takeFault_causeShows {s : State} {w fw info : Word} {cause c : FaultCause} (h : CauseShows s w fw info cause)
    (hc : (s.takeFault cause fw info).runState = .faulted c) :
    CauseShows s w (s.takeFault cause fw info).faultWord (s.takeFault cause fw info).faultInfo c := by
  cases hc
  exact h

/-- A command that runs to its end faults at index 1023 alone. -/
theorem ended_causeShows {s t : State} (w : Word) (hr : s.runState = .running) (h : Ended s t) {c : FaultCause}
    (hc : t.runState = .faulted c) : CauseShows s w t.faultWord t.faultInfo c := by
  obtain ⟨-, hlt, hlast⟩ := h
  rcases Nat.lt_or_ge s.cp.toNat 1023 with hcp | hcp
  · obtain ⟨-, hrun, -⟩ := hlt hcp
    rw [hrun, hr] at hc
    cases hc
  · have hcp' : s.cp.toNat = 1023 := by have := s.cp.isLt; omega
    obtain ⟨-, hfault, -, hword, hinfo⟩ := hlast hcp'
    rw [hfault] at hc
    cases hc
    exact ⟨BitVec.eq_of_toNat_eq hcp', hword, hinfo⟩

theorem step_causeShows {s t : State} {w : Word} {c : FaultCause} (hf : Fetches s w) (h : step s = .next t)
    (hc : t.runState = .faulted c) : CauseShows s w t.faultWord t.faultInfo c := by
  cases hd : decode w with
  | error e =>
    obtain ⟨cause, info, hreject, hshows⟩ := rejectWord_causeShows s hd
    obtain rfl := Host.Outcome.next.inj ((step_of_decode_error hf hd).symm.trans h)
    rw [hreject] at hc ⊢
    exact takeFault_causeShows hshows hc
  | ok i =>
    have ⟨hr, _⟩ := hf
    cases runs_of_exec ((step_of_decode_ok hf hd).symm.trans h) with
    | ends ht =>
      subst ht
      cases hc
    | raises hraise ht =>
      subst ht
      exact takeFault_causeShows (hraise.causeShows hd _) hc
    | finishes he ht =>
      subst ht
      exact ended_causeShows w hr he.complete_frame.1 hc

/-- Settles O13: a fault is a rejected word, one of the faults a command raises, or the overrun at the end of a command. -/
theorem eachFaultCauseHasItsRaiserAndInformation : Obligations.EachFaultCauseHasItsRaiserAndInformation := by
  unfold Obligations.EachFaultCauseHasItsRaiserAndInformation
  intro s t w c hf h hc
  have hshows := step_causeShows hf h hc
  cases c <;> exact hshows

end Sys2Proof.Proofs
end

section
/-! The exact clauses of the FastMath contract for the reference (41_fastmath.md R183 to R187), and the corner cases of
fm_pow that every configuration shares (R188, R189). -/

namespace Sys2Proof.Proofs

open Sys2Proof.Machine Sys2Proof.Safety Sys2Proof.Laws

/-! ## Comparisons chained -/

theorem fLt_of_fLt_of_fLe {a b c : Word} (h1 : fLt a b = true) (h2 : fLe b c = true) : fLt a c = true := by
  rw [fLt_iff] at h1 ⊢
  rw [fLe_iff] at h2
  obtain ⟨ha, -, hab⟩ := h1
  obtain ⟨-, hc, hbc⟩ := h2
  exact ⟨ha, hc, hab.trans_le hbc⟩

theorem fLt_eq_false_of_fLe {a b : Word} (h : fLe b a = true) : fLt a b = false := by
  rw [Bool.eq_false_iff, ne_eq, fLt_iff]
  rw [fLe_iff] at h
  obtain ⟨-, -, hba⟩ := h
  exact fun ⟨_, _, hab⟩ => absurd hab (not_lt.2 hba)

theorem fLe_of_fLt {a b : Word} (h : fLt a b = true) : fLe a b = true := by
  rw [fLt_iff] at h
  rw [fLe_iff]
  obtain ⟨ha, hb, hab⟩ := h
  exact ⟨ha, hb, hab.le⟩

/-- A maximum with a number is not below it, whatever the other operand. -/
theorem le_fMax (x : Word) {lo : Word} (h : isNaN lo = false) : fLe lo (fMax x lo) = true := by
  rw [fMax]
  split
  · next hgt => exact fLe_of_fLt hgt
  · exact fLe_refl h

/-- A clamp lies between its bounds, for a NaN too. -/
theorem fClamp_bounds (x : Word) {lo hi : Word} (h : fLe lo hi = true) :
    fLe lo (fClamp x lo hi) = true ∧ fLe (fClamp x lo hi) hi = true := by
  obtain ⟨hlo, hhi, -⟩ := (fLe_iff lo hi).1 h
  have hmax := le_fMax x hlo
  obtain ⟨-, hnan, -⟩ := (fLe_iff _ _).1 hmax
  obtain ⟨-, hle⟩ := fMin_le hnan hhi
  exact ⟨le_fMin hmax h, hle⟩

/-! ## The reference logarithm and exponential -/

/-- Below FLT_MIN the argument of the logarithm is FLT_MIN. -/
theorem fMax_fltMin {x : Word} (h : fLe x 0x00000000#32 = true ∨ (fLt 0x00000000#32 x = true ∧ fLt x 0x00800000#32 = true)) :
    fMax x Const.fltMin = Const.fltMin := by
  have hle : fLe x Const.fltMin = true := by
    rcases h with hzero | ⟨-, hsub⟩
    · exact fLe_trans hzero (by decide)
    · exact fLe_of_fLt hsub
  rw [fMax, fGt, fLt_eq_false_of_fLe hle]
  rfl

theorem refLog_of_not_normal {x : Word}
    (h : fLe x 0x00000000#32 = true ∨ (fLt 0x00000000#32 x = true ∧ fLt x 0x00800000#32 = true)) :
    fastMath.log x = 0xC2AEAC50#32 := by
  have hlog : refLogNormal Const.fltMin = 0xC2AEAC50#32 := by decide +kernel
  rw [show fastMath.log x = refLogNormal (fMax x Const.fltMin) from rfl, fMax_fltMin h, hlog]

theorem refExp_of_large {x : Word} (h : fGt x 0x42B17218#32 = true) : fastMath.exp x = 0x7F7FFFFF#32 := if_pos h

theorem refExp_of_small {x : Word} (h : fLt x 0xC2AEAC50#32 = true) : fastMath.exp x = 0x00800000#32 := by
  have hle : fLe x 0x42B17218#32 = true := fLe_trans (fLe_of_fLt h) (by decide)
  exact (if_neg (by rw [fGt, fLt_eq_false_of_fLe hle]; decide)).trans (if_pos h)

/-- The last step of the reference exponential is a clamp to [EXP_UNDER, EXP_OVER]. -/
theorem refExp_range (x : Word) :
    fLe 0x00800000#32 (fastMath.exp x) = true ∧ fLe (fastMath.exp x) 0x7F7FFFFF#32 = true := by
  show fLe 0x00800000#32 (refExp x) = true ∧ fLe (refExp x) 0x7F7FFFFF#32 = true
  rw [refExp]
  split
  · exact ⟨by decide, by decide⟩
  · split
    · exact ⟨by decide, by decide⟩
    · exact fClamp_bounds (scaleTwice (expPoly (expG x (expFx x))) (truncS32 (expFx x))) (by decide)

/-- Settles O25: outside the normal positive words the logarithm is that of FLT_MIN, the exponential ends with a clamp, and
the fixed values are computed. -/
theorem referenceMeetsTheExactClausesOfTheContract : Obligations.ReferenceMeetsTheExactClausesOfTheContract := by
  unfold Obligations.ReferenceMeetsTheExactClausesOfTheContract
  refine ⟨fun x => refLog_of_not_normal, fun x => refExp_of_large, fun x => refExp_of_small, fun x _ => refExp_range x, ?_⟩
  decide +kernel

/-! ## Exponent zero, base zero and exponents that are no numbers -/

theorem orderKey_fAbs (x : Word) : orderKey (fAbs x) = magBits x := by
  rw [fAbs_eq, orderKey_packWord _ (magBits_lt x)]
  rfl

/-- The logarithm of a finite magnitude is finite: the sentinel below FLT_MIN, near the real logarithm from there on. -/
theorem isFinite_log_fAbs {eps dom : ℝ} {fm : FM} (h : Contract eps dom fm) {b : Word} (hb : isFinite b = true) :
    isFinite (fm.log (fAbs b)) = true := by
  have hnan := not_nan_fAbs hb
  have hfin := (finite_iff b).1 hb
  have hkey : orderKey Const.zero = 0 ∧ orderKey Const.fltMin = 0x00800000 ∧ orderKey Const.fltMax = 0x7F7FFFFF := by decide
  obtain ⟨hzero, hmin, hmax⟩ := hkey
  rcases Nat.lt_or_ge (magBits b) 0x00800000 with hsmall | hnormal
  · have hsentinel : fm.log (fAbs b) = Config.logSentinel := by
      refine h.logSentinel _ ?_
      rw [fLe_iff, fLt_iff, fLt_iff, orderKey_fAbs, hzero, hmin]
      rcases Nat.eq_zero_or_pos (magBits b) with h0 | hpos
      · exact .inl ⟨hnan, by decide, by omega⟩
      · exact .inr ⟨⟨by decide, hnan, by omega⟩, hnan, by decide, by omega⟩
    rw [hsentinel]
    decide
  · refine (h.logNear _ ?_ ?_).1
    · rw [fLe_iff, orderKey_fAbs, hmin]
      exact ⟨by decide, hnan, by omega⟩
    · rw [fLe_iff, orderKey_fAbs, hmax]
      exact ⟨hnan, by decide, by omega⟩

theorem eq_zero_of_isZero {x : Word} (h : isZero x = true) : x = 0x00000000#32 ∨ x = 0x80000000#32 := by
  have hmag : magBits x = 0 := by simpa [isZero] using h
  cases hs : signBit x
  · exact .inl (word_ext hs (by rw [hmag]; rfl))
  · exact .inr (word_ext hs (by rw [hmag]; rfl))

theorem isZero_fMul {a b : Word} (ha : isFinite a = true) (hb : isFinite b = true) (h : isZero a = true ∨ isZero b = true) :
    isZero (fMul a b) = true := by
  have hunits : units a * units b = 0 := by
    rcases h with h | h
    · rw [← natAbs_extUnits a, (extUnits_eq_zero_iff a).2 h, Int.natAbs_zero, Nat.zero_mul]
    · rw [← natAbs_extUnits b, (extUnits_eq_zero_iff b).2 h, Int.natAbs_zero, Nat.mul_zero]
  rw [fMul_of_finite ha hb, hunits, roundUnits_zero]
  exact isZero_pack _

/-- A zero exponent is whole and even, so the sign policy keeps the result. -/
theorem powSign_zero_exponent (b r : Word) {z : Word} (hz : isZero z = true) (hf : isFinite z = true) :
    powSign b z r = r := by
  have hval := (extUnits_eq_zero_iff z).2 hz
  cases hb : fLt b Const.zero
  · exact powSign_of_not_negative z r hb
  · rw [powSign_of_whole r hb ⟨hf, by rw [hval]; rfl⟩, hval]
    rfl

theorem fmPow_zero_exponent {eps dom : ℝ} {fm : FM} (h : Contract eps dom fm) {b z : Word} (hb : isFinite b = true)
    (hz : isZero z = true) (hf : isFinite z = true) : fmPow fm b z = 0x3F800000#32 := by
  rw [fmPow, powSign_zero_exponent _ _ hz hf]
  obtain ⟨hpos, hneg⟩ := h.expZero
  obtain he | he := eq_zero_of_isZero (isZero_fMul hf (isFinite_log_fAbs h hb) (.inl hz))
  · rw [he, hpos]
  · rw [he, hneg]

theorem fmPow_zero_base_two {eps dom : ℝ} {fm : FM} (h : Contract eps dom fm) {b : Word} (hb : isZero b = true) :
    fmPow fm b 0x40000000#32 = 0x00800000#32 := by
  have habs : fAbs b = Const.zero ∧ fLt b Const.zero = false := by
    obtain rfl | rfl := eq_zero_of_isZero hb <;> decide
  rw [fmPow, powSign_of_not_negative _ _ habs.2, habs.1, h.logSentinel _ (.inl (by decide)),
    h.expUnder _ (by decide +kernel)]

/-- Settles O27: the logarithm of a finite base is finite, so a zero exponent multiplies it to a zero; the logarithm of a
zero base is the sentinel; an exponent that is no finite value is no integer. -/
theorem zeroExponentAndZeroBaseForEveryConfiguration : Obligations.ZeroExponentAndZeroBaseForEveryConfiguration := by
  unfold Obligations.ZeroExponentAndZeroBaseForEveryConfiguration
  intro eps dom fm h
  refine ⟨fun b hb => ⟨fmPow_zero_exponent h hb (by decide) (by decide), fmPow_zero_exponent h hb (by decide) (by decide)⟩,
    fmPow_zero_base_two h (by decide), fmPow_zero_base_two h (by decide), fun b e _ hneg he => ?_⟩
  exact powSign_of_not_whole _ hneg fun ⟨hfin, _⟩ => by simp [he] at hfin

end Sys2Proof.Proofs
end

section
/-! The envelope's properties (42_envelope.md R242, R243, R254 to R256): progress, segments of no length, no jump at a trigger
or an off, and the order of the timestamps. -/

namespace Sys2Proof.Proofs

open Sys2Proof.Machine Sys2Proof.Safety Sys2Proof.Laws

/-! ## Progress and shape -/

theorem progress_of_gt {t s e : Word} (h : fGt e s = true) :
    progress t s e = fClamp (fDiv (fSub t s) (fSub e s)) 0x00000000#32 0x3F800000#32 := if_pos h

theorem progress_of_not_gt {t s e : Word} (h : fGt e s = false) :
    progress t s e = if fGe t e then 0x3F800000#32 else 0x00000000#32 := if_neg (by simp [h])

theorem progress_bounds (t s e : Word) :
    fLe 0x00000000#32 (progress t s e) = true ∧ fLe (progress t s e) 0x3F800000#32 = true := by
  cases h : fGt e s
  · rw [progress_of_not_gt h]
    split <;> exact ⟨by decide, by decide⟩
  · rw [progress_of_gt h]
    exact fClamp_bounds _ (by decide)

theorem shape_of_le_zero (fm : FM) {p : Word} (x : Word) (h : fLe p 0x00000000#32 = true) :
    shape fm p x = if fGt x 0x00000000#32 then 0x00000000#32 else 0x3F800000#32 := if_pos h

theorem shape_of_ge_one (fm : FM) {p : Word} (x : Word) (h : fGe p 0x3F800000#32 = true) : shape fm p x = 0x3F800000#32 := by
  have hpos : fLe p Const.zero = false := by
    rw [Bool.eq_false_iff]
    exact fun hle => absurd (fLe_trans h hle) (by decide)
  simp only [shape, hpos, Bool.false_eq_true, if_false]
  exact if_pos h

theorem shape_between (fm : FM) {p : Word} (x : Word) (h0 : fLe p 0x00000000#32 = false)
    (h1 : fGe p 0x3F800000#32 = false) : shape fm p x = fmPow fm p x := by
  simp [shape, h0, h1]

/-- Settles O38: a progress is a clamp or one of its bounds, and shape is defined by the cases. -/
theorem progressStaysBetweenZeroAndOne : Obligations.ProgressStaysBetweenZeroAndOne := by
  unfold Obligations.ProgressStaysBetweenZeroAndOne
  exact ⟨progress_bounds, fun _ _ _ => progress_of_gt, fun _ _ _ => progress_of_not_gt,
    fun fm _ x => shape_of_le_zero fm x, fun fm _ x => shape_of_ge_one fm x, fun fm _ x => shape_between fm x⟩

/-! ## Sustain, and segments of no length -/

theorem fLt_posInf {t : Word} (h : isFinite t = true) : fLt t 0x7F800000#32 = true := by
  have hm := (finite_iff t).1 h
  have hinf : orderKey 0x7F800000#32 = 0x7F800000 := by decide
  rw [fLt_iff, hinf]
  refine ⟨not_nan_of_finite h, by decide, ?_⟩
  unfold orderKey
  split <;> omega

theorem egEval_sustain (fm : FM) {c : EgContext} {t : Word} (htrig : c.state.triggered = true)
    (hrel : c.state.tRelease = 0x7F800000#32) (ht : isFinite t = true) (hz : fLe c.state.tZeroEnd t = true)
    (ha : fLe c.state.tAttackEnd t = true) (hd : fLe c.state.tDecayEnd t = true) :
    egEval fm c t = c.params.sustainLevel := by
  simp [egEval_of_triggered fm t htrig, egEvalTriggered, fLt_eq_false_of_fLe hz, fLt_eq_false_of_fLe ha,
    fLt_eq_false_of_fLe hd, hrel, fLt_posInf ht]

/-- No time lies in a segment that ends at or below its start. -/
theorem fLt_end_of_empty {t start stop : Word} (h : fLe stop start = true) (hs : fLt t start = false) :
    fLt t stop = false := by
  rw [Bool.eq_false_iff]
  exact fun ht => by simp [fLt_of_fLt_of_fLe ht h] at hs

theorem egEval_empty_attack (fm : FM) (c : EgContext) (t pw : Word)
    (h : fLe c.state.tAttackEnd c.state.tZeroEnd = true) :
    egEval fm { c with params := { c.params with attackPow := pw } } t = egEval fm c t := by
  unfold egEval egEvalTriggered
  cases hz : fLt t c.state.tZeroEnd
  · simp [fLt_end_of_empty h hz]
  · simp

theorem egEval_empty_decay (fm : FM) (c : EgContext) (t pw : Word)
    (h : fLe c.state.tDecayEnd c.state.tAttackEnd = true) :
    egEval fm { c with params := { c.params with decayPow := pw } } t = egEval fm c t := by
  unfold egEval egEvalTriggered
  cases ha : fLt t c.state.tAttackEnd
  · simp [fLt_end_of_empty h ha]
  · simp

/-- Settles O41: each time falls through the boundaries at or below it, and no time lies between boundaries that are not in
order. -/
theorem sustainHoldsAndEmptySegmentsAreSkipped : Obligations.SustainHoldsAndEmptySegmentsAreSkipped := by
  unfold Obligations.SustainHoldsAndEmptySegmentsAreSkipped
  exact ⟨fun fm _ _ => egEval_sustain fm, egEval_empty_attack, egEval_empty_decay⟩

/-! ## The start of a segment -/

/-- A sum that some finite word holds exactly is that word but for the sign of zero. -/
theorem fAdd_exact {a b x : Word} (ha : isFinite a = true) (hb : isFinite b = true) (hx : isFinite x = true)
    (h : extUnits a + extUnits b = extUnits x) :
    magBits (fAdd a b) = magBits x ∧ (extUnits x ≠ 0 → fAdd a b = x) := by
  have hmag : extUnits x ≠ 0 → fAdd a b = x := fun h0 => by
    have hsign : signBit x = decide (extUnits x < 0) := by
      rw [extUnits_eq] at h0 ⊢
      cases signBit x
      · simp
      · simp only [if_true] at h0 ⊢
        rw [eq_comm, decide_eq_true_iff]
        omega
    rw [fAdd_of_finite ha hb, addFinite, ← extUnits_finite ha, ← extUnits_finite hb, h, if_neg h0, natAbs_extUnits,
      units_eq, roundUnits_exact ((finite_iff x).1 hx), ← hsign, packWord_self]
  refine ⟨?_, hmag⟩
  by_cases h0 : extUnits x = 0
  · have hz : magBits x = 0 := by simpa [isZero] using (extUnits_eq_zero_iff x).1 h0
    rw [fAdd_of_finite ha hb, addFinite, ← extUnits_finite ha, ← extUnits_finite hb, h, if_pos h0,
      magBits_packWord _ (by norm_num), hz]
  · rw [hmag h0]

/-- A finite word plus a zero has the word's value, and is the word unless that is −0. -/
theorem fAdd_zero_right {x z : Word} (hx : isFinite x = true) (hz : isZero z = true) (hf : isFinite z = true) :
    fEq (fAdd x z) x = true ∧ (x ≠ 0x80000000#32 → fAdd x z = x) := by
  have hval : extUnits x + extUnits z = extUnits x := by rw [(extUnits_eq_zero_iff z).2 hz, add_zero]
  obtain ⟨-, hsame⟩ := fAdd_exact hx hf hx hval
  by_cases h0 : extUnits x = 0
  · obtain rfl | rfl := eq_zero_of_isZero ((extUnits_eq_zero_iff x).1 h0) <;>
      obtain rfl | rfl := eq_zero_of_isZero hz <;> decide
  · refine ⟨?_, fun _ => hsame h0⟩
    rw [hsame h0, fEq_iff_extUnits]
    exact ⟨not_nan_of_finite hx, not_nan_of_finite hx, rfl⟩

theorem isFinite_fSub_zero {x : Word} (h : isFinite x = true) : isFinite (fSub 0x00000000#32 x) = true := by
  have hneg : isFinite (fNeg x) = true := (isFinite_fNeg x).trans h
  have hval : extUnits 0x00000000#32 + extUnits (fNeg x) = extUnits (fNeg x) := by
    rw [show extUnits 0x00000000#32 = 0 by decide, zero_add]
  rw [fSub_of_numbers (by decide) (not_nan_of_finite h), finite_iff, (fAdd_exact (by decide) hneg hneg hval).1,
    ← finite_iff]
  exact hneg

/-- Zero divided by anything is a zero or a NaN. -/
theorem fDiv_zero_left (y : Word) : isNaN (fDiv 0x00000000#32 y) = true ∨ isZero (fDiv 0x00000000#32 y) = true := by
  cases hn : isNaN y
  · cases hi : isInf y
    · have hf := finite_of_not_nan_of_not_inf hn hi
      cases hz : isZero y
      · rw [fDiv_of_finite (by decide) hf hz, show units 0x00000000#32 = 0 by decide, Nat.zero_mul, roundUnits_zero]
        exact .inr (isZero_pack _)
      · exact .inl ((fDiv_by_zero (by decide) ((extUnits_eq_zero_iff y).2 hz) hn).2 (by decide))
    · exact .inr (fDiv_finite_inf (by decide) hi).1
  · obtain ⟨-, -, -, hdiv⟩ := operations_of_nan (a := 0x00000000#32) (.inr hn)
    exact .inl hdiv

theorem fClamp_of_nan_or_zero {x : Word} (h : isNaN x = true ∨ isZero x = true) :
    fClamp x 0x00000000#32 0x3F800000#32 = 0x00000000#32 := by
  rcases h with hn | hz
  · have hmax : fMax x 0x00000000#32 = 0x00000000#32 := by simp [fMax, fGt, fLt, hn]
    rw [fClamp, hmax]
    decide
  · obtain rfl | rfl := eq_zero_of_isZero hz <;> decide

theorem fSub_self {t : Word} (h : isFinite t = true) : fSub t t = 0x00000000#32 := by
  have hneg : isFinite (fNeg t) = true := (isFinite_fNeg t).trans h
  have hval : extUnits t + extUnits (fNeg t) = 0 := by rw [extUnits_fNeg, add_neg_cancel]
  rw [fSub_of_numbers (not_nan_of_finite h) (not_nan_of_finite h), fAdd_of_finite h hneg, addFinite, ← extUnits_finite h,
    ← extUnits_finite hneg, if_pos hval, signBit_fNeg, Bool.and_not_self]
  rfl

/-- At the start of a segment that has a length the progress is 0, whatever the end. -/
theorem progress_start {t e : Word} (ht : isFinite t = true) (h : fLt t e = true) : progress t t e = 0x00000000#32 := by
  rw [progress_of_gt (s := t) h, fSub_self ht]
  exact fClamp_of_nan_or_zero (fDiv_zero_left _)

/-- A segment that falls from a finite level starts at that level. -/
theorem seg_start (fm : FM) {a t e x : Word} (ha : isFinite a = true) (ht : isFinite t = true) (h : fLt t e = true)
    (hx : fGt x 0x00000000#32 = true) :
    fEq (seg fm a Const.zero (progress t t e) x) a = true ∧
    (a ≠ 0x80000000#32 → seg fm a Const.zero (progress t t e) x = a) := by
  rw [seg, progress_start ht h, shape_of_le_zero fm x (by decide), if_pos hx]
  have hzero : isZero (fMul (fSub Const.zero a) 0x00000000#32) = true :=
    isZero_fMul (isFinite_fSub_zero ha) (by decide) (.inr (by decide))
  refine fAdd_zero_right ha hzero ?_
  obtain hz | hz := eq_zero_of_isZero hzero <;> rw [hz] <;> decide

/-! ## No jump at an off or a trigger (R255) -/

theorem fLt_irrefl (t : Word) : fLt t t = false := by simp [fLt]

/-- No time lies before a boundary that it has cut off. -/
theorem fLt_fMin_self (a t : Word) : fLt t (fMin a t) = false := by
  rw [fMin]
  split
  · next h => exact fLt_eq_false_of_fLe (fLe_of_fLt h)
  · exact fLt_irrefl t

/-- Right after an off at T the context is at the start of its release. -/
theorem egEval_egOff (fm : FM) {c : EgContext} {T : Word} (htrig : c.state.triggered = true)
    (h : fLt T (fAdd T c.params.releaseSecs) = true) :
    egEval fm (egOff fm c T) T =
      seg fm (egEval fm c T) Const.zero (progress T T (fAdd T c.params.releaseSecs)) c.params.releasePow := by
  rw [egEval_of_triggered fm T ((egOff_triggered fm c T).trans htrig), egOff_of_triggered fm T htrig]
  simp [egEvalTriggered, fLt_fMin_self, fLt_irrefl, h]

theorem getEg_of_exec_egoff {c : Ctx} {vt : VReg} {s t : State} (h : exec (.egoff c vt) s = .next t) :
    t.getEg c = egOff fastMath (s.getEg c) ((s.getV vt).get 0) := by
  rw [exec_egoff] at h
  obtain rfl := Host.Outcome.next.inj h
  rw [getEg_complete, getEg_setEg_same]

theorem getEg_of_exec_egtrig {c : Ctx} {vt va : VReg} {s t : State} (h : exec (.egtrig c vt va) s = .next t) :
    t.getEg c = egTrigger fastMath (s.getEg c) ((s.getV vt).get 0) ((s.getV va).get 0) := by
  rw [exec_egtrig] at h
  obtain rfl := Host.Outcome.next.inj h
  rw [getEg_complete, getEg_setEg_same]

/-- Settles O39: after the off only the release lies ahead of T, and it starts at the sampled level. -/
theorem offContinuesFromTheSampledLevel : Obligations.OffContinuesFromTheSampledLevel := by
  unfold Obligations.OffContinuesFromTheSampledLevel
  intro c vt s t T off htrig hT hoff _ hpow hlt h
  rw [getEg_of_exec_egoff h, egEval_egOff fastMath htrig hlt, egOff_of_triggered fastMath T htrig]
  exact ⟨rfl, seg_start fastMath hoff hT hlt hpow⟩

/-- What a trigger leaves for the Zero window, AUTO_RELEASE or not. -/
theorem egTrigger_zeroWindow (fm : FM) (c : EgContext) (T A : Word) :
    (egTrigger fm c T A).state.tTrigger = T ∧ (egTrigger fm c T A).state.onLevel = trigLevel fm c T := by
  rcases Bool.eq_false_or_eq_true c.autoRelease with hauto | hauto
  · rw [egTrigger_of_autoRelease fm T A hauto, egOff_of_triggered fm _ rfl]
    exact ⟨rfl, rfl⟩
  · rw [egTrigger_of_manual fm T A hauto]
    exact ⟨rfl, rfl⟩

/-- Right after a trigger at T whose Zero window has a length the context is at the start of that window. -/
theorem egEval_egTrigger (fm : FM) {c : EgContext} {T A : Word} (h : fLt T (egTrigger fm c T A).state.tZeroEnd = true) :
    egEval fm (egTrigger fm c T A) T =
      seg fm (trigLevel fm c T) Const.zero (progress T T (egTrigger fm c T A).state.tZeroEnd) Config.zeroPow := by
  obtain ⟨htrigger, hon⟩ := egTrigger_zeroWindow fm c T A
  rw [egEval_of_triggered fm T (egTrigger_triggered fm c T A), egEvalTriggered, if_pos h, htrigger, hon]

/-- Settles O40: the Zero window starts at T from the sampled level. -/
theorem retriggerContinuesFromTheSampledLevel : Obligations.RetriggerContinuesFromTheSampledLevel := by
  unfold Obligations.RetriggerContinuesFromTheSampledLevel
  intro c vt va s t T on htrig hT hon h hlt
  have hlevel : trigLevel fastMath (s.getEg c) T = on := if_pos htrig
  rw [getEg_of_exec_egtrig h] at hlt ⊢
  rw [egEval_egTrigger fastMath hlt, hlevel]
  exact ⟨(egTrigger_zeroWindow fastMath _ T _).2.trans hlevel, seg_start fastMath hon hT hlt (by decide)⟩

/-! ## The order of the timestamps (R254) -/

theorem negInf_lt {t : Word} (h : isFinite t = true) : fLt 0xFF800000#32 t = true := by
  have hm := (finite_iff t).1 h
  have hinf : orderKey 0xFF800000#32 = -0x7F800000 := by decide
  rw [fLt_iff, hinf]
  refine ⟨by decide, not_nan_of_finite h, ?_⟩
  unfold orderKey
  split <;> omega

/-- A time plus a duration is not earlier. -/
theorem le_fAdd_duration {t x : Word} (ht : fLt 0xFF800000#32 t = true) (hx : Duration x) : fLe t (fAdd t x) = true :=
  fLe_fAdd ht hx.2

theorem fMin_mono {a b : Word} (T : Word) (h : fLe a b = true) (hT : isNaN T = false) :
    fLe (fMin a T) (fMin b T) = true := by
  obtain ⟨ha, -, -⟩ := (fLe_iff a b).1 h
  obtain ⟨hle, hleT⟩ := fMin_le ha hT
  exact le_fMin (fLe_trans hle h) hleT

/-- An off, at a time not before the trigger, keeps the schedule up to decay-end in order and puts the release behind it. -/
theorem egOff_inOrder (fm : FM) {c : EgContext} {T : Word} (htrig : c.state.triggered = true)
    (hza : fLe c.state.tTrigger c.state.tZeroEnd = true) (hab : fLe c.state.tZeroEnd c.state.tAttackEnd = true)
    (hbd : fLe c.state.tAttackEnd c.state.tDecayEnd = true) (hT : fLe c.state.tTrigger T = true)
    (hinf : fLt 0xFF800000#32 T = true) (hrel : Duration c.params.releaseSecs) :
    EgInOrder (egOff fm c T).state := by
  obtain ⟨-, hd, -⟩ := (fLe_iff _ _).1 hbd
  obtain ⟨-, hnan, -⟩ := (fLe_iff _ _).1 hT
  rw [egOff_of_triggered fm T htrig]
  exact ⟨le_fMin hza hT, fMin_mono T hab hnan, fMin_mono T hbd hnan, (fMin_le hd hnan).2, le_fAdd_duration hinf hrel⟩

/-- The ways to multiply and get no NaN: finite operands, or an infinity and no zero. -/
theorem operands_of_fMul_number {a b : Word} (h : isNaN (fMul a b) = false) :
    (isFinite a = true ∧ isFinite b = true) ∨
    (isZero a = false ∧ isZero b = false ∧ signBit (fMul a b) = (signBit a != signBit b)) := by
  have hnan : ¬ (isNaN a = true ∨ isNaN b = true) := fun hn => by
    obtain ⟨-, -, hmul, -⟩ := operations_of_nan hn
    simp [hmul] at h
  rw [not_or, Bool.not_eq_true, Bool.not_eq_true] at hnan
  obtain ⟨ha, hb⟩ := hnan
  by_cases hinf : isInf a = true ∨ isInf b = true
  · obtain ⟨hinvalid, hsign⟩ := fMul_of_inf ha hb hinf
    have hz : ¬ (extUnits a = 0 ∨ extUnits b = 0) := fun hz => by simp [hinvalid hz] at h
    rw [not_or] at hz
    exact .inr ⟨by simpa [extUnits_eq_zero_iff] using hz.1, by simpa [extUnits_eq_zero_iff] using hz.2,
      (hsign hz.1 hz.2).2⟩
  · rw [not_or, Bool.not_eq_true, Bool.not_eq_true] at hinf
    exact .inl ⟨finite_of_not_nan_of_not_inf ha hinf.1, finite_of_not_nan_of_not_inf hb hinf.2⟩

/-- A number whose sign bit is 0 is not negative. -/
theorem zero_le_of_signBit {x : Word} (h : isNaN x = false) (hs : signBit x = false) : fLe 0x00000000#32 x = true := by
  have hzero : orderKey 0x00000000#32 = 0 := by decide
  rw [fLe_iff, hzero, orderKey, hs]
  exact ⟨by decide, h, by simp⟩

theorem zero_le_of_isZero {x : Word} (h : isZero x = true) : fLe 0x00000000#32 x = true := by
  obtain rfl | rfl := eq_zero_of_isZero h <;> decide

/-- A word that is not negative has the sign bit 0 or is −0. -/
theorem signBit_or_isZero_of_zero_le {x : Word} (h : fLe 0x00000000#32 x = true) :
    signBit x = false ∨ isZero x = true := by
  obtain ⟨-, -, hkey⟩ := (fLe_iff _ _).1 h
  rw [show orderKey 0x00000000#32 = 0 by decide, orderKey] at hkey
  cases hs : signBit x
  · exact .inl rfl
  · rw [hs, if_pos rfl] at hkey
    exact .inr (by rw [isZero, beq_iff_eq]; omega)

theorem signBit_fAbs (x : Word) : signBit (fAbs x) = false := by rw [fAbs_eq, signBit_packWord _ (magBits_lt x)]

/-- A product of a word that is not negative and a magnitude is not negative, unless it is a NaN. -/
theorem zero_le_fMul_fAbs {a x : Word} (ha : fLe 0x00000000#32 a = true) (h : isNaN (fMul a (fAbs x)) = false) :
    fLe 0x00000000#32 (fMul a (fAbs x)) = true := by
  obtain ⟨hfa, hfx⟩ | ⟨hza, -, hsign⟩ := operands_of_fMul_number h
  · obtain hs | hz := signBit_or_isZero_of_zero_le ha
    · exact zero_le_of_signBit h (by rw [(fMul_rounds hfa hfx).2, hs, signBit_fAbs]; rfl)
    · exact zero_le_of_isZero (isZero_fMul hfa hfx (.inl hz))
  · have hs := (signBit_or_isZero_of_zero_le ha).resolve_right (by simp [hza])
    exact zero_le_of_signBit h (by rw [hsign, hs, signBit_fAbs]; rfl)

/-- The schedule of a trigger, up to the decay-end. -/
theorem trigState_inOrder (fm : FM) {c : EgContext} {T A : Word} (hT : isFinite T = true) (hA : Duration A)
    (ha : Duration c.params.attackSecs) (hd : Duration c.params.decaySecs)
    (hp : isNaN (fMul A (fAbs (egEval fm c T))) = false) :
    fLe T (trigState fm c T A).tZeroEnd = true ∧
    fLe (trigState fm c T A).tZeroEnd (trigState fm c T A).tAttackEnd = true ∧
    fLe (trigState fm c T A).tAttackEnd (trigState fm c T A).tDecayEnd = true := by
  have hinf := negInf_lt hT
  have hz : fLe T (trigZeroEnd fm c T A) = true := by
    unfold trigZeroEnd
    split
    · next htrig =>
      rw [trigLevel, if_pos htrig]
      exact fLe_fAdd hinf (zero_le_fMul_fAbs hA.2 hp)
    · exact fLe_refl (not_nan_of_finite hT)
  have hzinf := fLt_of_fLt_of_fLe hinf hz
  have hab := le_fAdd_duration hzinf ha
  exact ⟨hz, hab, le_fAdd_duration (fLt_of_fLt_of_fLe hzinf hab) hd⟩

theorem fLe_posInf {t : Word} (h : isNaN t = false) : fLe t 0x7F800000#32 = true := by
  have hm : ¬ 0x7F800000 < magBits t := by rw [← nan_iff, h]; decide
  have hinf : orderKey 0x7F800000#32 = 0x7F800000 := by decide
  rw [fLe_iff, hinf]
  refine ⟨h, by decide, ?_⟩
  unfold orderKey
  split <;> omega

theorem egTrigger_inOrder (fm : FM) {c : EgContext} {T A : Word} (hT : isFinite T = true) (hA : Duration A)
    (ha : Duration c.params.attackSecs) (hd : Duration c.params.decaySecs) (hr : Duration c.params.releaseSecs)
    (hp : isNaN (fMul A (fAbs (egEval fm c T))) = false) : EgInOrder (egTrigger fm c T A).state := by
  obtain ⟨hz, hab, hbd⟩ := trigState_inOrder fm hT hA ha hd hp
  have hTd := fLe_trans hz (fLe_trans hab hbd)
  rcases Bool.eq_false_or_eq_true c.autoRelease with hauto | hauto
  · rw [egTrigger_of_autoRelease fm T A hauto]
    exact egOff_inOrder fm (c := { c with state := trigState fm c T A }) rfl hz hab hbd hTd
      (fLt_of_fLt_of_fLe (negInf_lt hT) hTd) hr
  · obtain ⟨-, hnan, -⟩ := (fLe_iff _ _).1 hbd
    rw [egTrigger_of_manual fm T A hauto]
    exact ⟨hz, hab, hbd, fLe_posInf hnan, fLe_refl (a := Const.posInf) (by decide)⟩

/-- Settles O42: a trigger builds its schedule by adding durations, and an off cuts a schedule in order off at its time. -/
theorem envelopeTimestampsStayInOrder : Obligations.EnvelopeTimestampsStayInOrder := by
  unfold Obligations.EnvelopeTimestampsStayInOrder
  refine ⟨fun c => ?_, fun c vt va s t => ?_, fun c vt s t => ?_⟩
  · rw [show (State.reset.getEg c) = EgContext.reset from getEg_resetAt 0 c]
    exact ⟨by decide, by decide, by decide, by decide, by decide⟩
  · intro T A hT hA ha hd hr hp h
    rw [getEg_of_exec_egtrig h]
    exact egTrigger_inOrder fastMath hT hA ha hd hr hp
  · intro T hT hle hr hord h
    rw [getEg_of_exec_egoff h]
    cases htrig : (s.getEg c).state.triggered
    · rwa [egOff_of_not_triggered fastMath T htrig]
    · obtain ⟨hz, hab, hbd, -, -⟩ := hord
      exact egOff_inOrder fastMath htrig hz hab hbd hle (negInf_lt hT) hr

end Sys2Proof.Proofs
end

section
/-! KRENDER of a sounding voice in closed form (43_synthesis_kernel.md R281 to R303). -/

namespace Sys2Proof.Proofs

open Sys2Proof.Machine Sys2Proof.Safety Sys2Proof.Laws

/-! ## Sums along the frames (R300) -/

section
variable (fm : FM) (c : RenderScalars) (o : Overtone)

/-- The phase accumulator before sample n. -/
def runningAcc (F : Nat → Frame) (acc : Word) : Nat → Word
  | 0 => acc
  | n + 1 => accAfter c o (F n) (runningAcc F acc n)

/-- The ring-mod accumulator before sample n. -/
def runningRacc (F : Nat → Frame) (racc : Word) : Nat → Word
  | 0 => racc
  | n + 1 => raccAfter c o (F n) (runningRacc F racc n)

theorem runningAcc_tail (F : Nat → Frame) (acc : Word) (n : Nat) :
    runningAcc c o (F ∘ Nat.succ) (accAfter c o (F 0) acc) n = runningAcc c o F acc (n + 1) := by
  induction n with
  | zero => rfl
  | succ n ih => rw [runningAcc, ih]; rfl

theorem runningRacc_tail (F : Nat → Frame) (racc : Word) (n : Nat) :
    runningRacc c o (F ∘ Nat.succ) (raccAfter c o (F 0) racc) n = runningRacc c o F racc (n + 1) := by
  induction n with
  | zero => rfl
  | succ n ih => rw [runningRacc, ih]; rfl

theorem map_range_succ {α : Type} (F : Nat → α) (N : Nat) :
    (List.range (N + 1)).map F = F 0 :: (List.range N).map (F ∘ Nat.succ) := by
  rw [List.range_succ_eq_map, List.map_cons, List.map_map]

theorem framesAfter_map_range (F : Nat → Frame) (N : Nat) (acc racc : Word) :
    framesAfter fm c o ((List.range N).map F) acc racc =
      (List.range N).map fun n => frameAfter fm c o (F n) (runningAcc c o F acc n) (runningRacc c o F racc n) := by
  induction N generalizing F acc racc with
  | zero => rfl
  | succ N ih =>
    rw [map_range_succ, map_range_succ, framesAfter, ih]
    simp only [runningAcc_tail, runningRacc_tail]
    rfl

theorem accFinal_map_range (F : Nat → Frame) (N : Nat) (acc : Word) :
    accFinal c o ((List.range N).map F) acc = runningAcc c o F acc N := by
  induction N generalizing F acc with
  | zero => rfl
  | succ N ih => rw [map_range_succ, accFinal, ih, runningAcc_tail]

theorem raccFinal_map_range (F : Nat → Frame) (N : Nat) (racc : Word) :
    raccFinal c o ((List.range N).map F) racc = runningRacc c o F racc N := by
  induction N generalizing F racc with
  | zero => rfl
  | succ N ih => rw [map_range_succ, raccFinal, ih, runningRacc_tail]

end

/-! ## One voice of a state, in the terms of the closed form -/

section
variable (s : State) (v : Fin 10)

/-- Frame n once the overtones of `L` are placed, in order. -/
def frameOf (L : List Nat) (n : Nat) : Frame where
  bent := Kr.bent s v n
  fmax := Kr.fmax s v n
  vol := Kr.vol s v n
  left := L.foldl (fun b i => fAdd b (if Kr.audible s v i n then Kr.left s v i n else 0x00000000#32)) 0x00000000#32
  right := L.foldl (fun b i => fAdd b (if Kr.audible s v i n then Kr.right s v i n else 0x00000000#32)) 0x00000000#32

theorem framesStart_eq :
    framesStart fastMath s v.val (s.noteFreq[v.val]'(v.isLt)) = (List.range s.bufSize.toNat).map (frameOf s v []) := rfl

theorem accAfter_frameOf (L : List Nat) (i n : Nat) (acc : Word) :
    accAfter (renderScalars fastMath s) (overtoneAt fastMath s.kernel i) (frameOf s v L n) acc =
      fAdd acc (Kr.inc s v i n) := rfl

theorem raccAfter_frameOf (L : List Nat) (i n : Nat) (racc : Word) (h : Kr.ring s = true) :
    raccAfter (renderScalars fastMath s) (overtoneAt fastMath s.kernel i) (frameOf s v L n) racc =
      fAdd racc (fMul s.kernel.rmDepth (Kr.inc s v i n)) := if_pos h

theorem runningAcc_frameOf (L : List Nat) (i n : Nat) :
    runningAcc (renderScalars fastMath s) (overtoneAt fastMath s.kernel i) (frameOf s v L)
      (s.dmemWord (phAddr v.val i)) n = Kr.acc s v i n := by
  induction n with
  | zero => rfl
  | succ n ih => rw [runningAcc, ih, accAfter_frameOf, Kr.acc]

theorem runningRacc_frameOf (L : List Nat) (i n : Nat) (h : Kr.ring s = true) :
    runningRacc (renderScalars fastMath s) (overtoneAt fastMath s.kernel i) (frameOf s v L)
      (s.dmemWord (rmAddr v.val i)) n = Kr.racc s v i n := by
  induction n with
  | zero => rfl
  | succ n ih => rw [runningRacc, ih, raccAfter_frameOf s v L i n _ h, Kr.racc]

theorem leftSample_eq (i n : Nat) {racc : Word} (h : Kr.ring s = true → racc = Kr.racc s v i n) :
    leftSample fastMath (renderScalars fastMath s) (overtoneAt fastMath s.kernel i) (Kr.fr s v i n) (Kr.acc s v i n) racc =
      Kr.left s v i n := by
  cases hring : Kr.ring s
  · have hoff : ringOn (renderScalars fastMath s) = false := hring
    exact (if_neg (by simp [hoff])).trans (if_neg (by simp [hring])).symm
  · rw [h hring]
    exact (if_pos hring).trans (if_pos hring).symm

theorem rightSample_eq (i n : Nat) {racc : Word} (h : Kr.ring s = true → racc = Kr.racc s v i n) :
    rightSample fastMath (renderScalars fastMath s) (overtoneAt fastMath s.kernel i) (Kr.fr s v i n) (Kr.acc s v i n) racc =
      Kr.right s v i n := by
  cases hring : Kr.ring s
  · have hoff : ringOn (renderScalars fastMath s) = false := hring
    exact (if_neg (by simp [hoff])).trans (if_neg (by simp [hring])).symm
  · rw [h hring]
    exact (if_pos hring).trans (if_pos hring).symm

theorem frameOf_append (L : List Nat) (i n : Nat) :
    frameOf s v (L ++ [i]) n =
      { frameOf s v L n with
        left := fAdd (frameOf s v L n).left (if Kr.audible s v i n then Kr.left s v i n else 0x00000000#32)
        right := fAdd (frameOf s v L n).right (if Kr.audible s v i n then Kr.right s v i n else 0x00000000#32) } := by
  simp only [frameOf, List.foldl_append, List.foldl_cons, List.foldl_nil]

/-- One overtone's sample is the next term of both sums of VB (R303). -/
theorem frameAfter_frameOf (L : List Nat) (i n : Nat) {racc : Word} (h : Kr.ring s = true → racc = Kr.racc s v i n) :
    frameAfter fastMath (renderScalars fastMath s) (overtoneAt fastMath s.kernel i) (frameOf s v L n) (Kr.acc s v i n)
      racc = frameOf s v (L ++ [i]) n := by
  have hfr : overtoneFreq (overtoneAt fastMath s.kernel i) (frameOf s v L n) = Kr.fr s v i n := rfl
  have haud : audible (frameOf s v L n) (Kr.fr s v i n) = Kr.audible s v i n := rfl
  rw [frameAfter, hfr, haud, leftSample_eq s v i n h, rightSample_eq s v i n h, frameOf_append]

end

/-! ## The slots of overtone state -/

theorem phAddr_ne_rmAddr (v i j : Nat) : phAddr v i ≠ rmAddr v j := by
  simp only [phAddr, rmAddr, Config.maxOvertones]
  omega

theorem phAddr_ne_phAddr (v : Nat) {i j : Nat} (h : i ≠ j) : phAddr v i ≠ phAddr v j := by
  simp only [phAddr, Config.maxOvertones]
  omega

theorem rmAddr_ne_rmAddr (v : Nat) {i j : Nat} (h : i ≠ j) : rmAddr v i ≠ rmAddr v j := by
  simp only [rmAddr, Config.maxOvertones]
  omega

section
variable (c : RenderScalars) (v i : Nat) (acc racc : Word) (s : State)

theorem storeSlot_eq : ∃ m, storeSlot c v i acc racc s = { s with dmem := m } := by
  unfold storeSlot
  split
  · exact ⟨_, rfl⟩
  · exact ⟨_, rfl⟩

theorem dmemWord_storeSlot_ph : (storeSlot c v i acc racc s).dmemWord (phAddr v i) = wrapPhase acc := by
  unfold storeSlot
  split
  · rw [dmemWord_writeDmem_ne _ _ (phAddr_ne_rmAddr v i i), dmemWord_writeDmem_same]
  · rw [dmemWord_writeDmem_same]

theorem dmemWord_storeSlot_rm :
    (storeSlot c v i acc racc s).dmemWord (rmAddr v i) = if ringOn c then wrapPhase racc else s.dmemWord (rmAddr v i) := by
  unfold storeSlot
  split
  · rw [dmemWord_writeDmem_same]
  · rw [dmemWord_writeDmem_ne _ _ (phAddr_ne_rmAddr v i i).symm]

theorem dmemWord_storeSlot_ne {a : Nat} (hph : a ≠ phAddr v i) (hrm : a ≠ rmAddr v i) :
    (storeSlot c v i acc racc s).dmemWord a = s.dmemWord a := by
  unfold storeSlot
  split
  · rw [dmemWord_writeDmem_ne _ _ hrm, dmemWord_writeDmem_ne _ _ hph]
  · rw [dmemWord_writeDmem_ne _ _ hph]

end

/-! ## The overtone loop (R294) -/

/-- What holds of the frames `fs` and the state `u` once the overtones of `L` are placed from the state `s`, with
RENDER_COUNT `r`. -/
structure Placed (s : State) (r : Word) (v : Fin 10) (L : List Nat) (fs : List Frame) (u : State) : Prop where
  frames : fs = (List.range s.bufSize.toNat).map (frameOf s v L)
  eqWith : ∃ m, u = { s with dmem := m, renderCount := r, ovtIterCount := s.ovtIterCount + BitVec.ofNat 32 L.length }
  ph : ∀ i ∈ L, u.dmemWord (phAddr v.val i) = wrapPhase (Kr.acc s v i s.bufSize.toNat)
  rm : ∀ i ∈ L, u.dmemWord (rmAddr v.val i) =
    if Kr.ring s then wrapPhase (Kr.racc s v i s.bufSize.toNat) else s.dmemWord (rmAddr v.val i)
  rest : ∀ a, (∀ i ∈ L, a ≠ phAddr v.val i ∧ a ≠ rmAddr v.val i) → u.dmemWord a = s.dmemWord a

section
variable {s : State} {r : Word} {v : Fin 10}

theorem Placed.nil :
    Placed s r v [] (framesStart fastMath s v.val (s.noteFreq[v.val]'(v.isLt))) { s with renderCount := r } where
  frames := framesStart_eq s v
  eqWith := ⟨s.dmem, by simp⟩
  ph := by simp
  rm := by simp
  rest := fun _ _ => rfl

/-- The slot of an overtone not yet placed holds what it held before the command. -/
theorem Placed.unplaced {L : List Nat} {fs : List Frame} {u : State} (h : Placed s r v L fs u) {i : Nat} (hi : i ∉ L) :
    u.dmemWord (phAddr v.val i) = s.dmemWord (phAddr v.val i) ∧
      u.dmemWord (rmAddr v.val i) = s.dmemWord (rmAddr v.val i) := by
  have hne : ∀ j ∈ L, i ≠ j := fun j hj hij => hi (hij ▸ hj)
  exact ⟨h.rest _ fun j hj => ⟨phAddr_ne_phAddr _ (hne j hj), phAddr_ne_rmAddr _ _ _⟩,
    h.rest _ fun j hj => ⟨(phAddr_ne_rmAddr _ _ _).symm, rmAddr_ne_rmAddr _ (hne j hj)⟩⟩

/-- One overtone's frames, and the sums that its slot gets. -/
theorem Placed.placeOvertone_eq {L : List Nat} {fs : List Frame} {u : State} (h : Placed s r v L fs u) {i : Nat}
    (hi : i ∉ L) :
    ∃ racc, (Kr.ring s = true → racc = Kr.racc s v i s.bufSize.toNat) ∧
      placeOvertone fastMath (renderScalars fastMath s) v.val i fs u =
        ((List.range s.bufSize.toNat).map (frameOf s v (L ++ [i])),
          storeSlot (renderScalars fastMath s) v.val i (Kr.acc s v i s.bufSize.toNat) racc
            { u with ovtIterCount := u.ovtIterCount + 1#32 }) := by
  obtain ⟨hph, hrm⟩ := h.unplaced hi
  refine ⟨runningRacc (renderScalars fastMath s) (overtoneAt fastMath s.kernel i) (frameOf s v L)
    (s.dmemWord (rmAddr v.val i)) s.bufSize.toNat, fun hr => runningRacc_frameOf s v L i _ hr, ?_⟩
  have hk : (renderScalars fastMath s).k = s.kernel := rfl
  simp only [placeOvertone, h.frames, hph, hrm, hk, framesAfter_map_range, accFinal_map_range, raccFinal_map_range,
    runningAcc_frameOf]
  congr 1
  exact List.map_congr_left fun n _ => frameAfter_frameOf s v L i n fun hr => runningRacc_frameOf s v L i n hr

theorem Placed.snoc {L : List Nat} {fs : List Frame} {u : State} (h : Placed s r v L fs u) {i : Nat} (hi : i ∉ L) :
    Placed s r v (L ++ [i]) (placeOvertone fastMath (renderScalars fastMath s) v.val i fs u).1
      (placeOvertone fastMath (renderScalars fastMath s) v.val i fs u).2 := by
  obtain ⟨racc, hracc, hplace⟩ := h.placeOvertone_eq hi
  obtain ⟨-, hrm⟩ := h.unplaced hi
  have hold {j : Nat} (hj : j ∈ L) : j ≠ i := fun hji => hi (hji ▸ hj)
  rw [hplace]
  refine ⟨rfl, ?_, ?_, ?_, fun a ha => ?_⟩
  · obtain ⟨m, hm⟩ := h.eqWith
    obtain ⟨m', hm'⟩ := storeSlot_eq (renderScalars fastMath s) v.val i (Kr.acc s v i s.bufSize.toNat) racc
      { u with ovtIterCount := u.ovtIterCount + 1#32 }
    refine ⟨m', ?_⟩
    rw [hm', hm, List.length_append, List.length_singleton, BitVec.ofNat_add, ← BitVec.add_assoc]
  · refine List.forall_mem_append.2 ⟨fun j hj => ?_, List.forall_mem_singleton.2 (dmemWord_storeSlot_ph ..)⟩
    exact (dmemWord_storeSlot_ne _ _ _ _ _ _ (phAddr_ne_phAddr _ (hold hj)) (phAddr_ne_rmAddr _ _ _)).trans (h.ph j hj)
  · refine List.forall_mem_append.2 ⟨fun j hj => ?_, List.forall_mem_singleton.2 ?_⟩
    · exact (dmemWord_storeSlot_ne _ _ _ _ _ _ (phAddr_ne_rmAddr _ _ _).symm (rmAddr_ne_rmAddr _ (hold hj))).trans
        (h.rm j hj)
    · refine (dmemWord_storeSlot_rm ..).trans ?_
      cases hring : Kr.ring s
      · have hoff : ringOn (renderScalars fastMath s) = false := hring
        exact (if_neg (by simp [hoff])).trans (hrm.trans (by simp))
      · rw [hracc hring]
        exact (if_pos hring).trans (by simp)
  · obtain ⟨hph', hrm'⟩ := ha i (by simp)
    exact (dmemWord_storeSlot_ne _ _ _ _ _ _ hph' hrm').trans (h.rest a fun j hj => ha j (by simp [hj]))

/-- The test of the loop's counter, which never reaches the sign bit. -/
theorem ofNat_slt_iff {n : Nat} (hn : n < 2147483648) (c : BitVec 32) :
    (BitVec.ofNat 32 n).slt c = true ↔ n < c.toInt.toNat := by
  have hint : (BitVec.ofNat 32 n).toInt = n := by
    rw [BitVec.toInt_eq_toNat_cond, BitVec.toNat_ofNat]
    omega
  rw [BitVec.slt_iff_toInt_lt, hint]
  omega

/-- The overtones that `left` iterations from i on place, with room for `room` of them. -/
def placedFrom (s : State) (left i room : Nat) : List Nat :=
  ((List.range' i left).filter fun i => fGt (Kr.h s i) 0x00000000#32).take room

theorem placedFrom_no_room (left i : Nat) : placedFrom s left i 0 = [] := List.take_zero

theorem placedFrom_succ_of_pos (left : Nat) {i : Nat} (room : Nat) (h : fGt (Kr.h s i) 0x00000000#32 = true) :
    placedFrom s (left + 1) i (room + 1) = i :: placedFrom s left (i + 1) room := by
  simp only [placedFrom, List.range'_succ, List.filter_cons_of_pos, h, List.take_succ_cons]

theorem placedFrom_succ_of_not_pos (left : Nat) {i : Nat} (room : Nat) (h : ¬ fGt (Kr.h s i) 0x00000000#32 = true) :
    placedFrom s (left + 1) i room = placedFrom s left (i + 1) room := by
  simp only [placedFrom, List.range'_succ, List.filter_cons, if_neg h]

theorem placedFrom_all (s : State) : placedFrom s 600 0 s.kernel.overtoneCount.toInt.toNat = Kr.placed s := by
  rw [placedFrom, ← List.range_eq_range']
  rfl

theorem Placed.loop {L : List Nat} {fs : List Frame} {u : State} (h : Placed s r v L fs u) {left i : Nat}
    (hlt : ∀ j ∈ L, j < i) (hlen : L.length + left < 2147483648) :
    let p := overtoneLoop fastMath (renderScalars fastMath s) v.val left i (BitVec.ofNat 32 L.length) fs u
    Placed s r v (L ++ placedFrom s left i (s.kernel.overtoneCount.toInt.toNat - L.length)) p.1 p.2 := by
  induction left generalizing L fs u i with
  | zero => simpa [placedFrom, overtoneLoop] using h
  | succ left ih =>
    simp only [overtoneLoop]
    split
    next hslt =>
      have hroom := (ofNat_slt_iff (by omega) _).1 hslt
      split
      next hpos =>
        have hnext := ih (h.snoc fun hi => Nat.lt_irrefl i (hlt i hi)) (i := i + 1)
          (List.forall_mem_append.2 ⟨fun j hj => Nat.lt_succ_of_lt (hlt j hj), by simp⟩) (by simp; omega)
        have hsucc : s.kernel.overtoneCount.toInt.toNat - L.length =
            s.kernel.overtoneCount.toInt.toNat - (L ++ [i]).length + 1 := by
          have : L.length < s.kernel.overtoneCount.toInt.toNat := hroom
          simp only [List.length_append, List.length_singleton]
          omega
        rw [hsucc, placedFrom_succ_of_pos left _ hpos, List.append_cons]
        simpa only [List.length_append, List.length_singleton, BitVec.ofNat_add] using hnext
      next hpos =>
        rw [placedFrom_succ_of_not_pos left _ hpos]
        exact ih h (fun j hj => Nat.lt_succ_of_lt (hlt j hj)) (by omega)
    next hslt =>
      have hfull : s.kernel.overtoneCount.toInt.toNat - L.length = 0 :=
        Nat.sub_eq_zero_of_le (Nat.not_lt.1 (mt (ofNat_slt_iff (by omega) _).2 hslt))
      rw [hfull, placedFrom_no_room, List.append_nil]
      exact h

end

/-! ## The mix into OUT (R302) -/

theorem mixFrame_eq (n : Nat) (f : Frame) (s : State) : ∃ m, mixFrame n f s = { s with dmem := m } := ⟨_, rfl⟩

theorem mixOut_eq (n : Nat) (fs : List Frame) (s : State) : ∃ m, mixOut n fs s = { s with dmem := m } := by
  induction fs generalizing n s with
  | nil => exact ⟨s.dmem, rfl⟩
  | cons f fs ih =>
    obtain ⟨m, hm⟩ := mixFrame_eq n f s
    obtain ⟨m', hm'⟩ := ih (n + 1) (mixFrame n f s)
    exact ⟨m', by rw [mixOut, hm', hm]⟩

theorem outAddr_ne_outAddr {k l : Nat} (h : k ≠ l) : outAddr k ≠ outAddr l := by
  simp only [outAddr]
  omega

theorem dmemWord_mixFrame_left (n : Nat) (f : Frame) (s : State) :
    (mixFrame n f s).dmemWord (outAddr (2 * n)) = fAdd (s.dmemWord (outAddr (2 * n))) (fMul f.left f.vol) := by
  rw [mixFrame, dmemWord_writeDmem_ne _ _ (outAddr_ne_outAddr (by omega)), dmemWord_writeDmem_same]

theorem dmemWord_mixFrame_right (n : Nat) (f : Frame) (s : State) :
    (mixFrame n f s).dmemWord (outAddr (2 * n + 1)) =
      fAdd (s.dmemWord (outAddr (2 * n + 1))) (fMul f.right f.vol) := by
  rw [mixFrame, dmemWord_writeDmem_same, dmemWord_writeDmem_ne _ _ (outAddr_ne_outAddr (by omega))]

theorem dmemWord_mixFrame_ne (n : Nat) (f : Frame) (s : State) {a : Nat} (hl : a ≠ outAddr (2 * n))
    (hr : a ≠ outAddr (2 * n + 1)) : (mixFrame n f s).dmemWord a = s.dmemWord a := by
  rw [mixFrame, dmemWord_writeDmem_ne _ _ hr, dmemWord_writeDmem_ne _ _ hl]

/-- Mixing from frame n on leaves the words before OUT[2n] and the words past OUT. -/
theorem dmemWord_mixOut_outside (n : Nat) (fs : List Frame) (s : State) {a : Nat}
    (h : a < outAddr (2 * n) ∨ outAddr (2 * (n + fs.length)) ≤ a) : (mixOut n fs s).dmemWord a = s.dmemWord a := by
  induction fs generalizing n s with
  | nil => rfl
  | cons f fs ih =>
    simp only [outAddr, List.length_cons] at h ih
    rw [mixOut, ih (n + 1) _ (by omega),
      dmemWord_mixFrame_ne _ _ _ (by rw [outAddr]; omega) (by rw [outAddr]; omega)]

theorem dmemWord_mixOut (n N : Nat) (F : Nat → Frame) (s : State) {j : Nat} (hj : j < N) :
    (mixOut n ((List.range N).map F) s).dmemWord (outAddr (2 * (n + j))) =
        fAdd (s.dmemWord (outAddr (2 * (n + j)))) (fMul (F j).left (F j).vol) ∧
      (mixOut n ((List.range N).map F) s).dmemWord (outAddr (2 * (n + j) + 1)) =
        fAdd (s.dmemWord (outAddr (2 * (n + j) + 1))) (fMul (F j).right (F j).vol) := by
  induction N generalizing n j F s with
  | zero => exact absurd hj (Nat.not_lt_zero j)
  | succ N ih =>
    rw [map_range_succ, mixOut]
    cases j with
    | zero =>
      rw [Nat.add_zero, dmemWord_mixOut_outside _ _ _ (.inl (by simp only [outAddr]; omega)),
        dmemWord_mixOut_outside _ _ _ (.inl (by simp only [outAddr]; omega))]
      exact ⟨dmemWord_mixFrame_left n (F 0) s, dmemWord_mixFrame_right n (F 0) s⟩
    | succ j =>
      obtain ⟨hl, hr⟩ := ih (n + 1) (F ∘ Nat.succ) (mixFrame n (F 0) s) (Nat.lt_of_succ_lt_succ hj)
      have hindex : n + 1 + j = n + (j + 1) := by omega
      rw [hindex] at hl hr
      rw [hl, hr, dmemWord_mixFrame_ne _ _ _ (outAddr_ne_outAddr (by omega)) (outAddr_ne_outAddr (by omega)),
        dmemWord_mixFrame_ne _ _ _ (outAddr_ne_outAddr (by omega)) (outAddr_ne_outAddr (by omega))]
      exact ⟨rfl, rfl⟩

/-! ## The voice in closed form -/

theorem wrapPhase_eq (x : Word) : wrapPhase x = Kr.wrap x := by
  simp only [wrapPhase, Kr.wrap, Bool.and_eq_true]
  rfl

section
variable (s : State) (r : Word) (v : Fin 10)

/-- The frames and the state after the overtone loop. -/
def loopResult : List Frame × State :=
  overtoneLoop fastMath (renderScalars fastMath s) v.val 600 0 0#32
    (framesStart fastMath s v.val (s.noteFreq[v.val]'(v.isLt))) { s with renderCount := r }

theorem renderVoice_eq_mixOut :
    renderVoice fastMath v { s with renderCount := r } = mixOut 0 (loopResult s r v).1 (loopResult s r v).2 := rfl

theorem placed_loopResult : Placed s r v (Kr.placed s) (loopResult s r v).1 (loopResult s r v).2 := by
  have h := (Placed.nil (s := s) (r := r) (v := v)).loop (left := 600) (i := 0) (by simp) (by simp)
  rw [← placedFrom_all]
  exact h

theorem renderVoice_eq_with :
    ∃ m, renderVoice fastMath v { s with renderCount := r } =
      { s with dmem := m, renderCount := r, ovtIterCount := s.ovtIterCount + BitVec.ofNat 32 (Kr.placed s).length } := by
  obtain ⟨m, hm⟩ := (placed_loopResult s r v).eqWith
  obtain ⟨m', hm'⟩ := mixOut_eq 0 (loopResult s r v).1 (loopResult s r v).2
  exact ⟨m', by rw [renderVoice_eq_mixOut, hm', hm]⟩

variable (hN : s.bufSize.toNat ≤ 1024)
include hN

/-- The mix ends below the overtone state. -/
theorem renderVoice_ots {a : Nat} (ha : 0xC000 ≤ a) :
    (renderVoice fastMath v { s with renderCount := r }).dmemWord a = (loopResult s r v).2.dmemWord a := by
  rw [renderVoice_eq_mixOut, (placed_loopResult s r v).frames]
  refine dmemWord_mixOut_outside _ _ _ (.inr ?_)
  rw [List.length_map, List.length_range, outAddr]
  omega

theorem renderVoice_ph {i : Nat} (hi : i ∈ Kr.placed s) :
    (renderVoice fastMath v { s with renderCount := r }).dmemWord (phAddr v.val i) = Kr.wrap (Kr.acc s v i s.bufSize.toNat) := by
  rw [renderVoice_ots s r v hN (by rw [phAddr]; omega), (placed_loopResult s r v).ph i hi, wrapPhase_eq]

theorem renderVoice_rm {i : Nat} (hi : i ∈ Kr.placed s) :
    (renderVoice fastMath v { s with renderCount := r }).dmemWord (rmAddr v.val i) =
      if Kr.ring s then Kr.wrap (Kr.racc s v i s.bufSize.toNat) else s.dmemWord (rmAddr v.val i) := by
  rw [renderVoice_ots s r v hN (by rw [rmAddr]; omega), (placed_loopResult s r v).rm i hi, wrapPhase_eq]

theorem renderVoice_unplaced {i : Nat} (hi : i ∉ Kr.placed s) :
    (renderVoice fastMath v { s with renderCount := r }).dmemWord (phAddr v.val i) = s.dmemWord (phAddr v.val i) ∧
      (renderVoice fastMath v { s with renderCount := r }).dmemWord (rmAddr v.val i) = s.dmemWord (rmAddr v.val i) := by
  rw [renderVoice_ots s r v hN (by rw [phAddr]; omega), renderVoice_ots s r v hN (by rw [rmAddr]; omega)]
  exact (placed_loopResult s r v).unplaced hi

/-- The words of OUT gain the frames' sums: the loop has not touched them. -/
theorem renderVoice_out {n : Nat} (hn : n < s.bufSize.toNat) :
    (renderVoice fastMath v { s with renderCount := r }).dmemWord (0x1000 + 2 * n) =
        fAdd (s.dmemWord (0x1000 + 2 * n)) (fMul (Kr.vbLeft s v n) (Kr.vol s v n)) ∧
      (renderVoice fastMath v { s with renderCount := r }).dmemWord (0x1000 + 2 * n + 1) =
        fAdd (s.dmemWord (0x1000 + 2 * n + 1)) (fMul (Kr.vbRight s v n) (Kr.vol s v n)) := by
  have hP := placed_loopResult s r v
  have hout {a : Nat} (ha : a < 0xC000) : (loopResult s r v).2.dmemWord a = s.dmemWord a :=
    hP.rest a fun i _ => ⟨by rw [phAddr]; omega, by rw [rmAddr]; omega⟩
  obtain ⟨hl, hr⟩ := dmemWord_mixOut 0 s.bufSize.toNat (frameOf s v (Kr.placed s)) (loopResult s r v).2 hn
  rw [← hP.frames, ← renderVoice_eq_mixOut, Nat.zero_add, outAddr, hout (by omega)] at hl
  rw [← hP.frames, ← renderVoice_eq_mixOut, Nat.zero_add, outAddr, hout (by omega)] at hr
  exact ⟨hl, hr⟩

end

theorem writes_of_renderStores {s : State} {v : Fin 10} {a : Nat} {w : Word}
    (h : RenderStores s.bufSize.toNat v.val a w) : Kr.Writes s v a :=
  h.imp_right fun ⟨hlo, hhi, _⟩ => ⟨hlo, hhi⟩

/-- The end of a command and a count commute. -/
theorem complete_withCounters (u : State) (o r : Word) :
    { u.complete with ovtIterCount := o, renderCount := r } = { u with ovtIterCount := o, renderCount := r }.complete := by
  unfold State.complete
  split
  · rfl
  · rfl

/-- KRENDER of a sounding voice leaves all but the counters and the words it may write. -/
theorem renderVoice_writesOnlyDmem (s : State) (r : Word) (v : Fin 10) :
    WritesOnlyDmem (Kr.Writes s v) s
      { (renderVoice fastMath v { s with renderCount := r }).complete with
        ovtIterCount := s.ovtIterCount, renderCount := s.renderCount } := by
  have hdmem := (renderVoice_stores fastMath v { s with renderCount := r }).sameDmemOutside (W := Kr.Writes s v)
    fun _ _ => writes_of_renderStores
  obtain ⟨m, hm⟩ := renderVoice_eq_with s r v
  rw [complete_withCounters]
  exact complete_writesOnlyDmem ⟨m, by rw [hm]⟩ hdmem

/-- Settles O47: past its checks KRENDER is the voice's rendering with RENDER_COUNT counted, which no formula reads. -/
theorem renderEqualsItsClosedForm : Obligations.RenderEqualsItsClosedForm := by
  unfold Obligations.RenderEqualsItsClosedForm
  intro v s hlegal hsound
  obtain ⟨-, -, hN⟩ := id hlegal
  rw [exec_krender_of_set v (legalBufSize_ne_zero hlegal), krenderBody_of_not_silent fastMath hsound]
  obtain ⟨m, hm⟩ := renderVoice_eq_with s (s.renderCount + 1#32) v
  refine ⟨_, rfl, renderVoice_writesOnlyDmem s _ v, ?_, ?_, ?_, fun i hi => ?_, fun i _ hi => ?_, fun n hn => ?_⟩
  · rw [complete_renderCount, hm]
  · rw [complete_fastpathCount, hm]
  · rw [complete_ovtIterCount, hm]
  · rw [dmemWord_complete, dmemWord_complete]
    exact ⟨renderVoice_ph s _ v hN hi, renderVoice_rm s _ v hN hi⟩
  · rw [dmemWord_complete, dmemWord_complete]
    exact renderVoice_unplaced s _ v hN hi
  · rw [dmemWord_complete, dmemWord_complete]
    exact renderVoice_out s _ v hN hn

end Sys2Proof.Proofs
end

section
/-! The cutoff curve does not reach the phases (43_synthesis_kernel.md R298). -/

namespace Sys2Proof.Proofs

open Sys2Proof.Machine Sys2Proof.Safety Sys2Proof.Laws

/-- `s'` is `s` but for data memory, and there but for the words of FCTL of voice v. -/
structure SameButCutoff (v : Fin 10) (s s' : State) : Prop where
  eqWith : ∃ m, s' = { s with dmem := m }
  words : ∀ a, ¬ (0x2400 + 0x1000 * v.val ≤ a ∧ a < 0x2800 + 0x1000 * v.val) → s'.dmemWord a = s.dmemWord a

namespace SameButCutoff

variable {v : Fin 10} {s s' : State} (h : SameButCutoff v s s')
include h

theorem bufSize : s'.bufSize = s.bufSize := by
  obtain ⟨m, rfl⟩ := h.eqWith
  rfl

theorem placed : Kr.placed s' = Kr.placed s := by
  obtain ⟨m, rfl⟩ := h.eqWith
  rfl

theorem ring : Kr.ring s' = Kr.ring s := by
  obtain ⟨m, rfl⟩ := h.eqWith
  rfl

theorem rmDepth : s'.kernel.rmDepth = s.kernel.rmDepth := by
  obtain ⟨m, rfl⟩ := h.eqWith
  rfl

theorem silent : Kr.Silent s' v ↔ Kr.Silent s v := by
  have hvol (n : Nat) : Kr.vol s' v n = Kr.vol s v n := h.words _ (by omega)
  simp only [Kr.Silent, hvol, h.bufSize]

/-- The phase words lie above every curve. -/
theorem ots {a : Nat} (ha : 0xC000 ≤ a) : s'.dmemWord a = s.dmemWord a :=
  h.words a (by omega)

/-- A phase increment comes of NOTE_FREQ, the parameters and BEND. -/
theorem inc (i : Nat) {n : Nat} (hn : n < 1024) : Kr.inc s' v i n = Kr.inc s v i n := by
  have hbend : Kr.bend s' v n = Kr.bend s v n := h.words _ (by omega)
  obtain ⟨m, rfl⟩ := h.eqWith
  simp only [Kr.inc, Kr.fr, Kr.bent, hbend]
  rfl

theorem acc (i : Nat) {n : Nat} (hn : n ≤ 1024) : Kr.acc s' v i n = Kr.acc s v i n := by
  induction n with
  | zero => exact h.ots (by omega)
  | succ n ih => rw [Kr.acc, Kr.acc, ih (by omega), h.inc i (by omega)]

theorem racc (i : Nat) {n : Nat} (hn : n ≤ 1024) : Kr.racc s' v i n = Kr.racc s v i n := by
  induction n with
  | zero => exact h.ots (by omega)
  | succ n ih => rw [Kr.racc, Kr.racc, ih (by omega), h.inc i (by omega), h.rmDepth]

end SameButCutoff

/-- A word of a voice's overtone state is one of the two of a slot. -/
theorem exists_slot {v a : Nat} (hlo : 0xC000 + 1200 * v ≤ a) (hhi : a < 0xC000 + 1200 * v + 1200) :
    ∃ i, a = phAddr v i ∨ a = rmAddr v i := by
  refine ⟨(a - 0xC000 - 1200 * v) / 2, ?_⟩
  simp only [phAddr, rmAddr, Config.maxOvertones]
  omega

theorem krenderBody_dmemWord_outside (v : Fin 10) (s : State) {a : Nat} (ha : ¬ Kr.Writes s v a) :
    (krenderBody fastMath v s).dmemWord a = s.dmemWord a :=
  ((krenderBody_stores fastMath v s).dmemWord_cases a).resolve_right (mt writes_of_renderStores ha)

/-- The words of a voice's slots after its rendering. -/
theorem SameButCutoff.renderVoice_slot {v : Fin 10} {s s' : State} (h : SameButCutoff v s s') (hN : s.bufSize.toNat ≤ 1024)
    (r r' : Word) (i : Nat) :
    (renderVoice fastMath v { s' with renderCount := r' }).dmemWord (phAddr v.val i) =
        (renderVoice fastMath v { s with renderCount := r }).dmemWord (phAddr v.val i) ∧
      (renderVoice fastMath v { s' with renderCount := r' }).dmemWord (rmAddr v.val i) =
        (renderVoice fastMath v { s with renderCount := r }).dmemWord (rmAddr v.val i) := by
  have hN' : s'.bufSize.toNat ≤ 1024 := h.bufSize ▸ hN
  have hph : s'.dmemWord (phAddr v.val i) = s.dmemWord (phAddr v.val i) := h.ots (by rw [phAddr]; omega)
  have hrm : s'.dmemWord (rmAddr v.val i) = s.dmemWord (rmAddr v.val i) := h.ots (by rw [rmAddr]; omega)
  by_cases hi : i ∈ Kr.placed s
  · have hi' : i ∈ Kr.placed s' := h.placed ▸ hi
    rw [renderVoice_ph s' r' v hN' hi', renderVoice_ph s r v hN hi, renderVoice_rm s' r' v hN' hi',
      renderVoice_rm s r v hN hi, h.bufSize, h.acc i hN, h.racc i hN, h.ring, hrm]
    exact ⟨rfl, rfl⟩
  · have hi' : i ∉ Kr.placed s' := h.placed ▸ hi
    obtain ⟨hp, hr⟩ := renderVoice_unplaced s r v hN hi
    obtain ⟨hp', hr'⟩ := renderVoice_unplaced s' r' v hN' hi'
    exact ⟨by rw [hp', hp, hph], by rw [hr', hr, hrm]⟩

/-- KRENDER of voice v leaves the same phases in both states. -/
theorem SameButCutoff.krenderBody_ots {v : Fin 10} {s s' : State} (h : SameButCutoff v s s')
    (hN : s.bufSize.toNat ≤ 1024) {a : Nat} (ha : 0xC000 ≤ a) :
    (krenderBody fastMath v s').dmemWord a = (krenderBody fastMath v s).dmemWord a := by
  by_cases hsilent : Kr.Silent s v
  · rw [krenderBody_of_silent fastMath hsilent, krenderBody_of_silent fastMath (h.silent.2 hsilent)]
    exact h.ots ha
  by_cases hvoice : 0xC000 + 1200 * v.val ≤ a ∧ a < 0xC000 + 1200 * v.val + 1200
  · obtain ⟨hlo, hhi⟩ := hvoice
    obtain ⟨i, hi⟩ := exists_slot hlo hhi
    rw [krenderBody_of_not_silent fastMath hsilent, krenderBody_of_not_silent fastMath (mt h.silent.1 hsilent)]
    obtain ⟨hph, hrm⟩ := h.renderVoice_slot hN (s.renderCount + 1#32) (s'.renderCount + 1#32) i
    rcases hi with rfl | rfl
    · exact hph
    · exact hrm
  · have hout : ¬ Kr.Writes s v a := by
      rw [Kr.Writes]
      omega
    have hout' : ¬ Kr.Writes s' v a := by
      rw [Kr.Writes, h.bufSize]
      omega
    rw [krenderBody_dmemWord_outside v s hout, krenderBody_dmemWord_outside v s' hout', h.ots ha]

/-- Whether the voice sounds, and how many overtones it places, FCTL does not decide. -/
theorem SameButCutoff.krenderBody_counters {v : Fin 10} {s s' : State} (h : SameButCutoff v s s') :
    SameCounters (krenderBody fastMath v s) (krenderBody fastMath v s') := by
  by_cases hsilent : Kr.Silent s v
  · rw [krenderBody_of_silent fastMath hsilent, krenderBody_of_silent fastMath (h.silent.2 hsilent)]
    obtain ⟨m, rfl⟩ := h.eqWith
    exact ⟨rfl, rfl, rfl⟩
  · rw [krenderBody_of_not_silent fastMath hsilent, krenderBody_of_not_silent fastMath (mt h.silent.1 hsilent)]
    obtain ⟨m, hm⟩ := renderVoice_eq_with s (s.renderCount + 1#32) v
    obtain ⟨m', hm'⟩ := renderVoice_eq_with s' (s'.renderCount + 1#32) v
    rw [hm, hm', h.placed]
    obtain ⟨m, rfl⟩ := h.eqWith
    exact ⟨rfl, rfl, rfl⟩

/-- KRENDER that passes its checks ends like any command and leaves the vector registers. -/
theorem ended_krenderBody (v : Fin 10) (s : State) :
    Ended s (krenderBody fastMath v s).complete ∧ SameV s (krenderBody fastMath v s).complete := by
  obtain ⟨m, o, r, f, hm⟩ := (krenderBody_stores fastMath v s).eq_with
  rw [hm]
  obtain ⟨hended, hv, -⟩ := complete_frame
    { s with dmem := m, ovtIterCount := o, renderCount := r, fastpathCount := f }
  exact ⟨ended_congr rfl rfl rfl ⟨rfl, rfl, rfl⟩ hended, hv⟩

/-- Settles O49: no formula of a phase, of a count or of the silence test reads FCTL. -/
theorem cutoffControlDoesNotReachThePhases : Obligations.CutoffControlDoesNotReachThePhases := by
  unfold Obligations.CutoffControlDoesNotReachThePhases
  intro v s s' t t' hlegal hs' hbytes ht ht'
  have h : SameButCutoff v s s' := ⟨⟨_, hs'⟩, fun a ha => dmemWord_congr s s' a fun x hx => hbytes x (hx ▸ ha)⟩
  have hset := legalBufSize_ne_zero hlegal
  rw [exec_krender_of_set v hset] at ht
  rw [exec_krender_of_set v (h.bufSize ▸ hset)] at ht'
  obtain rfl := Host.Outcome.next.inj ht
  obtain rfl := Host.Outcome.next.inj ht'
  obtain ⟨-, -, hN⟩ := hlegal
  obtain ⟨hended, hv⟩ := ended_krenderBody v s
  obtain ⟨hended', hv'⟩ := ended_krenderBody v s'
  obtain ⟨hovt, hrender, hfast⟩ := h.krenderBody_counters
  refine ⟨fun a ha _ => ?_, ?_, fun r => ?_, hended, hended'⟩
  · rw [dmemWord_complete, dmemWord_complete, h.krenderBody_ots hN ha]
  · simp only [SameCounters, complete_ovtIterCount, complete_renderCount, complete_fastpathCount, hovt, hrender, hfast,
      and_self]
  · rw [hv', hv, hs']
    rfl

end Sys2Proof.Proofs
end
